-- ==== Sys2Proof/Word.lean ====
section
/-! DEFINITION. The word types of the block: the 32-bit host word (30_encoding.md R80), the byte, and the dibit. -/

namespace Sys2Proof

/-- Every host-visible item is one 32-bit word (R80). -/
abbrev Word := BitVec 32

/-- One byte of a word on the bus (R62). -/
abbrev Byte := BitVec 8

/-- A decoded symbol value, 0 to 3 (00_scope.md, glossary). -/
abbrev Dibit := Fin 4

end Sys2Proof
end

