-- ==== Sys2Proof/Config.lean ====
section
/-! DEFINITION. What is fixed when the block is built: the constants and parameters of 00_scope.md R6, the constraints
of R7 on them, the values the spec leaves OPEN, and the free values of the model. -/

namespace Sys2Proof

/-! Constants of R6. -/

/-- One full turn in phase units (R6, 40_phase_estimator.md R101). -/
abbrev TURN : Int := 262144
/-- Half a turn (R6). -/
abbrev HALF_TURN : Int := 131072
/-- The lag of the differential phase, in samples (R6). -/
abbrev LAG : Nat := 3
/-- Taps of the matched filter (R6). -/
abbrev KTAPS : Nat := 101
/-- `(KTAPS - 1) / 2` (R6). -/
abbrev HALF_K : Nat := 50
/-- Samples per symbol (R6). -/
abbrev BITPRD : Nat := 25
/-- Terms of a cost sum (R6). -/
abbrev BITDEPTH : Nat := 10
/-- `(BITDEPTH + 1) * BITPRD` (R6). -/
abbrev HIST_BACK : Nat := 275
/-- Half a symbol period (R6). -/
abbrev SEG_HALF : Nat := 12
/-- The least input length that is analysed (R6, 45_host_commands.md R193). -/
abbrev N_MIN : Nat := 359
/-- Entries of the `DIBIT` memory (R6). -/
abbrev DIBIT_MAX : Nat := 16384

/-- The parameters of R6 as data, before R7 is checked. A parameter R6 gives a value has it as its default. -/
structure RawConfig where
  /-- `KERNEL[0..100]`, OPEN (41_differential_filter.md R125). -/
  kernel : List Int
  /-- `GAIN`, OPEN (R125). -/
  gain : Int
  /-- `QUAD_T`, a quarter turn by default (42_dibit_slicer.md R142). -/
  quadT : Int := 65536
  /-- `SAMPLE_BITS` (30_encoding.md R84). -/
  sampleBits : Nat := 16
  /-- `N_MAX`, elements of the input and phase memories. -/
  nMax : Nat := 16384
  /-- `SEG_MAX`, elements of the segment memories. -/
  segMax : Nat := 16384
  /-- `MMIO_BASE`, OPEN (20_memory.md R60). -/
  mmioBase : Nat
deriving DecidableEq, Repr

/-- `sum over j of |KERNEL[j]|` (R7). -/
def absSum : List Int → Nat
  | [] => 0
  | v :: vs => v.natAbs + absSum vs

/-- The configuration constraints of R7, with the tap count of R6 and the 1 MiB alignment of `MMIO_BASE`. -/
def RawConfig.wf (c : RawConfig) : Bool :=
  c.kernel.length == KTAPS && c.gain != 0 && decide (0 < c.quadT)
    && decide (2 ≤ c.sampleBits) && decide (c.sampleBits ≤ 24)
    && decide (N_MIN ≤ c.nMax) && decide (c.nMax ≤ 16384) && decide (c.segMax ≤ 16384)
    && decide (131072 * absSum c.kernel < 2147483648 * c.gain.natAbs)
    && c.mmioBase % 1048576 == 0

/-- A configuration the block can be built with: R7 holds of it, so that none that violates R7 ever runs. -/
structure Config extends RawConfig where
  /-- R7 holds. -/
  ok : toRawConfig.wf = true
deriving DecidableEq, Repr

/-! The OPEN values of R6: no value is given, so each is a constant without a body (notes/assumptions/2.md). -/

/-- `KERNEL[j]`: in no source (R125). -/
opaque openTap : Nat → Int
/-- Whether `GAIN` is negative: in no source (R125). -/
opaque openGainNegative : Bool
/-- How far `|GAIN|` is above the least magnitude R7 allows for the kernel. -/
opaque openGainExcess : Nat
/-- `QUAD_T - 1`: the built value is in no source, and must not be assumed to be the default (R142). -/
opaque openQuadT : Nat
/-- `MMIO_BASE / 1 MiB`: the platform's choice (20_memory.md R60). -/
opaque openMmioPage : Nat

/-- The word an element holds that nothing has written since the reset numbered `epoch`: one free value per element,
fixed at reset (70_reset_and_hazards.md R232; notes/assumptions/5.md). -/
opaque drawWord (epoch off : Nat) : Word

/-- The open kernel. -/
def openKernel : List Int := (List.range KTAPS).map openTap

/-- The least magnitude of `GAIN` that R7 allows for a kernel: `2^17 * absSum < 2^31 * |GAIN|`. -/
def leastGain (kernel : List Int) : Nat := absSum kernel / 16384 + 1

/-- The built block's configuration: every OPEN value and `QUAD_T` free within R7, `SAMPLE_BITS`, `N_MAX` and `SEG_MAX` at
their defaults. -/
def builtRaw : RawConfig where
  kernel := openKernel
  gain := (if openGainNegative then -1 else 1) * ((leastGain openKernel + openGainExcess : Nat) : Int)
  quadT := (openQuadT : Int) + 1
  mmioBase := openMmioPage * 1048576

theorem builtRaw_wf : builtRaw.wf = true := by
  have hk : builtRaw.kernel.length = KTAPS := by
    show openKernel.length = KTAPS
    rw [openKernel, List.length_map, List.length_range]
  have hg : builtRaw.gain.natAbs = leastGain openKernel + openGainExcess := by
    show ((if openGainNegative then -1 else 1) * ((leastGain openKernel + openGainExcess : Nat) : Int)).natAbs = _
    split <;> omega
  have hl : absSum openKernel < 16384 * leastGain openKernel := by
    unfold leastGain
    omega
  have hn : builtRaw.gain ≠ 0 := by
    intro h
    rw [h] at hg
    simp only [Int.natAbs_zero] at hg
    omega
  have hq : 0 < builtRaw.quadT := by
    show 0 < (openQuadT : Int) + 1
    omega
  have hr : 131072 * absSum openKernel < 2147483648 * builtRaw.gain.natAbs := by omega
  have he : builtRaw.kernel = openKernel := rfl
  have hb : builtRaw.mmioBase = openMmioPage * 1048576 := rfl
  have hr' : 131072 * absSum builtRaw.kernel < 2147483648 * builtRaw.gain.natAbs := by
    rw [he]
    exact hr
  have hm : builtRaw.mmioBase % 1048576 = 0 := by
    simp only [hb, Nat.mul_mod_left]
  simp only [RawConfig.wf, hk, hm, hq, hr', bne_iff_ne.mpr hn, decide_true, beq_self_eq_true, Bool.and_true, Bool.true_and]
  rfl

/-- The built block's configuration. -/
def builtConfig : Config := ⟨builtRaw, builtRaw_wf⟩

/-- R60: whether the bus selects the block for byte address `a`, and the 20-bit offset the block then decodes. -/
def RawConfig.offsetOf (c : RawConfig) (a : Nat) : Option (BitVec 20) :=
  if c.mmioBase ≤ a ∧ a < c.mmioBase + 0x100000 then some (BitVec.ofNat 20 (a - c.mmioBase)) else none

end Sys2Proof
end

