-- ==== Sys2Proof/Syntax.lean ====
section
/-! DEFINITION. The instructions: one constructor per row of spec/opcode_table.json. The operands of a row without an
encoding are those its row names (notes/assumptions/12.md). -/

namespace Sys2Proof

/-- The direction of a cost sum (43_timing_tracker.md R151). -/
inductive Dir
  | forward
  | backward
deriving DecidableEq, Repr, Inhabited

/-- The decision of the early/late gate (30_encoding.md R86, 43_timing_tracker.md R157). -/
inductive Move
  | centre
  | early
  | late
deriving DecidableEq, Repr, Inhabited

/-- Every operation of the block that has a row in spec/opcode_table.json. -/
inductive Instr
  /-- `CMD` word 0 (45_host_commands.md R190). -/
  | nop
  /-- `CMD` word 1 (R191). -/
  | analyze
  /-- `CMD` word 2 (R196). -/
  | ack
  /-- `OP` 0x3 with `MBZ` 0 (R197). -/
  | reservedOp3
  /-- `OP` 0x4 with `MBZ` 0 (R197). -/
  | reservedOp4
  /-- `OP` 0x5 with `MBZ` 0 (R197). -/
  | reservedOp5
  /-- `OP` 0x6 with `MBZ` 0 (R197). -/
  | reservedOp6
  /-- `OP` 0x7 with `MBZ` 0 (R197). -/
  | reservedOp7
  /-- `OP` 0x8 with `MBZ` 0 (R197). -/
  | reservedOp8
  /-- `OP` 0x9 with `MBZ` 0 (R197). -/
  | reservedOp9
  /-- `OP` 0xA with `MBZ` 0 (R197). -/
  | reservedOpA
  /-- `OP` 0xB with `MBZ` 0 (R197). -/
  | reservedOpB
  /-- `OP` 0xC with `MBZ` 0 (R197). -/
  | reservedOpC
  /-- `OP` 0xD with `MBZ` 0 (R197). -/
  | reservedOpD
  /-- `OP` 0xE with `MBZ` 0 (R197). -/
  | reservedOpE
  /-- `OP` 0xF with `MBZ` 0 (R197). -/
  | reservedOpF
  /-- Any word with `MBZ` nonzero (R197). -/
  | reservedMbz (mbz : BitVec 28) (op : BitVec 4)
  /-- Stage 1 (40_phase_estimator.md R104). -/
  | phase
  /-- Stage 2 (41_differential_filter.md R121). -/
  | diff
  /-- Stage 3 (R122). -/
  | filter
  /-- Stage 4 (43_timing_tracker.md R152). -/
  | acquire
  /-- Stage 5 (R153). -/
  | track
  /-- Stage 6 (44_segment_extractor.md R180). -/
  | extract
  /-- The phase of one sample `(I, Q)` (40_phase_estimator.md R100-R103). -/
  | cordic (iv qv : Int)
  /-- The wrap of one raw phase difference (41_differential_filter.md R120). -/
  | wrap (d : Int)
  /-- The slice of one filtered value (42_dibit_slicer.md R140). -/
  | slice (v : Int)
  /-- The cost of one candidate instant over a term set (43_timing_tracker.md R151). -/
  | cost (c : Int) (dir : Dir) (terms : List Nat)
  /-- The early/late gate at one instant (R154-R157). -/
  | select (t : Int)
  /-- The emission of one dibit and the advance of the instant (R158, R159). -/
  | emit (c : Int) (move : Move)
  /-- The run update for one emitted dibit (R161). -/
  | runUpdate (d : Dibit) (c : Int)
  /-- The close of the open run (R162). -/
  | runClose
  /-- The flush at the end of tracking (R163). -/
  | runFlush
  /-- The copy of one dibit value's clipped span (44_segment_extractor.md R180). -/
  | segCopy (d : Dibit)
deriving DecidableEq, Repr

end Sys2Proof
end

