-- ==== Sys2Proof/Machine/State.lean ====
section
/-! DEFINITION. Everything the spec gives the block to hold (10_state.md), the inputs of its ports, the reasons a step
can stop, and the state after reset (70_reset_and_hazards.md R230). -/

namespace Sys2Proof.Machine

/-- One value for each of the four dibit values. -/
structure PerDibit (α : Type) where
  d0 : α
  d1 : α
  d2 : α
  d3 : α
deriving DecidableEq, Repr

/-- The eight memory windows (10_state.md R41). -/
inductive Window
  | inI
  | inQ
  | phase
  | diff
  | filt
  | dibit
  | segI
  | segQ
deriving DecidableEq, Repr

/-- Memory: the written bytes by their offset in the block's 1 MiB window, offsets strictly rising; an unlisted byte has
no value (it was not written since reset, 70_reset_and_hazards.md R231, R232). -/
abbrev Memory := List Host.Cell

/-- One access at the bus slave port (R248): a 20-bit byte offset and a width in bytes (20_memory.md R60, R61). -/
inductive Access
  | read (off : BitVec 20) (bytes : Nat)
  | write (off : BitVec 20) (bytes : Nat) (w : Word)
deriving DecidableEq, Repr

/-- What happens next at the block: a host access, a turn of the engine, or the reset input
(notes/assumptions/8.md). -/
inductive Input
  | access (a : Access)
  | engine
  | reset
deriving DecidableEq, Repr

/-- The working registers of 10_state.md R49, and the MODEL's own latches of the sub-operations' results
(notes/assumptions/12.md). -/
structure Work where
  /-- sample index of stages PHASE, DIFF, FILTER -/
  i : Nat
  /-- CORDIC registers (R49, R102) -/
  x : Int
  y : Int
  z : Int
  /-- CORDIC iteration counter -/
  k : Nat
  /-- FIR accumulator -/
  acc : Int
  /-- acquisition offset, running sum `s`, best instant and best sum -/
  o : Nat
  sum : Int
  bestT : Option Int
  bestS : Int
  /-- tracker instant, direction, term set `K`, the three costs, the chosen instant -/
  t : Int
  dir : Dir
  terms : List Nat
  c0 : Int
  cm : Int
  cp : Int
  c : Int
  /-- the open run -/
  curValid : Bool
  curD : Dibit
  curLen : Nat
  curStart : Int
  /-- stage EXTRACT: dibit index and write pointer -/
  d : Dibit
  used : Nat
  /-- MODEL: the result of CORDIC -/
  phaseOut : Int
  /-- MODEL: the result of WRAP -/
  wrapOut : Int
  /-- MODEL: the results of SLICE -/
  dibitOut : Dibit
  discOut : Int
  /-- MODEL: the result of COST -/
  costOut : Int
  /-- MODEL: the move SELECT chose -/
  move : Move
deriving DecidableEq, Repr, Inhabited

/-- Any values at all of the working registers: what they hold outside the stage that uses them (R49,
93_implementation_defined.md I16; notes/assumptions/4.md). -/
opaque freeWork (tick : Nat) : Work

/-- The block. -/
structure State where
  /-- the constants of the block (R46); no step changes them (notes/assumptions/1.md) -/
  cfg : Config
  /-- STATUS bits 0 to 5 (R24) -/
  busy : Bool
  done : Bool
  insuff : Bool
  cmderr : Bool
  parerr : Bool
  werr : Bool
  /-- the sequencer's stage register, shown as STATUS.STAGE (R31, R48) -/
  stage : BitVec 3
  /-- host-visible registers (R32 to R39) -/
  n : Word
  maxlen : Word
  /-- bit 0 DONE_IE, bit 1 ERR_IE (R34) -/
  irqen : BitVec 2
  t0 : Word
  nsym : Word
  runLen : PerDibit Word
  runStart : PerDibit Word
  segLen : PerDibit Word
  /-- latched parameters (R47) -/
  nl : Word
  ml : Word
  /-- the eight memory windows (R41) -/
  mem : Memory
  /-- working registers (R49) -/
  work : Work
  /-- MODEL: what happens next, the next first -/
  inputs : List Input
  /-- MODEL: the word driven on the bus at the last read -/
  rdata : Option Word
  /-- MODEL: resets so far, the index of the free words of unwritten elements -/
  epoch : Nat
  /-- MODEL: stage ends so far, the index of the free working registers -/
  ticks : Nat
deriving DecidableEq, Repr

/-- Why the model's run ends. -/
inductive Fault
  /-- Raised by an engine read of an input element that was not written since reset (10_state.md R52): stage PHASE, and
  SEG_COPY outside a stage sequence. The spec's own model fault; safe. -/
  | unwrittenInput
  /-- Raised by an engine access at an index its memory has no element for (20_memory.md R69 says the engine makes none):
  COST, SELECT, EMIT, SEG_COPY and the stages in states no run reaches. Safe (notes/assumptions/7.md). -/
  | noElement
deriving DecidableEq, Repr

/-- Why the model gives no step. -/
inductive Refusal
  /-- Raised by exec for an instruction without a meaning. Safe. -/
  | notModelled (mnemonic : String)
  /-- Raised by the bus for an access that is not 32 bits wide or not at a multiple of 4 (20_memory.md R61). The spec's own
  refusal; safe. -/
  | badAccess
  /-- Raised when a configuration violates 00_scope.md R7: no model is built for it. The spec's own refusal; safe. -/
  | badConfig
  /-- Raised by the sequencer at stage code 7, which is reserved and never read (10_state.md R31); no run reaches it. Safe. -/
  | reservedStage
deriving DecidableEq, Repr

/-- What a step or a meaning answers. -/
abbrev Result := Host.Outcome State Fault Refusal

/-- The working registers after reset: unspecified by R230, zero here (notes/assumptions/3.md). -/
def resetWork : Work where
  i := 0
  x := 0
  y := 0
  z := 0
  k := 0
  acc := 0
  o := 0
  sum := 0
  bestT := none
  bestS := 0
  t := 0
  dir := .forward
  terms := []
  c0 := 0
  cm := 0
  cp := 0
  c := 0
  curValid := false
  curD := 0
  curLen := 0
  curStart := 0
  d := 0
  used := 0
  phaseOut := 0
  wrapOut := 0
  dibitOut := 0
  discOut := 0
  costOut := 0
  move := .centre

/-- Four zero words. -/
def zeroWords : PerDibit Word := ⟨0, 0, 0, 0⟩

/-- The state after reset of a block built with configuration `cfg` (R230). -/
def State.resetOf (cfg : Config) : State where
  cfg := cfg
  busy := false
  done := false
  insuff := false
  cmderr := false
  parerr := false
  werr := false
  stage := 0
  n := 0
  maxlen := 0
  irqen := 0
  t0 := 0
  nsym := 0
  runLen := zeroWords
  runStart := zeroWords
  segLen := zeroWords
  nl := 0
  ml := 0
  mem := []
  work := resetWork
  inputs := []
  rdata := none
  epoch := 0
  ticks := 0

/-- The machine right after reset (R230). -/
def State.reset : State := State.resetOf builtConfig

end Sys2Proof.Machine
end

