-- ==== Sys2Proof/Machine/Flags.lean ====
section
/-! DEFINITION. The STATUS word and the interrupt output, and the outcomes the block reports in STATUS bits. The block has
no traps: an outcome is taken by setting its bit, and acknowledged by ACK (60_exceptions.md R213, R214). -/

namespace Sys2Proof.Machine

/-- The error outcomes of 60_exceptions.md R210. -/
inductive ErrorBit
  | cmderr
  | parerr
  | werr
deriving DecidableEq, Repr

/-- Taking an error outcome: its own sticky bit and nothing else (R211). -/
def State.raise (s : State) : ErrorBit → State
  | .cmderr => { s with cmderr := true }
  | .parerr => { s with parerr := true }
  | .werr => { s with werr := true }

/-- The acknowledgement: `DONE`, `INSUFF` and the three error bits cleared (R214, 45_host_commands.md R196). -/
def State.acknowledge (s : State) : State :=
  { s with done := false, insuff := false, cmderr := false, parerr := false, werr := false }

/-- A bit as a word. -/
def bitWord (b : Bool) : Word := BitVec.ofNat 32 b.toNat

/-- STATUS word assembly (30_encoding.md R89). -/
def State.statusWord (s : State) : Word :=
  (s.stage.setWidth 32 <<< 8) ||| (bitWord s.werr <<< 5) ||| (bitWord s.parerr <<< 4) ||| (bitWord s.cmderr <<< 3)
    ||| (bitWord s.insuff <<< 2) ||| (bitWord s.done <<< 1) ||| bitWord s.busy

/-- `IRQEN.DONE_IE` (10_state.md R34). -/
def State.doneIe (s : State) : Bool := s.irqen.getLsbD 0

/-- `IRQEN.ERR_IE` (R34). -/
def State.errIe (s : State) : Bool := s.irqen.getLsbD 1

/-- The IRQEN word: bits 31:2 read 0 (30_encoding.md R90). -/
def State.irqenWord (s : State) : Word := s.irqen.setWidth 32

/-- The level interrupt output (60_exceptions.md R215). -/
def State.irq (s : State) : Bool :=
  (s.done && s.doneIe) || ((s.cmderr || s.parerr || s.werr) && s.errIe)

end Sys2Proof.Machine
end

