-- ==== Sys2Proof/WellFormed.lean ====
section
/-! DEFINITION. Which instruction terms the spec admits: a reserved word of row RESERVED_MBZ has a nonzero MBZ field, a
sample operand is a value some allowed SAMPLE_BITS can hold, and a term set is a set of indices below BITDEPTH. -/

namespace Sys2Proof

/-- A signed value of the widest sample R7 allows (24 bits, 30_encoding.md R84). -/
def sampleInRange (v : Int) : Bool := decide (-8388608 ≤ v) && decide (v < 8388608)

/-- A set of term indices drawn from `0..BITDEPTH-1` (43_timing_tracker.md R151), listed in rising order. -/
def termsInRange (terms : List Nat) : Bool :=
  terms.all (fun k => decide (k < BITDEPTH)) && decide (terms.Pairwise (· < ·))

/-- The check of an instruction term. -/
def Instr.wf : Instr → Bool
  | .nop => true
  | .analyze => true
  | .ack => true
  | .reservedOp3 => true
  | .reservedOp4 => true
  | .reservedOp5 => true
  | .reservedOp6 => true
  | .reservedOp7 => true
  | .reservedOp8 => true
  | .reservedOp9 => true
  | .reservedOpA => true
  | .reservedOpB => true
  | .reservedOpC => true
  | .reservedOpD => true
  | .reservedOpE => true
  | .reservedOpF => true
  | .reservedMbz mbz _ => mbz != 0
  | .phase => true
  | .diff => true
  | .filter => true
  | .acquire => true
  | .track => true
  | .extract => true
  | .cordic iv qv => sampleInRange iv && sampleInRange qv
  | .wrap _ => true
  | .slice _ => true
  | .cost _ _ terms => termsInRange terms
  | .select _ => true
  | .emit _ _ => true
  | .runUpdate _ _ => true
  | .runClose => true
  | .runFlush => true
  | .segCopy _ => true

end Sys2Proof
end

