-- ==== Sys2Proof/Decode.lean ====
section
/-! DEFINITION. The decoder and, after it, the encoder (30_encoding.md R81-R83, R91). Two kinds of code reach the block: a
32-bit command word written to CMD, and the 3-bit stage code the sequencer holds. -/

namespace Sys2Proof

/-- What is decoded: a command word or a stage code. -/
inductive Code
  | cmd (w : Word)
  | stage (c : BitVec 3)
deriving DecidableEq, Repr

/-- Why bytes or a code stand for no instruction. -/
inductive DecodeError
  /-- Fewer bytes than the code has. -/
  | truncated
  /-- Stage code 0, IDLE: no operation (10_state.md R31). -/
  | idleStage
  /-- Stage code 7, reserved (R31). -/
  | reservedStage
deriving DecidableEq, Repr

/-- `OP`, bits 3:0 of a command word (R81). -/
def cmdOp (w : Word) : BitVec 4 := w.extractLsb' 0 4

/-- `MBZ`, bits 31:4 of a command word (R81). -/
def cmdMbz (w : Word) : BitVec 28 := w.extractLsb' 4 28

/-- The opcode map of R82 for a word whose `MBZ` is 0. -/
def decodeOp (op : BitVec 4) : Instr :=
  match op.toNat with
  | 0 => .nop
  | 1 => .analyze
  | 2 => .ack
  | 3 => .reservedOp3
  | 4 => .reservedOp4
  | 5 => .reservedOp5
  | 6 => .reservedOp6
  | 7 => .reservedOp7
  | 8 => .reservedOp8
  | 9 => .reservedOp9
  | 10 => .reservedOpA
  | 11 => .reservedOpB
  | 12 => .reservedOpC
  | 13 => .reservedOpD
  | 14 => .reservedOpE
  | _ => .reservedOpF

/-- Every 32-bit command word has one meaning (R82, R83). -/
def decodeCmd (w : Word) : Instr :=
  if cmdMbz w = 0 then decodeOp (cmdOp w) else .reservedMbz (cmdMbz w) (cmdOp w)

/-- The stage codes of 10_state.md R31. -/
def decodeStage (c : BitVec 3) : Except DecodeError Instr :=
  match c.toNat with
  | 0 => .error .idleStage
  | 1 => .ok .phase
  | 2 => .ok .diff
  | 3 => .ok .filter
  | 4 => .ok .acquire
  | 5 => .ok .track
  | 6 => .ok .extract
  | _ => .error .reservedStage

/-- The instruction of a code. -/
def decode : Code → Except DecodeError Instr
  | .cmd w => .ok (decodeCmd w)
  | .stage c => decodeStage c

/-- Four bytes, the first at the lowest address, as a word (20_memory.md R62, little-endian). -/
def wordOfBytes (b0 b1 b2 b3 : Byte) : Word := b3 ++ b2 ++ b1 ++ b0

/-- Byte `i` of a word, byte 0 at the lowest address (R62). -/
def byteOfWord (w : Word) (i : Nat) : Byte := w.extractLsb' (8 * i) 8

/-- The command word at the head of a byte list, and the rest. -/
def decodeCmdBytes : List Byte → Except DecodeError (Instr × List Byte)
  | b0 :: b1 :: b2 :: b3 :: rest => .ok (decodeCmd (wordOfBytes b0 b1 b2 b3), rest)
  | _ => .error .truncated

/-- The stage code in the low three bits of the byte at the head of a list (mask 0x7), and the rest. -/
def decodeStageBytes : List Byte → Except DecodeError (Instr × List Byte)
  | [] => .error .truncated
  | b :: rest =>
    match decodeStage (b.extractLsb' 0 3) with
    | .ok i => .ok (i, rest)
    | .error e => .error e

/-- The instruction of a table row's word: 32 bits for the rows of format CMD, one byte for those of format STAGE. -/
def decodeTableWord (nbits w : Nat) : Option Instr :=
  let bytes := fun i => byteOfWord (BitVec.ofNat 32 w) i
  if nbits = 32 then
    match decodeCmdBytes [bytes 0, bytes 1, bytes 2, bytes 3] with
    | .ok (i, _) => some i
    | .error _ => none
  else if nbits = 8 ∧ w < 8 then
    match decodeStageBytes [bytes 0] with
    | .ok (i, _) => some i
    | .error _ => none
  else none

/-! The encoder. -/

/-- The command word of an opcode and an `MBZ` field (R81). -/
def cmdWord (mbz : BitVec 28) (op : BitVec 4) : Word := mbz ++ op

/-- The code of an instruction; the ten rows of format INTERNAL have none (R91). -/
def encode : Instr → Option Code
  | .nop => some (.cmd (cmdWord 0 0))
  | .analyze => some (.cmd (cmdWord 0 1))
  | .ack => some (.cmd (cmdWord 0 2))
  | .reservedOp3 => some (.cmd (cmdWord 0 3))
  | .reservedOp4 => some (.cmd (cmdWord 0 4))
  | .reservedOp5 => some (.cmd (cmdWord 0 5))
  | .reservedOp6 => some (.cmd (cmdWord 0 6))
  | .reservedOp7 => some (.cmd (cmdWord 0 7))
  | .reservedOp8 => some (.cmd (cmdWord 0 8))
  | .reservedOp9 => some (.cmd (cmdWord 0 9))
  | .reservedOpA => some (.cmd (cmdWord 0 10))
  | .reservedOpB => some (.cmd (cmdWord 0 11))
  | .reservedOpC => some (.cmd (cmdWord 0 12))
  | .reservedOpD => some (.cmd (cmdWord 0 13))
  | .reservedOpE => some (.cmd (cmdWord 0 14))
  | .reservedOpF => some (.cmd (cmdWord 0 15))
  | .reservedMbz mbz op => some (.cmd (cmdWord mbz op))
  | .phase => some (.stage 1)
  | .diff => some (.stage 2)
  | .filter => some (.stage 3)
  | .acquire => some (.stage 4)
  | .track => some (.stage 5)
  | .extract => some (.stage 6)
  | .cordic _ _ => none
  | .wrap _ => none
  | .slice _ => none
  | .cost _ _ _ => none
  | .select _ => none
  | .emit _ _ => none
  | .runUpdate _ _ => none
  | .runClose => none
  | .runFlush => none
  | .segCopy _ => none

/-- The bytes of a code, the first at the lowest address (R62). -/
def codeBytes : Code → List Byte
  | .cmd w => [byteOfWord w 0, byteOfWord w 1, byteOfWord w 2, byteOfWord w 3]
  | .stage c => [c.setWidth 8]

end Sys2Proof
end

