-- ==== Sys2Proof/Machine/Operands.lean ====
section
/-! DEFINITION. The arithmetic primitives of 00_scope.md R10 and the word formats of 30_encoding.md R84-R88. -/

namespace Sys2Proof.Machine

/-- `asr(v, k) = floor(v / 2^k)` (R10). -/
def asr (v : Int) (k : Nat) : Int := v / 2 ^ k

/-- `tdiv(a, b)`: division truncating toward zero (R10). -/
def tdiv (a b : Int) : Int := Int.tdiv a b

/-- `sext_N` of the low `bits` bits of a word (R9). -/
def sext (bits : Nat) (w : Word) : Int :=
  let v := w.toNat % 2 ^ bits
  if v < 2 ^ (bits - 1) then v else (v : Int) - 2 ^ bits

/-- SIGNED32: an integer as its 32-bit two's-complement word (R85). -/
def wordOfInt (v : Int) : Word := BitVec.ofInt 32 v

/-- SIGNED32: the value of a word (R85). -/
def intOfWord (w : Word) : Int := w.toInt

/-- COUNT32: a count as its 32-bit word (R87). -/
def wordOfCount (v : Nat) : Word := BitVec.ofNat 32 v

/-- COUNT32: the value of a word, `zext_32` (R87, R88). -/
def countOfWord (w : Word) : Nat := w.toNat

/-- SAMPLE: what an input element stores of a written word, its low `SAMPLE_BITS` bits (R84). -/
def sampleStored (bits : Nat) (w : Word) : Word := BitVec.ofNat 32 (w.toNat % 2 ^ bits)

/-- The `MOVE` field's code (R86). -/
def moveCode : Move → Nat
  | .centre => 0
  | .early => 1
  | .late => 2

/-- DIBITW: `(c << 8) | (move << 2) | dibit` (R86). -/
def dibitWord (c : Int) (move : Move) (d : Dibit) : Word :=
  (BitVec.ofInt 32 c <<< 8) ||| (BitVec.ofNat 32 (moveCode move) <<< 2) ||| BitVec.ofNat 32 d.val

/-- The value of one dibit's entry. -/
def PerDibit.get {α : Type} (p : PerDibit α) (d : Dibit) : α :=
  match d with
  | 0 => p.d0
  | 1 => p.d1
  | 2 => p.d2
  | 3 => p.d3

/-- One dibit's entry replaced. -/
def PerDibit.set {α : Type} (p : PerDibit α) (d : Dibit) (v : α) : PerDibit α :=
  match d with
  | 0 => { p with d0 := v }
  | 1 => { p with d1 := v }
  | 2 => { p with d2 := v }
  | 3 => { p with d3 := v }

/-- The sign of a direction: forward +1, backward -1 (43_timing_tracker.md R151). -/
def dirSign : Dir → Int
  | .forward => 1
  | .backward => -1

end Sys2Proof.Machine
end

