-- ==== Sys2Proof/Machine/Ops.lean ====
section
/-! DEFINITION. The shared operations: sequencing of results, the byte memory, the elements of the windows, and the
acceptance, completion and reset of the engine. -/

namespace Sys2Proof.Machine

/-! Sequencing. -/

/-- Go on from a next state; a fault or a refusal ends the run. -/
def andThen (r : Result) (f : State → Result) : Result :=
  match r with
  | .next s => f s
  | .fault e => .fault e
  | .refused e => .refused e

/-- `for i in [start, start + count): body i` (00_scope.md R12). -/
def forRange (body : Nat → State → Result) : (count start : Nat) → State → Result
  | 0, _, s => .next s
  | count + 1, start, s => andThen (body start s) (forRange body count (start + 1))

/-! The byte memory. -/

/-- The byte at an offset; none where nothing was written since reset. This is what an unlisted offset reads as. -/
def memGet : Memory → Nat → Option Byte
  | [], _ => none
  | (a, b) :: m, x => if a = x then some b else memGet m x

/-- A byte written: the list stays in rising order. -/
def memSet : Memory → Nat → Byte → Memory
  | [], x, v => [(x, v)]
  | (a, b) :: m, x, v =>
    if x < a then (x, v) :: (a, b) :: m
    else if x = a then (x, v) :: m
    else (a, b) :: memSet m x v

/-- The canonical form: offsets strictly rising. No entry can equal what an unlisted offset reads as, which is no value. -/
abbrev Memory.wf (m : Memory) : Prop := m.Pairwise (fun p q => p.1 < q.1)

/-- A word written at an offset, little-endian (20_memory.md R62). -/
def memSetWord (m : Memory) (a : Nat) (w : Word) : Memory :=
  memSet (memSet (memSet (memSet m a (byteOfWord w 0)) (a + 1) (byteOfWord w 1)) (a + 2) (byteOfWord w 2)) (a + 3)
    (byteOfWord w 3)

/-- The word at an offset, little-endian (R62); none where it was not written. -/
def memGetWord (m : Memory) (a : Nat) : Option Word :=
  match memGet m a, memGet m (a + 1), memGet m (a + 2), memGet m (a + 3) with
  | some b0, some b1, some b2, some b3 => some (wordOfBytes b0 b1 b2 b3)
  | _, _, _, _ => none

/-! The windows (10_state.md R41). -/

/-- The window's offset. -/
def Window.base : Window → Nat
  | .inI => 0x10000
  | .inQ => 0x20000
  | .phase => 0x30000
  | .diff => 0x40000
  | .filt => 0x50000
  | .dibit => 0x60000
  | .segI => 0x70000
  | .segQ => 0x80000

/-- The window's element count. -/
def Window.count (cfg : Config) : Window → Nat
  | .inI => cfg.nMax
  | .inQ => cfg.nMax
  | .phase => cfg.nMax
  | .diff => cfg.nMax
  | .filt => cfg.nMax
  | .dibit => DIBIT_MAX
  | .segI => cfg.segMax
  | .segQ => cfg.segMax

/-- Element `k` of a window is at `window + 4*k`. -/
def Window.addr (w : Window) (k : Nat) : Nat := w.base + 4 * k

/-- The byte the state holds at an offset of the block's window, if anything wrote it. -/
def State.byteAt (s : State) (a : Nat) : Option Byte := memGet s.mem a

/-- The word stored in element `k` of a window, if it was written since reset. -/
def State.stored (s : State) (w : Window) (k : Nat) : Option Word := memGetWord s.mem (w.addr k)

/-- `iw_I[k]`, `iw_Q[k]` and the like: the element was written since reset (R52, R231). -/
def State.written (s : State) (w : Window) (k : Nat) : Bool := (s.stored w k).isSome

/-- The word element `k` of a window holds: the stored word, or the element's free value fixed at reset (R232). -/
def State.elem (s : State) (w : Window) (k : Nat) : Word :=
  (s.stored w k).getD (drawWord s.epoch (w.addr k))

/-- Element `k` of a window stored. -/
def State.setElem (s : State) (w : Window) (k : Nat) (v : Word) : State :=
  { s with mem := memSetWord s.mem (w.addr k) v }

/-- An engine read of element `k` of a window (20_memory.md R69); none where the window has no such element. -/
def State.readElem (s : State) (w : Window) (k : Nat) : Option Word :=
  if k < w.count s.cfg then some (s.elem w k) else none

/-- An engine write of element `k` of a window (R69). -/
def writeElem (w : Window) (k : Nat) (v : Word) (s : State) : Result :=
  if k < w.count s.cfg then .next (s.setElem w k v) else .fault .noElement

/-- An engine read of input sample `k` as a signed integer (30_encoding.md R84); none where it was not written (R52). -/
def State.sample (s : State) (w : Window) (k : Nat) : Option Int :=
  if k < w.count s.cfg then (s.stored w k).map (sext s.cfg.sampleBits) else none

/-! The engine's handshake. -/

/-- Acceptance of an ANALYZE (45_host_commands.md R191). -/
def State.accept (s : State) : State :=
  { s with
    nl := s.n, ml := s.maxlen
    done := false, insuff := false
    t0 := 0, nsym := 0
    runLen := zeroWords, runStart := zeroWords, segLen := zeroWords
    busy := true }

/-- Completion (R195). -/
def State.complete (s : State) : State :=
  { s with busy := false, done := true, stage := 0 }

/-- Leaving a stage: its working registers hold unspecified values from then on (10_state.md R49). -/
def State.leaveStage (s : State) : State :=
  { s with work := freeWork s.ticks, ticks := s.ticks + 1 }

/-- The reset input (70_reset_and_hazards.md R230): the reset state, with the block's constants, the inputs still to come and
fresh free values of its own. -/
def State.onReset (s : State) : State :=
  { State.resetOf s.cfg with inputs := s.inputs, epoch := s.epoch + 1, ticks := s.ticks }

/-- A block is built only with a configuration that meets 00_scope.md R7 (93_implementation_defined.md I14). -/
def bootWith (raw : RawConfig) : Result :=
  if h : raw.wf = true then .next (State.resetOf ⟨raw, h⟩) else .refused .badConfig

end Sys2Proof.Machine
end

