-- ==== Sys2Proof/Machine/Bus.lean ====
section
/-! DEFINITION. The bus slave port: what an offset selects, what a read returns and what a write other than a command does
(20_memory.md, 10_state.md R22, R41). -/

namespace Sys2Proof.Machine

/-- What an aligned offset selects. -/
inductive Target
  | cmd
  | status
  | n
  | maxlen
  | irqen
  | t0
  | nsym
  | runLen (d : Dibit)
  | runStart (d : Dibit)
  | segLen (d : Dibit)
  | elem (w : Window) (k : Nat)
  | reserved
deriving DecidableEq, Repr

/-- The register at an offset of the register map (10_state.md R22), reserved offsets included (R40). -/
def registerAt (off : Nat) : Target :=
  match off / 4 with
  | 0 => .cmd
  | 1 => .status
  | 2 => .n
  | 3 => .maxlen
  | 4 => .irqen
  | 5 => .t0
  | 6 => .nsym
  | 8 => .runLen 0
  | 9 => .runLen 1
  | 10 => .runLen 2
  | 11 => .runLen 3
  | 12 => .runStart 0
  | 13 => .runStart 1
  | 14 => .runStart 2
  | 15 => .runStart 3
  | 16 => .segLen 0
  | 17 => .segLen 1
  | 18 => .segLen 2
  | 19 => .segLen 3
  | _ => .reserved

/-- The window an offset lies in (R41). -/
def windowAt (off : Nat) : Option Window :=
  match off / 0x10000 with
  | 1 => some .inI
  | 2 => some .inQ
  | 3 => some .phase
  | 4 => some .diff
  | 5 => some .filt
  | 6 => some .dibit
  | 7 => some .segI
  | 8 => some .segQ
  | _ => none

/-- What an aligned offset selects: the register map below 0x10000, an element of a window, or a reserved offset (20_memory.md
R60, 10_state.md R40, R41). -/
def targetOf (cfg : Config) (off : Nat) : Target :=
  if off < 0x10000 then registerAt off
  else
    match windowAt off with
    | some w =>
      let k := off % 0x10000 / 4
      if k < w.count cfg then .elem w k else .reserved
    | none => .reserved

/-- Whether a window is an input memory. -/
def Window.isInput : Window → Bool
  | .inI => true
  | .inQ => true
  | .phase => false
  | .diff => false
  | .filt => false
  | .dibit => false
  | .segI => false
  | .segQ => false

/-- The word a host read of an input element returns: the sample sign-extended, or the free value of an unwritten element
(30_encoding.md R84, 20_memory.md R68). -/
def State.inputWord (s : State) (w : Window) (k : Nat) : Word :=
  match s.stored w k with
  | some v => wordOfInt (sext s.cfg.sampleBits v)
  | none => drawWord s.epoch (w.addr k)

/-- A result hidden while busy (20_memory.md R67). -/
def State.hidden (s : State) (v : Word) : Word := if s.busy then 0 else v

/-- The word a host read returns (R64, R67, R68). -/
def State.hostRead (s : State) : Target → Word
  | .cmd => 0
  | .status => s.statusWord
  | .n => s.n
  | .maxlen => s.maxlen
  | .irqen => s.irqenWord
  | .t0 => s.hidden s.t0
  | .nsym => s.hidden s.nsym
  | .runLen d => s.hidden (s.runLen.get d)
  | .runStart d => s.hidden (s.runStart.get d)
  | .segLen d => s.hidden (s.segLen.get d)
  | .elem w k => if w.isInput then s.inputWord w k else s.hidden (s.elem w k)
  | .reserved => 0

/-- A write to an input of the analysis: ignored with WERR while busy (R66), stored otherwise (R65). -/
def State.inputWrite (s : State) (stored : State) : State := if s.busy then s.raise .werr else stored

/-- What a host write to anything but CMD does (R65, R66); a command write is executed by the sequencer. -/
def State.hostWrite (s : State) (target : Target) (w : Word) : State :=
  match target with
  | .cmd => s
  | .status => s
  | .n => s.inputWrite { s with n := w }
  | .maxlen => s.inputWrite { s with maxlen := w }
  | .irqen => { s with irqen := w.extractLsb' 0 2 }
  | .t0 => s
  | .nsym => s
  | .runLen _ => s
  | .runStart _ => s
  | .segLen _ => s
  | .elem win k =>
    if win.isInput then s.inputWrite (s.setElem win k (sampleStored s.cfg.sampleBits w)) else s
  | .reserved => s

/-- Whether the block accepts an access: 32 bits at a multiple of 4 (R61). -/
def acceptedAccess (off : BitVec 20) (bytes : Nat) : Bool := bytes == 4 && off.toNat % 4 == 0

end Sys2Proof.Machine
end

