-- ==== Sys2Proof/Machine/Commands.lean ====
section
/-! DEFINITION. The host commands: NOP, ANALYZE, ACK and the reserved words (45_host_commands.md). The order of the tests
is that of 60_exceptions.md R212. -/

namespace Sys2Proof.Machine

/-- NOP (R190). -/
def execNop (s : State) : Result := .next s

/-- Whether ANALYZE is beyond the block's capacity: `N > N_MAX` or `MAXLEN > SEG_MAX` (R192). -/
def State.beyondCapacity (s : State) : Bool :=
  decide (s.cfg.nMax < countOfWord s.n) || decide (s.cfg.segMax < countOfWord s.maxlen)

/-- ANALYZE: refused while busy (R198), refused beyond capacity (R192), else accepted (R191). -/
def execAnalyze (s : State) : Result :=
  if s.busy then .next (s.raise .cmderr)
  else if s.beyondCapacity then .next (s.raise .parerr)
  else .next s.accept

/-- ACK: refused while busy (R198), else the acknowledgement (R196). -/
def execAck (s : State) : Result :=
  if s.busy then .next (s.raise .cmderr) else .next s.acknowledge

/-- A reserved command word: `CMDERR` and nothing else, busy or not (R197). -/
def reservedCommand (s : State) : Result := .next (s.raise .cmderr)

/-- RESERVED_OP_0x3 (R197). -/
def execReservedOp3 (s : State) : Result := reservedCommand s

/-- RESERVED_OP_0x4 (R197). -/
def execReservedOp4 (s : State) : Result := reservedCommand s

/-- RESERVED_OP_0x5 (R197). -/
def execReservedOp5 (s : State) : Result := reservedCommand s

/-- RESERVED_OP_0x6 (R197). -/
def execReservedOp6 (s : State) : Result := reservedCommand s

/-- RESERVED_OP_0x7 (R197). -/
def execReservedOp7 (s : State) : Result := reservedCommand s

/-- RESERVED_OP_0x8 (R197). -/
def execReservedOp8 (s : State) : Result := reservedCommand s

/-- RESERVED_OP_0x9 (R197). -/
def execReservedOp9 (s : State) : Result := reservedCommand s

/-- RESERVED_OP_0xA (R197). -/
def execReservedOpA (s : State) : Result := reservedCommand s

/-- RESERVED_OP_0xB (R197). -/
def execReservedOpB (s : State) : Result := reservedCommand s

/-- RESERVED_OP_0xC (R197). -/
def execReservedOpC (s : State) : Result := reservedCommand s

/-- RESERVED_OP_0xD (R197). -/
def execReservedOpD (s : State) : Result := reservedCommand s

/-- RESERVED_OP_0xE (R197). -/
def execReservedOpE (s : State) : Result := reservedCommand s

/-- RESERVED_OP_0xF (R197). -/
def execReservedOpF (s : State) : Result := reservedCommand s

/-- RESERVED_MBZ: whatever the word's two fields hold (R197). -/
def execReservedMbz (_mbz : BitVec 28) (_op : BitVec 4) (s : State) : Result := reservedCommand s

end Sys2Proof.Machine
end

