-- ==== Sys2Proof/Machine/Extract.lean ====
section
/-! DEFINITION. The segment extractor: the copy of one dibit value's span and stage EXTRACT (44_segment_extractor.md). -/

namespace Sys2Proof.Machine

/-- The span start of dibit `d`, clipped to the input (R180: `lo`). -/
def State.spanLo (s : State) (d : Dibit) : Nat := (max (intOfWord (s.runStart.get d)) 0).toNat

/-- The samples of dibit `d`'s span inside the input (R180: `max(0, hi - lo)`). -/
def State.spanLen (s : State) (d : Dibit) : Nat :=
  let a := intOfWord (s.runStart.get d)
  let b := a + BITPRD * countOfWord (s.runLen.get d)
  (min b (countOfWord s.nl) - max a 0).toNat

/-- The samples of dibit `d` to copy: the span clipped to the remaining capacity (R180: `cnt`). -/
def State.spanCount (s : State) (d : Dibit) : Nat := min (s.spanLen d) (countOfWord s.ml - s.work.used)

/-- One sample pair copied, from input index `lo + m` to output element `used + m` (R180, R186). -/
def copySample (lo used m : Nat) (s : State) : Result :=
  match s.sample .inI (lo + m), s.sample .inQ (lo + m) with
  | some iv, some qv =>
    andThen (writeElem .segI (used + m) (wordOfInt iv) s) (writeElem .segQ (used + m) (wordOfInt qv))
  | _, _ => .fault .unwrittenInput

/-- SEG_COPY (R180, R181): the span of dibit `d` copied after what is already there, its length reported. -/
def execSegCopy (d : Dibit) (s : State) : Result :=
  let cnt := s.spanCount d
  andThen (forRange (copySample (s.spanLo d) s.work.used) cnt 0 s) fun s1 =>
    .next { s1 with
      segLen := s1.segLen.set d (wordOfCount cnt)
      work := { s1.work with d := d, used := s1.work.used + cnt } }

/-- The dibit value of a loop index. -/
def dibitOfIndex (k : Nat) : Dibit := Fin.ofNat 4 k

/-- EXTRACT, stage 6 (R180): the four dibit values in rising order. -/
def execExtract (s : State) : Result :=
  forRange (fun k => execSegCopy (dibitOfIndex k)) 4 0 { s with work := { s.work with used := 0 } }

end Sys2Proof.Machine
end

