-- ==== Sys2Proof/Machine/Filter.lean ====
section
/-! DEFINITION. The differential filter: the wrap of one difference, stage DIFF and stage FILTER
(41_differential_filter.md). -/

namespace Sys2Proof.Machine

/-- The wrap of a raw phase difference into the closed principal range, by at most one turn (R120). -/
def wrapPhase (d : Int) : Int :=
  if d > HALF_TURN then d - TURN else if d < -HALF_TURN then d + TURN else d

/-- The wrap with its result latched in `wrapOut`. -/
def State.runWrap (s : State) (d : Int) : State := { s with work := { s.work with wrapOut := wrapPhase d } }

/-- WRAP (R120). -/
def execWrap (d : Int) (s : State) : Result := .next (s.runWrap d)

/-- One sample of stage DIFF (R121). -/
def diffSample (i : Nat) (s : State) : Result :=
  let s0 := { s with work := { s.work with i := i } }
  if i < LAG then writeElem .diff i (wordOfInt 0) s0
  else
    match s0.readElem .phase (i - LAG), s0.readElem .phase i with
    | some older, some newer =>
      let s1 := s0.runWrap (intOfWord older - intOfWord newer)
      writeElem .diff i (wordOfInt s1.work.wrapOut) s1
    | _, _ => .fault .noElement

/-- DIFF, stage 2 (R121). -/
def execDiff (s : State) : Result := forRange diffSample (countOfWord s.nl) 0 s

/-- `sum over j of DIFF[first + j] * KERNEL[j]` (R122); none where an index has no element. -/
def firSum (read : Nat → Option Int) : (taps : List Int) → (first : Nat) → Option Int
  | [], _ => some 0
  | tap :: taps, first =>
    match read first, firSum read taps (first + 1) with
    | some v, some rest => some (v * tap + rest)
    | _, _ => none

/-- The value of `DIFF[k]` as the engine reads it. -/
def State.diffAt (s : State) (k : Nat) : Option Int := (s.readElem .diff k).map intOfWord

/-- One sample of stage FILTER (R122), 0 outside the valid range (R123). -/
def filterSample (i : Nat) (s : State) : Result :=
  let s0 := { s with work := { s.work with i := i } }
  if HALF_K ≤ i ∧ i + HALF_K < countOfWord s.nl then
    match firSum s0.diffAt s.cfg.kernel (i - HALF_K) with
    | some acc =>
      let s1 := { s0 with work := { s0.work with acc := acc } }
      writeElem .filt i (wordOfInt (tdiv acc s.cfg.gain)) s1
    | none => .fault .noElement
  else writeElem .filt i (wordOfInt 0) s0

/-- FILTER, stage 3 (R122, R123). -/
def execFilter (s : State) : Result := forRange filterSample (countOfWord s.nl) 0 s

end Sys2Proof.Machine
end

