-- ==== Sys2Proof/Machine/Phase.lean ====
section
/-! DEFINITION. The phase estimator: the CORDIC of one sample and stage PHASE (40_phase_estimator.md). -/

namespace Sys2Proof.Machine

/-- The constant table `ATAN[0..7]` (R101). -/
def atan : List Int := [32768, 19344, 10220, 5188, 2604, 1303, 651, 325]

/-- The CORDIC registers. -/
structure CordicRegs where
  x : Int
  y : Int
  z : Int
deriving DecidableEq, Repr

/-- The base offset of the quadrant of `(I, Q)` (R100). -/
def quadrantOffset (iv qv : Int) : Int :=
  if iv ≥ 0 then 0 else if qv ≥ 0 then HALF_TURN else -HALF_TURN

/-- The sign of the quadrant of `(I, Q)` (R100). -/
def quadrantSign (iv qv : Int) : Int :=
  if iv ≥ 0 then (if qv ≥ 0 then 1 else -1) else (if qv ≥ 0 then -1 else 1)

/-- The start vector, reflected into the first quadrant, with `z = 0` (R100, R102). -/
def cordicStart (iv qv : Int) : CordicRegs where
  x := if iv ≥ 0 then iv else -iv
  y := if qv ≥ 0 then qv else -qv
  z := 0

/-- One micro-rotation, by iteration `k` with table entry `a`; old `x` and `y` are read before either is written (R102). -/
def cordicRotate (k : Nat) (a : Int) (r : CordicRegs) : CordicRegs :=
  if r.y > 0 then { x := r.x + asr r.y k, y := r.y - asr r.x k, z := r.z + a }
  else if r.y < 0 then { x := r.x - asr r.y k, y := r.y + asr r.x k, z := r.z - a }
  else r

/-- The rotations for the rest of the table, from iteration `k` on (R102). -/
def cordicLoop : List Int → Nat → CordicRegs → CordicRegs
  | [], _, r => r
  | a :: table, k, r => cordicLoop table (k + 1) (cordicRotate k a r)

/-- The registers after the eighth iteration (R102). -/
def cordicRegs (iv qv : Int) : CordicRegs := cordicLoop atan 0 (cordicStart iv qv)

/-- `cordic(I, Q) = off + s * z` (R103). -/
def cordic (iv qv : Int) : Int := quadrantOffset iv qv + quadrantSign iv qv * (cordicRegs iv qv).z

/-- The CORDIC of one sample in the working registers; its result is latched in `phaseOut`. -/
def State.runCordic (s : State) (iv qv : Int) : State :=
  { s with work := { s.work with
    x := (cordicRegs iv qv).x
    y := (cordicRegs iv qv).y
    z := (cordicRegs iv qv).z
    k := 7
    phaseOut := cordic iv qv } }

/-- CORDIC (R100-R103). -/
def execCordic (iv qv : Int) (s : State) : Result := .next (s.runCordic iv qv)

/-- One sample of stage PHASE: `PHASE[i] <- cordic(IN_I[i], IN_Q[i])` (R104). -/
def phaseSample (i : Nat) (s : State) : Result :=
  match s.sample .inI i, s.sample .inQ i with
  | some iv, some qv =>
    let s1 := { s with work := { s.work with i := i } }.runCordic iv qv
    writeElem .phase i (wordOfInt s1.work.phaseOut) s1
  | _, _ => .fault .unwrittenInput

/-- PHASE, stage 1 (R104). -/
def execPhase (s : State) : Result := forRange phaseSample (countOfWord s.nl) 0 s

end Sys2Proof.Machine
end

