-- ==== Sys2Proof/Machine/Slicer.lean ====
section
/-! DEFINITION. The dibit slicer (42_dibit_slicer.md). -/

namespace Sys2Proof.Machine

/-- `slice(v)`: the dibit and the discriminant, first matching row of the table of R140, with threshold `T`. -/
def slice (T v : Int) : Dibit × Int :=
  if v ≥ 3 * T then (1, v - 3 * T)
  else if 2 * T ≤ v then (1, min (v - 2 * T) (3 * T - v))
  else if T ≤ v then (0, min (v - T) (2 * T - v))
  else if 0 ≤ v then (0, min v (T - v))
  else if -T ≤ v then (2, min (v + T) (-v))
  else if -2 * T ≤ v then (2, min (v + 2 * T) (-T - v))
  else if -3 * T ≤ v then (3, min (v + 3 * T) (-2 * T - v))
  else (3, -3 * T - v)

/-- The slice with its results latched in `dibitOut` and `discOut`. -/
def State.runSlice (s : State) (v : Int) : State :=
  let r := slice s.cfg.quadT v
  { s with work := { s.work with dibitOut := r.1, discOut := r.2 } }

/-- SLICE (R140). -/
def execSlice (v : Int) (s : State) : Result := .next (s.runSlice v)

end Sys2Proof.Machine
end

