-- ==== Sys2Proof/Machine/Tracker.lean ====
section
/-! DEFINITION. The timing and framing tracker: costs, stage ACQUIRE, the early/late gate, the emission of dibits, run
tracking and stage TRACK (43_timing_tracker.md). Instants are integers, so that an instant before the data is no element
and not element 0. -/

namespace Sys2Proof.Machine

/-! Definitions (R150). -/

/-- The first valid index `FV` (R150). -/
def firstValid : Int := HALF_K

/-- `valid(x)`: `FV <= x <= LV = Nl - 51` (R150). -/
def validIndex (nl : Nat) (x : Int) : Bool := decide (firstValid ≤ x) && decide (x ≤ (nl : Int) - HALF_K - 1)

/-- `FILT[x]` as the engine reads it; none where there is no such element. -/
def State.filtAt (s : State) (x : Int) : Option Int :=
  if 0 ≤ x then (s.readElem .filt x.toNat).map intOfWord else none

/-! Cost (R151). -/

/-- `sum over k in K of disc(c + dir * BITPRD * k)`, with `read` for `FILT` and threshold `T`. -/
def costSum (read : Int → Option Int) (T c : Int) (dir : Dir) : List Nat → Option Int
  | [] => some 0
  | k :: terms =>
    match read (c + dirSign dir * (BITPRD * k)), costSum read T c dir terms with
    | some v, some rest => some ((slice T v).2 + rest)
    | _, _ => none

/-- `cost(c, dir, K)` over the filtered phase (R151). -/
def State.cost (s : State) (c : Int) (dir : Dir) (terms : List Nat) : Option Int :=
  costSum s.filtAt s.cfg.quadT c dir terms

/-- COST (R151): its result is latched in `costOut`. -/
def execCost (c : Int) (dir : Dir) (terms : List Nat) (s : State) : Result :=
  match s.cost c dir terms with
  | some v => .next { s with work := { s.work with costOut := v } }
  | none => .fault .noElement

/-! Stage ACQUIRE (R152). -/

/-- All ten term indices. -/
def allTerms : List Nat := List.range BITDEPTH

/-- Whether a sum replaces the best so far: there is none yet, or it is strictly smaller (R152). -/
def betterSum (w : Work) (sum : Int) : Bool := decide (w.bestT = none) || decide (sum < w.bestS)

/-- One candidate offset: a strictly smaller sum replaces the best (R152). -/
def acquireOffset (o : Nat) (s : State) : Result :=
  let t : Int := firstValid + o
  match s.cost t .forward allTerms with
  | some sum =>
    .next { s with work := { s.work with
      o := o
      sum := sum
      bestT := if betterSum s.work sum then some t else s.work.bestT
      bestS := if betterSum s.work sum then sum else s.work.bestS } }
  | none => .fault .noElement

/-- `T0 <- best_t`; after at least one offset `best_t` is an instant (R152). -/
def storeT0 (s : State) : Result := .next { s with t0 := wordOfInt (s.work.bestT.getD 0) }

/-- ACQUIRE, stage 4 (R152). -/
def execAcquire (s : State) : Result :=
  andThen (forRange acquireOffset BITPRD 0 { s with work := { s.work with bestT := none } }) storeT0

/-! The early/late gate (R154 to R157). -/

/-- The direction at instant `t` (R154). -/
def directionAt (t : Int) : Dir := if t - firstValid ≥ HIST_BACK then .backward else .forward

/-- Whether the early candidate `t - 1` exists (R155). -/
def hasEarly (t : Int) : Bool := decide (t - 1 ≥ firstValid)

/-- The candidates at instant `t` (R155). -/
def candidates (t : Int) : List Int := if hasEarly t then [t - 1, t, t + 1] else [t, t + 1]

/-- The common term set of the candidates (R156). -/
def termsFor (nl : Nat) (dir : Dir) (cands : List Int) : List Nat :=
  allTerms.filter (fun k => cands.all (fun c => validIndex nl (c + dirSign dir * (BITPRD * k))))

/-- The gate: a candidate other than `t` is taken only when its cost is strictly below both others; `cm` is none when the
early candidate does not exist (R157). -/
def gate (cm : Option Int) (c0 cp : Int) : Move :=
  match cm with
  | some m => if m < c0 ∧ m < cp then .early else if cp < c0 ∧ cp < m then .late else .centre
  | none => if cp < c0 then .late else .centre

/-- The instant a move chooses (R157). -/
def movedInstant (t : Int) : Move → Int
  | .centre => t
  | .early => t - 1
  | .late => t + 1

/-- SELECT (R154-R157): direction, term set and costs in the working registers, the choice in `c` and `move`. `cm` is
written only when the early candidate exists. -/
def execSelect (t : Int) (s : State) : Result :=
  let dir := directionAt t
  let terms := termsFor (countOfWord s.nl) dir (candidates t)
  match s.cost t dir terms, s.cost (t + 1) dir terms with
  | some c0, some cp =>
    let w := { s.work with dir := dir, terms := terms, c0 := c0, cp := cp }
    if hasEarly t then
      match s.cost (t - 1) dir terms with
      | some cm =>
        let m := gate (some cm) c0 cp
        .next { s with work := { w with cm := cm, c := movedInstant t m, move := m } }
      | none => .fault .noElement
    else
      let m := gate none c0 cp
      .next { s with work := { w with c := movedInstant t m, move := m } }
  | _, _ => .fault .noElement

/-! Emission and advance (R158, R159). -/

/-- EMIT: slice the chosen instant, write `DIBIT[NSYM]`, count it, and advance the instant by a symbol period. -/
def execEmit (c : Int) (move : Move) (s : State) : Result :=
  match s.filtAt c with
  | some v =>
    let s1 := s.runSlice v
    andThen (writeElem .dibit (countOfWord s1.nsym) (dibitWord c move s1.work.dibitOut) s1) fun s2 =>
      .next { s2 with
        nsym := wordOfCount (countOfWord s2.nsym + 1)
        work := { s2.work with t := c + BITPRD } }
  | none => .fault .noElement

/-! Run tracking (R161 to R163). -/

/-- The close of the open run: a strictly longer run replaces the best of its dibit value (R162). -/
def State.closeRun (s : State) : State :=
  if s.work.curLen > countOfWord (s.runLen.get s.work.curD) then
    { s with
      runLen := s.runLen.set s.work.curD (wordOfCount s.work.curLen)
      runStart := s.runStart.set s.work.curD (wordOfInt s.work.curStart) }
  else s

/-- A run opened at instant `c` (R161). -/
def State.openRun (s : State) (d : Dibit) (c : Int) : State :=
  { s with work := { s.work with curD := d, curLen := 1, curStart := c - SEG_HALF } }

/-- The run update for dibit `d` emitted at instant `c` (R161). -/
def State.updateRun (s : State) (d : Dibit) (c : Int) : State :=
  if s.work.curValid = false then
    let s1 := s.openRun d c
    { s1 with work := { s1.work with curValid := true } }
  else if d = s.work.curD then { s with work := { s.work with curLen := s.work.curLen + 1 } }
  else s.closeRun.openRun d c

/-- RUN_UPDATE (R161). -/
def execRunUpdate (d : Dibit) (c : Int) (s : State) : Result := .next (s.updateRun d c)

/-- RUN_CLOSE (R162). -/
def execRunClose (s : State) : Result := .next s.closeRun

/-- RUN_FLUSH (R163). -/
def execRunFlush (s : State) : Result := .next (if s.work.curValid then s.closeRun else s)

/-! Stage TRACK (R153). -/

/-- One step of the tracking loop: select, emit with the advance, run update. -/
def trackStep (s : State) : Result :=
  andThen (execSelect s.work.t s) fun s1 =>
    andThen (execEmit s1.work.c s1.work.move s1) fun s2 => execRunUpdate s2.work.dibitOut s2.work.c s2

/-- The loop of R153 while `t <= Nl - 52` (R160). Every step advances `t` by at least 24, so `Nl` steps are enough and the
count never ends the loop (Laws/Tracker.lean, trackLoop_fuel). -/
def trackLoop : (fuel : Nat) → State → Result
  | 0, s => .next s
  | fuel + 1, s =>
    if s.work.t ≤ (countOfWord s.nl : Int) - 52 then andThen (trackStep s) (trackLoop fuel) else .next s

/-- TRACK, stage 5 (R153, R163). -/
def execTrack (s : State) : Result :=
  andThen
    (trackLoop (countOfWord s.nl)
      { s with nsym := 0, work := { s.work with t := countOfWord s.t0, curValid := false } })
    execRunFlush

end Sys2Proof.Machine
end

