-- ==== Sys2Proof/Machine/Dispatch.lean ====
section
/-! DEFINITION. The meaning of every instruction, one arm each. -/

namespace Sys2Proof.Machine

def exec (i : Instr) (s : State) : Host.Outcome State Fault Refusal :=
  match i with
  | .nop => Sys2Proof.Machine.execNop s
  | .analyze => Sys2Proof.Machine.execAnalyze s
  | .ack => Sys2Proof.Machine.execAck s
  | .reservedOp3 => Sys2Proof.Machine.execReservedOp3 s
  | .reservedOp4 => Sys2Proof.Machine.execReservedOp4 s
  | .reservedOp5 => Sys2Proof.Machine.execReservedOp5 s
  | .reservedOp6 => Sys2Proof.Machine.execReservedOp6 s
  | .reservedOp7 => Sys2Proof.Machine.execReservedOp7 s
  | .reservedOp8 => Sys2Proof.Machine.execReservedOp8 s
  | .reservedOp9 => Sys2Proof.Machine.execReservedOp9 s
  | .reservedOpA => Sys2Proof.Machine.execReservedOpA s
  | .reservedOpB => Sys2Proof.Machine.execReservedOpB s
  | .reservedOpC => Sys2Proof.Machine.execReservedOpC s
  | .reservedOpD => Sys2Proof.Machine.execReservedOpD s
  | .reservedOpE => Sys2Proof.Machine.execReservedOpE s
  | .reservedOpF => Sys2Proof.Machine.execReservedOpF s
  | .reservedMbz mbz op => Sys2Proof.Machine.execReservedMbz mbz op s
  | .phase => Sys2Proof.Machine.execPhase s
  | .diff => Sys2Proof.Machine.execDiff s
  | .filter => Sys2Proof.Machine.execFilter s
  | .acquire => Sys2Proof.Machine.execAcquire s
  | .track => Sys2Proof.Machine.execTrack s
  | .extract => Sys2Proof.Machine.execExtract s
  | .cordic iv qv => Sys2Proof.Machine.execCordic iv qv s
  | .wrap d => Sys2Proof.Machine.execWrap d s
  | .slice v => Sys2Proof.Machine.execSlice v s
  | .cost c dir terms => Sys2Proof.Machine.execCost c dir terms s
  | .select t => Sys2Proof.Machine.execSelect t s
  | .emit c move => Sys2Proof.Machine.execEmit c move s
  | .runUpdate d c => Sys2Proof.Machine.execRunUpdate d c s
  | .runClose => Sys2Proof.Machine.execRunClose s
  | .runFlush => Sys2Proof.Machine.execRunFlush s
  | .segCopy d => Sys2Proof.Machine.execSegCopy d s

end Sys2Proof.Machine
end

