-- ==== Sys2Proof/Machine/Sequencer.lean ====
section
/-! DEFINITION. What the step runs: a host access at the bus port, which executes a command when it is a write to CMD, and a
turn of the engine, which runs the stage its sequencer holds (45_host_commands.md R193-R195). -/

namespace Sys2Proof.Machine

/-- A host access (20_memory.md R61 to R68). -/
def accessStep (a : Access) (s : State) : Result :=
  match a with
  | .read off bytes =>
    if acceptedAccess off bytes then .next { s with rdata := some (s.hostRead (targetOf s.cfg off.toNat)) }
    else .refused .badAccess
  | .write off bytes w =>
    if acceptedAccess off bytes then
      match targetOf s.cfg off.toNat with
      | .cmd => exec (decodeCmd w) s
      | .status => .next (s.hostWrite .status w)
      | .n => .next (s.hostWrite .n w)
      | .maxlen => .next (s.hostWrite .maxlen w)
      | .irqen => .next (s.hostWrite .irqen w)
      | .t0 => .next (s.hostWrite .t0 w)
      | .nsym => .next (s.hostWrite .nsym w)
      | .runLen d => .next (s.hostWrite (.runLen d) w)
      | .runStart d => .next (s.hostWrite (.runStart d) w)
      | .segLen d => .next (s.hostWrite (.segLen d) w)
      | .elem win k => .next (s.hostWrite (.elem win k) w)
      | .reserved => .next (s.hostWrite .reserved w)
    else .refused .badAccess

/-- After a stage: the next stage, or completion after the sixth (R194, R195). -/
def State.advance (s : State) : State :=
  let s1 := s.leaveStage
  if s1.stage = 6 then s1.complete else { s1 with stage := s1.stage + 1 }

/-- One turn of the engine: nothing when idle; from acceptance, completion with INSUFF when `Nl < N_MIN` (R193), else stage
1; in a stage, the instruction its code decodes to, then the advance (R194). -/
def engineStep (s : State) : Result :=
  if s.busy = false then .next s
  else if s.stage = 0 then
    if countOfWord s.nl < N_MIN then .next { s with insuff := true }.complete else .next { s with stage := 1 }
  else
    match decode (.stage s.stage) with
    | .ok i => andThen (exec i s) fun s1 => .next s1.advance
    | .error _ => .refused .reservedStage

/-- The code that stands where the step takes its next instruction: the word of a command write at the head of the inputs, or
the sequencer's stage code when it is the engine's turn. -/
def State.fetched (s : State) : Option Code :=
  match s.inputs with
  | .access (.write off bytes w) :: _ => if off = 0 ∧ bytes = 4 then some (.cmd w) else none
  | .access (.read _ _) :: _ => none
  | .engine :: _ => if s.busy ∧ s.stage ≠ 0 then some (.stage s.stage) else none
  | .reset :: _ => none
  | [] => if s.busy ∧ s.stage ≠ 0 then some (.stage s.stage) else none

end Sys2Proof.Machine
end

