-- ==== Sys2Proof/Machine/Step.lean ====
section
/-! DEFINITION. One step of the block: the next input, or the engine's turn when none is listed. -/

namespace Sys2Proof.Machine

/-- One step. -/
def step (s : State) : Host.Outcome State Fault Refusal :=
  match s.inputs with
  | [] => engineStep s
  | .engine :: rest => engineStep { s with inputs := rest }
  | .reset :: rest => .next { s with inputs := rest }.onReset
  | .access a :: rest => accessStep a { s with inputs := rest }

/-- The state `s` with a table row's word where the step takes its next instruction: a 32-bit word as the host's next write
to CMD, a one-byte stage code in the sequencer of a busy engine whose turn is next. -/
def State.withFetchWord (s : State) (nbits w : Nat) : State :=
  if nbits = 32 then { s with inputs := .access (.write 0 4 (BitVec.ofNat 32 w)) :: s.inputs }
  else { s with busy := true, stage := BitVec.ofNat 3 w, inputs := .engine :: s.inputs }

end Sys2Proof.Machine
end

