-- ==== Sys2Proof/Safety.lean ====
section
/-! DEFINITION. What counts as a legal state of the block, and the words the claims are stated in. -/

namespace Sys2Proof.Machine

/-! Legal states. -/

/-- Whether an offset belongs to an element some window has (10_state.md R41). -/
def elementOffset (cfg : Config) (a : Nat) : Bool :=
  match windowAt a with
  | some w => decide (a % 0x10000 / 4 < w.count cfg)
  | none => false

/-- The legal states: what every run from reset keeps. -/
structure State.Inv (s : State) : Prop where
  /-- memory has its canonical form -/
  memory : Memory.wf s.mem
  /-- memory lists bytes of elements only (R41) -/
  places : ∀ p ∈ s.mem, elementOffset s.cfg p.1 = true
  /-- stage code 7 never occurs (R31) -/
  stageCode : s.stage.toNat ≤ 6
  /-- `STAGE` is 0 whenever `BUSY = 0` (R31) -/
  idleStage : s.busy = false → s.stage = 0
  /-- `BUSY` and `DONE` never hold together (R26) -/
  handshake : ¬(s.busy = true ∧ s.done = true)
  /-- `INSUFF` always comes with `DONE` (60_exceptions.md R215) -/
  insuffDone : s.insuff = true → s.done = true
  /-- an accepted analysis fits the memories (45_host_commands.md R192) -/
  capacity : s.busy = true → countOfWord s.nl ≤ s.cfg.nMax ∧ countOfWord s.ml ≤ s.cfg.segMax
  /-- stages run only with enough data (R48) -/
  sufficient : s.stage ≠ 0 → N_MIN ≤ countOfWord s.nl

/-- Every element below `Nl` of a window was written. -/
def State.filled (s : State) (w : Window) : Prop := ∀ k : Nat, k < countOfWord s.nl → s.written w k = true

/-- What each stage has left for those after it (70_reset_and_hazards.md R235, 43_timing_tracker.md R152). -/
structure State.Ready (s : State) : Prop where
  input : 2 ≤ s.stage.toNat → s.filled .inI ∧ s.filled .inQ
  phase : 2 ≤ s.stage.toNat → s.filled .phase
  diff : 3 ≤ s.stage.toNat → s.filled .diff
  filt : 4 ≤ s.stage.toNat → s.filled .filt
  instant : 5 ≤ s.stage.toNat → 50 ≤ countOfWord s.t0 ∧ countOfWord s.t0 ≤ 74

/-- The table of 70_reset_and_hazards.md R230: every register it gives a value, and no element written. -/
structure State.AtReset (s : State) : Prop where
  status : s.statusWord = 0
  busy : s.busy = false
  stage : s.stage = 0
  params : s.n = 0 ∧ s.maxlen = 0 ∧ s.irqen = 0
  results : s.t0 = 0 ∧ s.nsym = 0 ∧ ∀ d, s.runLen.get d = 0 ∧ s.runStart.get d = 0 ∧ s.segLen.get d = 0
  latched : s.nl = 0 ∧ s.ml = 0
  memories : ∀ w k, s.written w k = false
  irq : s.irq = false

/-! Accesses. -/

/-- A host read of the word at `off` is answered with `v` and changes nothing but the bus port. -/
def State.reads (s : State) (off : Nat) (v : Word) : Prop :=
  ∀ rest, step { s with inputs := .access (.read (BitVec.ofNat 20 off) 4) :: rest } =
    .next { s with inputs := rest, rdata := some v }

/-- A host write of `v` at `off` leaves the state `t`. -/
def State.writes (s : State) (off : Nat) (v : Word) (t : State) : Prop :=
  ∀ rest, step { s with inputs := .access (.write (BitVec.ofNat 20 off) 4 v) :: rest } = .next { t with inputs := rest }

/-- Every byte outside elements `lo` to `hi - 1` of window `w` is in `t` what it is in `s`. -/
def sameBytesBut (w : Window) (lo hi : Nat) (s t : State) : Prop :=
  ∀ a : Nat, ¬(w.addr lo ≤ a ∧ a < w.addr hi) → t.byteAt a = s.byteAt a

/-- Every byte is in `t` what it is in `s`. -/
def sameBytes (s t : State) : Prop := ∀ a, t.byteAt a = s.byteAt a

/-! The filtered phase and the gate, as the rules of 43_timing_tracker.md write them. -/

/-- `FILT[x]` for an index `x >= 0`. -/
def State.filtValue (s : State) (x : Int) : Int := intOfWord (s.elem .filt x.toNat)

/-- `disc(x)` (R150). -/
def State.discAt (s : State) (x : Int) : Int := (slice s.cfg.quadT (s.filtValue x)).2

/-- `dib(x)` (R150). -/
def State.dibAt (s : State) (x : Int) : Dibit := (slice s.cfg.quadT (s.filtValue x)).1

/-- `cost(c, dir, K)` (R151). -/
def State.costAt (s : State) (c : Int) (dir : Dir) (terms : List Nat) : Int :=
  (terms.map (fun k : Nat => s.discAt (c + dirSign dir * (25 * k)))).sum

/-- `valid(x)` (R150). -/
def State.validAt (s : State) (x : Int) : Prop := 50 ≤ x ∧ x ≤ (countOfWord s.nl : Int) - 51

/-- The direction of R154. -/
def directionOf (t : Int) : Dir := if t ≥ 325 then .backward else .forward

/-- `k` is a term of the step at instant `t` (R155, R156): it reads valid indices for every candidate. -/
def State.termAt (s : State) (t : Int) (k : Nat) : Prop :=
  k < 10 ∧ s.validAt (t + dirSign (directionOf t) * (25 * k)) ∧ s.validAt (t + 1 + dirSign (directionOf t) * (25 * k)) ∧
    (51 ≤ t → s.validAt (t - 1 + dirSign (directionOf t) * (25 * k)))

/-- The gate of R157 at instant `t` with term set `terms` chooses instant `c` by move `m`. -/
def State.gateChooses (s : State) (t : Int) (terms : List Nat) (c : Int) (m : Move) : Prop :=
  let c0 := s.costAt t (directionOf t) terms
  let cp := s.costAt (t + 1) (directionOf t) terms
  let cm := s.costAt (t - 1) (directionOf t) terms
  let early := 51 ≤ t ∧ cm < c0 ∧ cm < cp
  let late := cp < c0 ∧ (t ≤ 50 ∨ cp < cm)
  (early ∧ c = t - 1 ∧ m = .early) ∨ (¬early ∧ late ∧ c = t + 1 ∧ m = .late) ∨ (¬early ∧ ¬late ∧ c = t ∧ m = .centre)

/-- A list is the term set of R156 at instant `t`: exactly its terms, in rising order. -/
def State.isTermSet (s : State) (t : Int) (terms : List Nat) : Prop :=
  terms.Pairwise (· < ·) ∧ ∀ k, k ∈ terms ↔ s.termAt t k

/-! The dibit stream. -/

/-- The instant of entry `n` of `DIBIT` (30_encoding.md R86). -/
def State.instantOf (s : State) (n : Nat) : Nat := (s.elem .dibit n).toNat / 256

/-- The dibit of entry `n` of `DIBIT` (R86). -/
def State.dibitOf (s : State) (n : Nat) : Nat := (s.elem .dibit n).toNat % 4

/-- Entries `a` to `a + len - 1` of the stream lie in it and all have dibit `d`. -/
def State.stretch (s : State) (d : Dibit) (a len : Nat) : Prop :=
  a + len ≤ countOfWord s.nsym ∧ ∀ i : Nat, a ≤ i → i < a + len → s.dibitOf i = d.val

/-! The segments. -/

/-- The element at which dibit `d`'s segment starts (44_segment_extractor.md R181). -/
def segStart (lens : PerDibit Word) (d : Dibit) : Nat :=
  match d with
  | 0 => 0
  | 1 => countOfWord lens.d0
  | 2 => countOfWord lens.d0 + countOfWord lens.d1
  | 3 => countOfWord lens.d0 + countOfWord lens.d1 + countOfWord lens.d2

/-- The sum of the four segment lengths. -/
def segTotal (lens : PerDibit Word) : Nat :=
  countOfWord lens.d0 + countOfWord lens.d1 + countOfWord lens.d2 + countOfWord lens.d3

/-- `lo` of R180: the span start clipped to the input. -/
def State.clippedStart (s : State) (d : Dibit) : Int := max (intOfWord (s.runStart.get d)) 0

/-- `hi` of R180: the span end clipped to the input. -/
def State.clippedEnd (s : State) (d : Dibit) : Int :=
  min (intOfWord (s.runStart.get d) + 25 * countOfWord (s.runLen.get d)) (countOfWord s.nl)

/-! Whole analyses. -/

/-- The state with one host write of ANALYZE and nothing else to come. -/
def State.withAnalyze (s : State) : State := { s with inputs := [.access (.write 0 4 1)] }

/-- Two states with the same inputs of an analysis: the four constants 45_host_commands.md R201 names, `N`, `MAXLEN` and the
samples below `N`. -/
structure SameAnalysis (s s' : State) : Prop where
  kernel : s'.cfg.kernel = s.cfg.kernel
  gain : s'.cfg.gain = s.cfg.gain
  quadT : s'.cfg.quadT = s.cfg.quadT
  sampleBits : s'.cfg.sampleBits = s.cfg.sampleBits
  n : s'.n = s.n
  maxlen : s'.maxlen = s.maxlen
  samples : ∀ k : Nat, k < countOfWord s.n → s'.sample .inI k = s.sample .inI k ∧ s'.sample .inQ k = s.sample .inQ k

/-- Two states with the same results of an analysis of `n` samples: the result registers and the elements an analysis
writes. -/
structure SameResults (n : Nat) (t t' : State) : Prop where
  t0 : t'.t0 = t.t0
  nsym : t'.nsym = t.nsym
  runs : t'.runLen = t.runLen ∧ t'.runStart = t.runStart
  segLen : t'.segLen = t.segLen
  sequences : ∀ k : Nat, k < n → t'.stored .phase k = t.stored .phase k ∧ t'.stored .diff k = t.stored .diff k ∧
    t'.stored .filt k = t.stored .filt k
  dibits : ∀ k : Nat, k < countOfWord t.nsym → t'.stored .dibit k = t.stored .dibit k
  segments : ∀ k : Nat, k < segTotal t.segLen → t'.stored .segI k = t.stored .segI k ∧ t'.stored .segQ k = t.stored .segQ k

end Sys2Proof.Machine
end

