-- ==== Sys2Proof/Certificates/Slice0/Obligations.lean ====
section
/-! DEFINITION. The statements about the block, for the provers. Each docstring names the rule of spec/ it formalises. -/

open Sys2Proof Sys2Proof.Machine

/-! Reset and configuration. -/

/-- 70_reset_and_hazards.md R230: the state after reset. That no input is listed is the model's choice (log 16). -/
def Obligations.ResetStateFollowsTable : Prop :=
  State.reset.AtReset ∧ State.reset.inputs = []

/-- R230: the reset input, at any time, even in the middle of an analysis. That the inputs still to come are kept is the
model's choice (log 8, 21). -/
def Obligations.ResetInputGivesResetState : Prop :=
  ∀ (s : State) (rest : List Input), s.inputs = .reset :: rest →
    ∃ t, step s = .next t ∧ t.AtReset ∧ t.cfg = s.cfg ∧ t.inputs = rest

/-- 00_scope.md R7: a configuration with 101 taps and an aligned base is built if it meets every constraint of R7, and
refused otherwise. -/
def Obligations.ConfigurationIsChecked : Prop :=
  ∀ raw : RawConfig, raw.kernel.length = 101 → raw.mmioBase % 1048576 = 0 →
    let meets := raw.gain ≠ 0 ∧ 0 < raw.quadT ∧ 2 ≤ raw.sampleBits ∧ raw.sampleBits ≤ 24 ∧ 359 ≤ raw.nMax ∧
      raw.nMax ≤ 16384 ∧ raw.segMax ≤ 16384 ∧
      131072 * (raw.kernel.map Int.natAbs).sum < 2147483648 * raw.gain.natAbs
    (meets → ∃ t, bootWith raw = .next t ∧ t.cfg.toRawConfig = raw ∧ t.AtReset) ∧
      (¬meets → bootWith raw = .refused .badConfig)

/-- 10_state.md R46: no step changes the constants. -/
def Obligations.ConfigurationNeverChanges : Prop :=
  ∀ s t : State, step s = .next t → t.cfg = s.cfg

/-! The bus port. -/

/-- 20_memory.md R60: the byte addresses that select the block, and the offset it decodes. That the base stands outside the
port is the model's choice (log 14). -/
def Obligations.WindowSelectsOffset : Prop :=
  ∀ (c : RawConfig) (a : Nat),
    (c.mmioBase ≤ a ∧ a < c.mmioBase + 0x100000 → ∃ off, c.offsetOf a = some off ∧ c.mmioBase + off.toNat = a) ∧
      (¬(c.mmioBase ≤ a ∧ a < c.mmioBase + 0x100000) → c.offsetOf a = none)

/-- R61: a 32-bit access at a multiple of 4 is accepted; every other access is refused and has no step. -/
def Obligations.OnlyAlignedWordsAccepted : Prop :=
  ∀ (s : State) (off : BitVec 20) (bytes : Nat) (v : Word) (rest : List Input),
    let rd := step { s with inputs := .access (.read off bytes) :: rest }
    let wr := step { s with inputs := .access (.write off bytes v) :: rest }
    (bytes = 4 ∧ off.toNat % 4 = 0 → (∃ t, rd = .next t) ∧ ∃ t, wr = .next t) ∧
      (¬(bytes = 4 ∧ off.toNat % 4 = 0) → rd = .refused .badAccess ∧ wr = .refused .badAccess)

/-- R64: a read changes nothing (the bus port's read data and the inputs still to come are the model's own, log 8 and 11),
and a second read of the same offset gives the same word. -/
def Obligations.ReadsHaveNoSideEffect : Prop :=
  ∀ (s : State) (off : BitVec 20) (rest : List Input), off.toNat % 4 = 0 →
    s.inputs = .access (.read off 4) :: .access (.read off 4) :: rest →
    ∃ v t, step s = .next t ∧ t = { s with inputs := .access (.read off 4) :: rest, rdata := some v } ∧
      step t = .next { s with inputs := rest, rdata := some v }

/-- R67 and 10_state.md R23: reads while the engine is busy. That an input element nothing has written reads as its free
value while busy too is the model's reading of R68 and 70_reset_and_hazards.md R232 (log 5). -/
def Obligations.BusyReadsHideResults : Prop :=
  ∀ s : State, s.busy = true →
    (s.reads 0x000 0 ∧ s.reads 0x004 s.statusWord ∧ s.reads 0x008 s.n ∧ s.reads 0x00C s.maxlen ∧
      s.reads 0x010 (s.irqen.setWidth 32)) ∧
    (∀ w : Window, w.isInput = true → ∀ k : Nat, k < s.cfg.nMax →
      (∀ v, s.stored w k = some v → s.reads (w.addr k) (BitVec.ofInt 32 (sext s.cfg.sampleBits v))) ∧
      (s.stored w k = none → s.reads (w.addr k) (drawWord s.epoch (w.addr k)))) ∧
    (s.reads 0x014 0 ∧ s.reads 0x018 0) ∧
    (∀ d : Dibit, s.reads (0x020 + 4 * d.val) 0 ∧ s.reads (0x030 + 4 * d.val) 0 ∧ s.reads (0x040 + 4 * d.val) 0) ∧
    ∀ w : Window, w.isInput = false → ∀ k : Nat, k < w.count s.cfg → s.reads (w.addr k) 0

/-- R68: reads while the engine is idle. An element nothing has written reads as its free value. -/
def Obligations.IdleReadsReturnStoredWords : Prop :=
  ∀ s : State, s.busy = false →
    (s.reads 0x000 0 ∧ s.reads 0x004 s.statusWord ∧ s.reads 0x008 s.n ∧ s.reads 0x00C s.maxlen ∧
      s.reads 0x010 (s.irqen.setWidth 32) ∧ s.reads 0x014 s.t0 ∧ s.reads 0x018 s.nsym) ∧
    (∀ d : Dibit, s.reads (0x020 + 4 * d.val) (s.runLen.get d) ∧ s.reads (0x030 + 4 * d.val) (s.runStart.get d) ∧
      s.reads (0x040 + 4 * d.val) (s.segLen.get d)) ∧
    (∀ (w : Window) (k : Nat) (v : Word), k < w.count s.cfg → s.stored w k = some v →
      s.reads (w.addr k) (if w.isInput then BitVec.ofInt 32 (sext s.cfg.sampleBits v) else v)) ∧
    ∀ (w : Window) (k : Nat), k < w.count s.cfg → s.stored w k = none → s.reads (w.addr k) (drawWord s.epoch (w.addr k))

/-- 30_encoding.md R89: the fields of the STATUS word, every other bit 0. -/
def Obligations.StatusWordLayout : Prop :=
  ∀ s : State,
    s.statusWord.getLsbD 0 = s.busy ∧ s.statusWord.getLsbD 1 = s.done ∧ s.statusWord.getLsbD 2 = s.insuff ∧
    s.statusWord.getLsbD 3 = s.cmderr ∧ s.statusWord.getLsbD 4 = s.parerr ∧ s.statusWord.getLsbD 5 = s.werr ∧
    s.statusWord.extractLsb' 6 2 = 0 ∧ s.statusWord.extractLsb' 8 3 = s.stage ∧ s.statusWord.extractLsb' 11 21 = 0

/-- 10_state.md R40, R41: reserved offsets read 0 and a write to one changes nothing; so do window offsets at or beyond the
element count. -/
def Obligations.ReservedOffsetsReadZero : Prop :=
  ∀ (s : State) (off : Nat) (v : Word), off < 0x100000 → off % 4 = 0 →
    (off = 0x01C ∨ (0x050 ≤ off ∧ off ≤ 0xFFFC) ∨ 0x90000 ≤ off ∨
      ∃ (w : Window) (k : Nat), w.count s.cfg ≤ k ∧ k < 16384 ∧ off = w.addr k) →
    s.reads off 0 ∧ s.writes off v s

/-- 20_memory.md R65: writes while idle: to CMD, to the registers, to the input memories, and anywhere else. -/
def Obligations.IdleWritesTakeEffect : Prop :=
  ∀ (s : State) (v : Word), s.busy = false →
    (∀ rest, step { s with inputs := .access (.write 0 4 v) :: rest } = exec (decodeCmd v) { s with inputs := rest }) ∧
    s.writes 0x008 v { s with n := v } ∧ s.writes 0x00C v { s with maxlen := v } ∧
    s.writes 0x010 v { s with irqen := v.extractLsb' 0 2 } ∧
    (∀ w : Window, w.isInput = true → ∀ k : Nat, k < s.cfg.nMax →
      ∃ t, s.writes (w.addr k) v t ∧ t = { s with mem := t.mem } ∧ t.written w k = true ∧
        t.stored w k = some (BitVec.ofNat 32 (v.toNat % 2 ^ s.cfg.sampleBits)) ∧ sameBytesBut w k (k + 1) s t) ∧
    ∀ off : Nat, off < 0x100000 → off % 4 = 0 → off ∉ [0x000, 0x008, 0x00C, 0x010] →
      (∀ (w : Window) (k : Nat), w.isInput = true → k < s.cfg.nMax → off ≠ w.addr k) → s.writes off v s

/-- R66: writes while busy: to the inputs of the analysis, to CMD, to IRQEN, and anywhere else. -/
def Obligations.BusyWritesSetWerr : Prop :=
  ∀ (s : State) (v : Word), s.busy = true →
    s.writes 0x008 v { s with werr := true } ∧ s.writes 0x00C v { s with werr := true } ∧
    (∀ w : Window, w.isInput = true → ∀ k : Nat, k < s.cfg.nMax → s.writes (w.addr k) v { s with werr := true }) ∧
    s.writes 0x000 v (if v = 0 then s else { s with cmderr := true }) ∧
    s.writes 0x010 v { s with irqen := v.extractLsb' 0 2 } ∧
    ∀ off : Nat, off < 0x100000 → off % 4 = 0 → off ∉ [0x000, 0x008, 0x00C, 0x010] →
      (∀ (w : Window) (k : Nat), w.isInput = true → k < s.cfg.nMax → off ≠ w.addr k) → s.writes off v s

/-- 30_encoding.md R84: a word written to an input element reads back as its low `SAMPLE_BITS` bits sign-extended, and that is
the value the engine reads. -/
def Obligations.SampleReadsBackSignExtended : Prop :=
  ∀ (s : State) (w : Window) (k : Nat) (v : Word), s.busy = false → w.isInput = true → k < s.cfg.nMax →
    ∃ t, s.writes (w.addr k) v t ∧ t.reads (w.addr k) ((v.setWidth s.cfg.sampleBits).signExtend 32) ∧
      t.sample w k = some (v.setWidth s.cfg.sampleBits).toInt

/-- 20_memory.md R62: the bytes of a stored element, the low byte at the lowest offset; every other byte is left alone, the
word reads back, and memory keeps its canonical form. Memory as bytes is the model's choice (log 17). -/
def Obligations.ElementsAreLittleEndian : Prop :=
  ∀ (s : State) (w : Window) (k : Nat) (v : Word),
    (∀ i : Nat, i < 4 → (s.setElem w k v).byteAt (w.addr k + i) = some (v.extractLsb' (8 * i) 8)) ∧
      sameBytesBut w k (k + 1) s (s.setElem w k v) ∧ (s.setElem w k v).stored w k = some v ∧
      (Memory.wf s.mem → Memory.wf (s.setElem w k v).mem)

/-! Commands. -/

/-- 45_host_commands.md R190: NOP changes nothing, busy or not. -/
def Obligations.NopChangesNothing : Prop :=
  ∀ s : State, exec .nop s = .next s ∧ s.writes 0x000 0x00000000 s

/-- R191: acceptance of ANALYZE. -/
def Obligations.AnalyzeIsAccepted : Prop :=
  ∀ s : State, s.busy = false → countOfWord s.n ≤ s.cfg.nMax → countOfWord s.maxlen ≤ s.cfg.segMax →
    exec .analyze s = .next { s with
      nl := s.n, ml := s.maxlen, done := false, insuff := false, t0 := 0, nsym := 0
      runLen := ⟨0, 0, 0, 0⟩, runStart := ⟨0, 0, 0, 0⟩, segLen := ⟨0, 0, 0, 0⟩, busy := true }

/-- R192: ANALYZE beyond capacity sets PARERR and nothing else. -/
def Obligations.AnalyzeBeyondCapacityRefused : Prop :=
  ∀ s : State, s.busy = false → s.cfg.nMax < countOfWord s.n ∨ s.cfg.segMax < countOfWord s.maxlen →
    exec .analyze s = .next { s with parerr := true }

/-- R198: ANALYZE or ACK while busy sets CMDERR and nothing else. -/
def Obligations.CommandWhileBusyRefused : Prop :=
  ∀ s : State, s.busy = true →
    exec .analyze s = .next { s with cmderr := true } ∧ exec .ack s = .next { s with cmderr := true }

/-- R196, and the interrupt it deasserts (60_exceptions.md R214). -/
def Obligations.AckClearsReportedBits : Prop :=
  ∀ s : State, s.busy = false →
    ∃ t, exec .ack s = .next t ∧ t.irq = false ∧
      t = { s with done := false, insuff := false, cmderr := false, parerr := false, werr := false }

/-- 60_exceptions.md R215: the interrupt output, its two ways of being cleared, and its value at reset. -/
def Obligations.InterruptFollowsStatus : Prop :=
  (∀ s : State, (s.irq = true ↔ (s.done = true ∧ s.irqen.getLsbD 0 = true) ∨
      ((s.cmderr = true ∨ s.parerr = true ∨ s.werr = true) ∧ s.irqen.getLsbD 1 = true)) ∧
    (s.busy = false → ∃ t, exec .ack s = .next t ∧ t.irq = false) ∧ (∃ t, s.writes 0x010 0 t ∧ t.irq = false) ∧
    (s.Inv → s.insuff = true → s.done = true)) ∧
    State.reset.irq = false

/-- R197: every reserved word, written to CMD, sets CMDERR and changes nothing else, busy or not; so does every reserved
instruction. -/
def Obligations.ReservedWordsSetCmdErr : Prop :=
  ∀ s : State,
    (∀ w : Word, w ≠ 0x0 → w ≠ 0x1 → w ≠ 0x2 → s.writes 0x000 w { s with cmderr := true }) ∧
    (∀ i ∈ [Instr.reservedOp3, .reservedOp4, .reservedOp5, .reservedOp6, .reservedOp7, .reservedOp8, .reservedOp9,
        .reservedOpA, .reservedOpB, .reservedOpC, .reservedOpD, .reservedOpE, .reservedOpF],
      exec i s = .next { s with cmderr := true }) ∧
    ∀ mbz op, exec (.reservedMbz mbz op) s = .next { s with cmderr := true }

/-- 10_state.md R28: the error bits are sticky, and each is set by its own event only. -/
def Obligations.ErrorBitsAreSticky : Prop :=
  ∀ s t : State, step s = .next t → (∀ rest, s.inputs ≠ .reset :: rest) →
    let cmd := fun w : Word => ∃ rest, s.inputs = .access (.write 0 4 w) :: rest
    (¬(cmd 2 ∧ s.busy = false) →
      (s.cmderr = true → t.cmderr = true) ∧ (s.parerr = true → t.parerr = true) ∧ (s.werr = true → t.werr = true)) ∧
    (s.cmderr = false → t.cmderr = true →
      (∃ w, cmd w ∧ w ≠ 0 ∧ w ≠ 1 ∧ w ≠ 2) ∨ (s.busy = true ∧ (cmd 1 ∨ cmd 2))) ∧
    (s.parerr = false → t.parerr = true →
      cmd 1 ∧ s.busy = false ∧ (s.cfg.nMax < countOfWord s.n ∨ s.cfg.segMax < countOfWord s.maxlen)) ∧
    (s.werr = false → t.werr = true →
      s.busy = true ∧ ∃ off w rest, s.inputs = .access (.write off 4 w) :: rest ∧
        (off = 0x008 ∨ off = 0x00C ∨
          ∃ (win : Window) (k : Nat), win.isInput = true ∧ k < s.cfg.nMax ∧ off.toNat = win.addr k))

/-! The engine. -/

/-- The step runs the instruction it fetches: a command word as the host's next write to CMD (10_state.md R23, 30_encoding.md
R81) runs on the state without that input; a stage code in a busy engine runs on the state without the turn's input, and the
sequencer then advances (45_host_commands.md R194). That inputs are listed, that one turn runs a whole stage, and how a word
comes to be fetched are the model's choices (log 8, 9, 16). -/
def Obligations.StepRunsFetchedInstruction : Prop :=
  ∀ (s : State) (c : Code) (i : Instr), s.fetched = some c → decode c = .ok i →
    step s =
      match c with
      | .cmd _ => exec i { s with inputs := s.inputs.tail }
      | .stage _ => andThen (exec i { s with inputs := s.inputs.tail }) fun t => .next t.advance

/-- 45_host_commands.md R193: ANALYZE with fewer than 359 samples completes with INSUFF, its results 0, no memory written.
The two steps are the model's choice (log 9). -/
def Obligations.InsufficientDataCompletes : Prop :=
  ∀ s : State, s.Inv → s.busy = false → countOfWord s.n < 359 → countOfWord s.maxlen ≤ s.cfg.segMax →
    Host.Core.run Sys2Proof.core 2 s.withAnalyze = .next { s with
      inputs := [], nl := s.n, ml := s.maxlen, busy := false, done := true, insuff := true, t0 := 0, nsym := 0
      runLen := ⟨0, 0, 0, 0⟩, runStart := ⟨0, 0, 0, 0⟩, segLen := ⟨0, 0, 0, 0⟩ }

/-- 70_reset_and_hazards.md R234: ANALYZE over at least 359 samples, one of them unwritten, comes to the model's fault; over
fewer it comes to completion with INSUFF whatever was written, memory unchanged. -/
def Obligations.UnwrittenInputFaults : Prop :=
  ∀ s : State, s.Inv → s.busy = false → countOfWord s.n ≤ s.cfg.nMax → countOfWord s.maxlen ≤ s.cfg.segMax →
    (359 ≤ countOfWord s.n → (∃ k : Nat, k < countOfWord s.n ∧ (s.written .inI k = false ∨ s.written .inQ k = false)) →
      ∃ n : Nat, Host.Core.run Sys2Proof.core n s.withAnalyze = .fault .unwrittenInput) ∧
    (countOfWord s.n < 359 → ∃ n t, Host.Core.run Sys2Proof.core n s.withAnalyze = .next t ∧ t.inputs = [] ∧
      t.insuff = true ∧ t.done = true ∧ t.busy = false ∧ t.mem = s.mem)

/-- R194, R195, 10_state.md R48: what a turn of the busy engine does to the sequencer and the handshake, and what it leaves
alone. One turn for each stage, the first from acceptance, is the model's choice (log 9, 10). -/
def Obligations.StagesRunInOrder : Prop :=
  ∀ s t : State, s.Inv → s.busy = true → engineStep s = .next t →
    (s.stage = 0 → countOfWord s.nl < 359 → t = { s with busy := false, done := true, insuff := true, stage := 0 }) ∧
    (s.stage = 0 → 359 ≤ countOfWord s.nl → t = { s with stage := 1 }) ∧
    (1 ≤ s.stage.toNat → s.stage.toNat ≤ 5 →
      t.stage.toNat = s.stage.toNat + 1 ∧ t.busy = true ∧ t.done = s.done ∧ t.insuff = s.insuff) ∧
    (s.stage.toNat = 6 → t.stage = 0 ∧ t.busy = false ∧ t.done = true ∧ t.insuff = s.insuff) ∧
    (t.cmderr = s.cmderr ∧ t.parerr = s.parerr ∧ t.werr = s.werr ∧ t.n = s.n ∧ t.maxlen = s.maxlen ∧
      t.irqen = s.irqen ∧ t.nl = s.nl ∧ t.ml = s.ml ∧ t.inputs = s.inputs ∧ t.rdata = s.rdata ∧ t.epoch = s.epoch)

/-- 60_exceptions.md R211, R223: no host access disturbs a running analysis: it can change the two error bits, the interrupt
enables and the bus port only. -/
def Obligations.AccessesNeverDisturbAnalysis : Prop :=
  ∀ (s t : State) (a : Access) (rest : List Input), s.busy = true → s.inputs = .access a :: rest → step s = .next t →
    t = { s with inputs := rest, rdata := t.rdata, irqen := t.irqen, cmderr := t.cmderr, werr := t.werr } ∧
      (s.cmderr = true → t.cmderr = true) ∧ (s.werr = true → t.werr = true)

/-- 20_memory.md R66, R73: while an analysis runs and goes on running, nothing but a reset changes its inputs. -/
def Obligations.RunningInputsAreFrozen : Prop :=
  ∀ s t : State, step s = .next t → s.busy = true → (∀ rest, s.inputs ≠ .reset :: rest) →
    t.n = s.n ∧ t.maxlen = s.maxlen ∧ t.nl = s.nl ∧ t.ml = s.ml ∧
      ∀ w : Window, w.isInput = true → ∀ k : Nat, k < s.cfg.nMax → t.stored w k = s.stored w k

/-- 45_host_commands.md R196, 70_reset_and_hazards.md R237, R238: while the engine is idle nothing but an accepted ANALYZE or a
reset changes a result register, and nothing but a reset changes a result element, even an accepted ANALYZE. -/
def Obligations.ResultsStayWhileIdle : Prop :=
  ∀ s t : State, step s = .next t → s.busy = false → (∀ rest, s.inputs ≠ .reset :: rest) →
    (t.busy = false → t.t0 = s.t0 ∧ t.nsym = s.nsym ∧ t.runLen = s.runLen ∧ t.runStart = s.runStart ∧
      t.segLen = s.segLen) ∧
    ∀ w : Window, w.isInput = false → ∀ k : Nat, k < w.count s.cfg → t.stored w k = s.stored w k

/-! Phase estimator. -/

/-- 40_phase_estimator.md R100 to R103: the quadrant table, the eight rotations and the combination. -/
def Obligations.CordicFollowsRotations : Prop :=
  ∀ iv qv : Int, ∃ x y z : Nat → Int, ∃ off sgn : Int,
    (0 ≤ iv ∧ 0 ≤ qv → x 0 = iv ∧ y 0 = qv ∧ off = 0 ∧ sgn = 1) ∧
    (iv < 0 ∧ 0 ≤ qv → x 0 = -iv ∧ y 0 = qv ∧ off = 131072 ∧ sgn = -1) ∧
    (iv < 0 ∧ qv < 0 → x 0 = -iv ∧ y 0 = -qv ∧ off = -131072 ∧ sgn = 1) ∧
    (0 ≤ iv ∧ qv < 0 → x 0 = iv ∧ y 0 = -qv ∧ off = 0 ∧ sgn = -1) ∧
    z 0 = 0 ∧
    (∀ k : Nat, k < 8 →
      let a := [32768, 19344, 10220, 5188, 2604, 1303, 651, 325].getD k 0
      (0 < y k → x (k + 1) = x k + y k / 2 ^ k ∧ y (k + 1) = y k - x k / 2 ^ k ∧ z (k + 1) = z k + a) ∧
      (y k < 0 → x (k + 1) = x k - y k / 2 ^ k ∧ y (k + 1) = y k + x k / 2 ^ k ∧ z (k + 1) = z k - a) ∧
      (y k = 0 → x (k + 1) = x k ∧ y (k + 1) = y k ∧ z (k + 1) = z k)) ∧
    cordic iv qv = off + sgn * z 8

/-- R105, R106: the exact cases, the range of `z` and the range of the phase. -/
def Obligations.CordicExactCasesAndRange : Prop :=
  cordic 0 0 = 0 ∧ cordic 0 1 = 72403 ∧
  (∀ a : Int, 0 < a → cordic a 0 = 0 ∧ cordic (-a) 0 = 131072 ∧ cordic a a = 32768 ∧ cordic (-a) a = 98304 ∧
    cordic (-a) (-a) = -98304 ∧ cordic a (-a) = -32768) ∧
  ∀ iv qv : Int,
    (qv ≠ 0 → -6867 ≤ (cordicRegs iv qv).z ∧ (cordicRegs iv qv).z ≤ 72403) ∧ (qv = 0 → (cordicRegs iv qv).z = 0) ∧
      -137939 ≤ cordic iv qv ∧ cordic iv qv ≤ 137939

/-- R104: stage PHASE completes over written inputs, with every element's phase and the frame; an input sample that was not
written is the model's fault. -/
def Obligations.PhaseStageComputesEverySample : Prop :=
  ∀ s : State, countOfWord s.nl ≤ s.cfg.nMax →
    (s.filled .inI → s.filled .inQ →
      ∃ t, exec .phase s = .next t ∧ t = { s with mem := t.mem, work := t.work } ∧
        sameBytesBut .phase 0 (countOfWord s.nl) s t ∧
        ∀ i : Nat, i < countOfWord s.nl → ∃ iv qv, s.sample .inI i = some iv ∧ s.sample .inQ i = some qv ∧
          t.stored .phase i = some (wordOfInt (cordic iv qv))) ∧
    ∀ k : Nat, k < countOfWord s.nl → s.written .inI k = false ∨ s.written .inQ k = false →
      exec .phase s = .fault .unwrittenInput

/-! Differential filter. -/

/-- 41_differential_filter.md R120, R121: stage DIFF. -/
def Obligations.DiffStageWrapsLaggedDifference : Prop :=
  ∀ s : State, countOfWord s.nl ≤ s.cfg.nMax →
    ∃ t, exec .diff s = .next t ∧ t = { s with mem := t.mem, work := t.work } ∧
      sameBytesBut .diff 0 (countOfWord s.nl) s t ∧
      ∀ i : Nat, i < countOfWord s.nl → t.stored .diff i = some (wordOfInt (
        let d := intOfWord (s.elem .phase (i - 3)) - intOfWord (s.elem .phase i)
        if i < 3 then 0 else if d > 131072 then d - 262144 else if d < -131072 then d + 262144 else d))

/-- R126: after stages PHASE and DIFF every difference lies within half a turn. -/
def Obligations.DifferencesStayWithinHalfTurn : Prop :=
  ∀ s t : State, countOfWord s.nl ≤ s.cfg.nMax → andThen (exec .phase s) (exec .diff) = .next t →
    ∀ i : Nat, i < countOfWord s.nl →
      -131072 ≤ intOfWord (t.elem .diff i) ∧ intOfWord (t.elem .diff i) ≤ 131072

/-- R122, R123: stage FILTER, 0 outside the valid range. -/
def Obligations.FilterStageIsMatchedFilter : Prop :=
  ∀ s : State, countOfWord s.nl ≤ s.cfg.nMax →
    ∃ t, exec .filter s = .next t ∧ t = { s with mem := t.mem, work := t.work } ∧
      sameBytesBut .filt 0 (countOfWord s.nl) s t ∧
      ∀ i : Nat, i < countOfWord s.nl → t.stored .filt i = some (wordOfInt (
        if 50 ≤ i ∧ i + 50 < countOfWord s.nl then
          Int.tdiv ((List.range 101).map
            (fun j => intOfWord (s.elem .diff (i + j - 50)) * s.cfg.kernel.getD j 0)).sum s.cfg.gain
        else 0))

/-- R127: with differences within half a turn, every filtered value keeps its bound, which fits 32 bits. -/
def Obligations.FilteredPhaseFitsWord : Prop :=
  ∀ s t : State, countOfWord s.nl ≤ s.cfg.nMax → exec .filter s = .next t →
    (∀ i : Nat, i < countOfWord s.nl → -131072 ≤ intOfWord (s.elem .diff i) ∧ intOfWord (s.elem .diff i) ≤ 131072) →
    ∀ i : Nat, 50 ≤ i → i + 50 < countOfWord s.nl →
      (intOfWord (t.elem .filt i)).natAbs ≤ 131072 * (s.cfg.kernel.map Int.natAbs).sum / s.cfg.gain.natAbs ∧
        131072 * (s.cfg.kernel.map Int.natAbs).sum / s.cfg.gain.natAbs < 2147483648

/-! Slicer. -/

/-- 42_dibit_slicer.md R143, R144 and the sign of the discriminant (R141). -/
def Obligations.SliceBoundaries : Prop :=
  ∀ T v : Int, 0 < T →
    0 ≤ (slice T v).2 ∧
    (-3 * T ≤ v → v < 3 * T → (slice T v).2 ≤ T / 2 ∧ ∃ m : Int, |v - m * T| = (slice T v).2 ∧
      ∀ m' : Int, (slice T v).2 ≤ |v - m' * T|) ∧
    (3 * T ≤ v → (slice T v).2 = v - 3 * T) ∧ (v < -3 * T → (slice T v).2 = -3 * T - v) ∧
    (2 * T ≤ v → (slice T v).1 = 1) ∧ (0 ≤ v → v < 2 * T → (slice T v).1 = 0) ∧
    (-2 * T ≤ v → v < 0 → (slice T v).1 = 2) ∧ (v < -2 * T → (slice T v).1 = 3)

/-! Tracker. -/

/-- 43_timing_tracker.md R152: stage ACQUIRE finds the first offset of least cost, in every state. -/
def Obligations.AcquireFindsFirstMinimum : Prop :=
  ∀ s : State, ∃ t, exec .acquire s = .next t ∧ t = { s with t0 := t.t0, work := t.work } ∧
    ∃ o : Nat, o < 25 ∧ countOfWord t.t0 = 50 + o ∧
      ∀ o' : Nat, o' < 25 →
        s.costAt (50 + (o : Int)) .forward (List.range 10) ≤ s.costAt (50 + (o' : Int)) .forward (List.range 10) ∧
        (o' < o → s.costAt (50 + (o : Int)) .forward (List.range 10) < s.costAt (50 + (o' : Int)) .forward (List.range 10))

/-- R154 to R157: the gate at a legal instant: direction, term set, choice, and the frame. -/
def Obligations.SelectFollowsGate : Prop :=
  ∀ (s : State) (t : Int), countOfWord s.nl ≤ s.cfg.nMax → 50 ≤ t → t ≤ (countOfWord s.nl : Int) - 52 →
    ∃ u, exec (.select t) s = .next u ∧ u = { s with work := u.work } ∧
      u.work = { s.work with
        dir := directionOf t, terms := u.work.terms, c0 := u.work.c0, cm := u.work.cm, cp := u.work.cp
        c := u.work.c, move := u.work.move } ∧
      s.isTermSet t u.work.terms ∧ s.gateChooses t u.work.terms u.work.c u.work.move ∧
      u.work.c0 = s.costAt t (directionOf t) u.work.terms ∧ u.work.cp = s.costAt (t + 1) (directionOf t) u.work.terms ∧
      (51 ≤ t → u.work.cm = s.costAt (t - 1) (directionOf t) u.work.terms)

/-- R165: the term set SELECT takes at a legal instant: it always holds 0; backward it is all ten, read from index 99 on;
forward it is an initial segment, read up to the last valid index. -/
def Obligations.TermSetsAreInitialSegments : Prop :=
  ∀ (s : State) (t : Int), countOfWord s.nl ≤ s.cfg.nMax → 50 ≤ t → t ≤ (countOfWord s.nl : Int) - 52 →
    ∃ u, exec (.select t) s = .next u ∧ 0 ∈ u.work.terms ∧ (u.work.dir = .backward ↔ 325 ≤ t) ∧
      (u.work.dir = .backward → u.work.terms = List.range 10 ∧ ∀ k ∈ u.work.terms, 99 ≤ t - 1 - 25 * (k : Int)) ∧
      (u.work.dir = .forward →
        u.work.terms = List.range ((min 9 (((countOfWord s.nl : Int) - 52 - t) / 25)).toNat + 1) ∧
          ∀ k ∈ u.work.terms, t + 1 + 25 * (k : Int) ≤ (countOfWord s.nl : Int) - 51)

/-- R158, R159: the emission of one dibit, and the advance, which EMIT includes (log 13). It also leaves the slicer's results
in the model's own latches (log 12). -/
def Obligations.EmitWritesDibitWord : Prop :=
  ∀ (s : State) (c : Int) (m : Move), 0 ≤ c → c < s.cfg.nMax → countOfWord s.nsym < 16384 →
    ∃ t, exec (.emit c m) s = .next t ∧ t = { s with mem := t.mem, nsym := t.nsym, work := t.work } ∧
      sameBytesBut .dibit (countOfWord s.nsym) (countOfWord s.nsym + 1) s t ∧
      (∃ w, t.stored .dibit (countOfWord s.nsym) = some w ∧
        (w.toNat : Int) = c * 256 + (match m with | .centre => 0 | .early => 1 | .late => 2) * 4 + (s.dibAt c).val) ∧
      countOfWord t.nsym = countOfWord s.nsym + 1 ∧
      t.work = { s.work with dibitOut := s.dibAt c, discOut := s.discAt c, t := c + 25 }

/-- R161 to R163: run update, close and flush. -/
def Obligations.RunTrackingRules : Prop :=
  ∀ s : State,
    let longer := countOfWord (s.runLen.get s.work.curD) < s.work.curLen
    let closed : State := { s with
      runLen := s.runLen.set s.work.curD (BitVec.ofNat 32 s.work.curLen)
      runStart := s.runStart.set s.work.curD (BitVec.ofInt 32 s.work.curStart) }
    (longer → exec .runClose s = .next closed) ∧ (¬longer → exec .runClose s = .next s) ∧
    (s.work.curValid = true → exec .runFlush s = exec .runClose s) ∧
    (s.work.curValid = false → exec .runFlush s = .next s) ∧
    ∀ (d : Dibit) (c : Int),
      (s.work.curValid = false → exec (.runUpdate d c) s =
        .next { s with work := { s.work with curValid := true, curD := d, curLen := 1, curStart := c - 12 } }) ∧
      (s.work.curValid = true → d = s.work.curD → exec (.runUpdate d c) s =
        .next { s with work := { s.work with curLen := s.work.curLen + 1 } }) ∧
      (s.work.curValid = true → d ≠ s.work.curD → ∃ u, exec .runClose s = .next u ∧ exec (.runUpdate d c) s =
        .next { u with work := { s.work with curD := d, curLen := 1, curStart := c - 12 } })

/-- R166: the instant sequence of stage TRACK and the number of its steps, with the stage's frame. -/
def Obligations.TrackInstantSequence : Prop :=
  ∀ s : State, 359 ≤ countOfWord s.nl → countOfWord s.nl ≤ s.cfg.nMax → 50 ≤ countOfWord s.t0 → countOfWord s.t0 ≤ 74 →
    ∃ t, exec .track s = .next t ∧
      t = { s with mem := t.mem, nsym := t.nsym, runLen := t.runLen, runStart := t.runStart, work := t.work } ∧
      sameBytesBut .dibit 0 (countOfWord t.nsym) s t ∧
      (∀ n : Nat, n < countOfWord t.nsym → t.written .dibit n = true ∧ 50 ≤ t.instantOf n ∧
        t.instantOf n + 51 ≤ countOfWord s.nl) ∧
      (∀ n, n + 1 < countOfWord t.nsym → t.instantOf n + 24 ≤ t.instantOf (n + 1) ∧
        t.instantOf (n + 1) ≤ t.instantOf n + 26) ∧
      (countOfWord s.t0 ≤ t.instantOf 0 + 1 ∧ t.instantOf 0 ≤ countOfWord s.t0 + 1) ∧
      (countOfWord s.nl - 52 - countOfWord s.t0) / 26 + 1 ≤ countOfWord t.nsym ∧
      countOfWord t.nsym ≤ (countOfWord s.nl - 52 - countOfWord s.t0) / 24 + 1 ∧ countOfWord t.nsym ≤ 679

/-- R153: stage TRACK is its loop, from any run registers: from `T0`, while the instant is at most `Nl - 52`, each step's gate
(R154 to R157) decides its entry of the dibit stream (R158), its dibit updates the runs (R161), and the next instant is the
chosen one plus 25 (R159); after the last step the open run is flushed (R163). `runs n` holds the runs before step `n`. -/
def Obligations.TrackFollowsLoop : Prop :=
  ∀ s : State, 359 ≤ countOfWord s.nl → countOfWord s.nl ≤ s.cfg.nMax → 50 ≤ countOfWord s.t0 → countOfWord s.t0 ≤ 74 →
    ∃ t u, exec .track s = .next t ∧
      ∃ (ts cs : Nat → Int) (ms : Nat → Move) (ks : Nat → List Nat) (runs : Nat → State),
        ts 0 = countOfWord s.t0 ∧ runs 0 = { s with work := { s.work with curValid := false } } ∧
        (∀ n : Nat, n < countOfWord t.nsym → ts n ≤ (countOfWord s.nl : Int) - 52 ∧ s.isTermSet (ts n) (ks n) ∧
          s.gateChooses (ts n) (ks n) (cs n) (ms n) ∧ ts (n + 1) = cs n + 25 ∧
          t.stored .dibit n = some (dibitWord (cs n) (ms n) (s.dibAt (cs n))) ∧
          exec (.runUpdate (s.dibAt (cs n)) (cs n)) (runs n) = .next (runs (n + 1))) ∧
        (countOfWord s.nl : Int) - 52 < ts (countOfWord t.nsym) ∧
        exec .runFlush (runs (countOfWord t.nsym)) = .next u ∧ t.runLen = u.runLen ∧ t.runStart = u.runStart

/-- R167: after stage TRACK from cleared run registers, `RUN_LEN[d]` is the length of the longest stretch of dibit `d` in the
stream, `RUN_START[d]` the first instant of the earliest such stretch minus 12, 0 where there is none. -/
def Obligations.TrackRecordsLongestRuns : Prop :=
  ∀ s : State, 359 ≤ countOfWord s.nl → countOfWord s.nl ≤ s.cfg.nMax → 50 ≤ countOfWord s.t0 → countOfWord s.t0 ≤ 74 →
    s.runLen = ⟨0, 0, 0, 0⟩ → s.runStart = ⟨0, 0, 0, 0⟩ →
    ∃ t, exec .track s = .next t ∧ ∀ d,
      countOfWord (t.runLen.get d) ≤ countOfWord t.nsym ∧
      (∀ a len : Nat, t.stretch d a len → len ≤ countOfWord (t.runLen.get d)) ∧
      (t.runLen.get d = 0 → t.runStart.get d = 0) ∧
      (t.runLen.get d ≠ 0 → ∃ a : Nat, t.stretch d a (countOfWord (t.runLen.get d)) ∧
        intOfWord (t.runStart.get d) = (t.instantOf a : Int) - 12 ∧
        ∀ a' : Nat, t.stretch d a' (countOfWord (t.runLen.get d)) → a ≤ a')

/-- R164, 20_memory.md R69: stages ACQUIRE and TRACK never depend on a filtered value outside the valid range: two states that
differ only in `FILT` outside `50..Nl-51` give the same registers and the same dibit stream. -/
def Obligations.TrackerReadsValidRangeOnly : Prop :=
  ∀ (s : State) (m : Memory), 359 ≤ countOfWord s.nl → countOfWord s.nl ≤ s.cfg.nMax →
    50 ≤ countOfWord s.t0 → countOfWord s.t0 ≤ 74 →
    let s' : State := { s with mem := m }
    (∀ k : Nat, 50 ≤ k → k + 51 ≤ countOfWord s.nl → s'.stored .filt k = s.stored .filt k) →
    (∃ t t', exec .acquire s = .next t ∧ exec .acquire s' = .next t' ∧ t' = { t with mem := m }) ∧
    ∃ t t', exec .track s = .next t ∧ exec .track s' = .next t' ∧ t' = { t with mem := t'.mem } ∧
      ∀ k : Nat, k < countOfWord t.nsym → t'.stored .dibit k = t.stored .dibit k

/-! Sub-operations without a stage. -/

/-- 40_phase_estimator.md R100 to R103, 41_differential_filter.md R120, 42_dibit_slicer.md R140, 43_timing_tracker.md R151:
CORDIC, WRAP and SLICE run in every state, COST wherever every index it reads has an element; each leaves its result in its
latch (the model's own, log 12) and changes working registers only. COST at an index without an element is the model's
fault (log 7). -/
def Obligations.FunctionRowsLatchResults : Prop :=
  ∀ s : State,
    (∀ iv qv : Int, ∃ t, exec (.cordic iv qv) s = .next t ∧ t = { s with work := t.work } ∧
      t.work = { s.work with x := t.work.x, y := t.work.y, z := t.work.z, k := t.work.k, phaseOut := cordic iv qv }) ∧
    (∀ d : Int, exec (.wrap d) s = .next { s with work := { s.work with
      wrapOut := if d > 131072 then d - 262144 else if d < -131072 then d + 262144 else d } }) ∧
    (∀ v : Int, exec (.slice v) s = .next { s with work := { s.work with
      dibitOut := (slice s.cfg.quadT v).1, discOut := (slice s.cfg.quadT v).2 } }) ∧
    ∀ (c : Int) (dir : Dir) (terms : List Nat),
      ((∀ k ∈ terms, 0 ≤ c + dirSign dir * (25 * k) ∧ c + dirSign dir * (25 * k) < s.cfg.nMax) →
        exec (.cost c dir terms) s = .next { s with work := { s.work with costOut := s.costAt c dir terms } }) ∧
      ((∃ k ∈ terms, ¬(0 ≤ c + dirSign dir * (25 * k) ∧ c + dirSign dir * (25 * k) < s.cfg.nMax)) →
        exec (.cost c dir terms) s = .fault .noElement)

/-! Segment extractor. -/

/-- 44_segment_extractor.md R180, R186: the copy of one dibit value's clipped span. -/
def Obligations.SegCopyCopiesClippedSpan : Prop :=
  ∀ (s : State) (d : Dibit), countOfWord s.nl ≤ s.cfg.nMax → countOfWord s.ml ≤ s.cfg.segMax → s.filled .inI →
    s.filled .inQ → s.work.used ≤ countOfWord s.ml →
    ∃ (t : State) (cnt : Nat), exec (.segCopy d) s = .next t ∧
      (cnt : Int) = min (max 0 (s.clippedEnd d - s.clippedStart d)) (countOfWord s.ml - s.work.used) ∧
      t = { s with mem := t.mem, segLen := s.segLen.set d (BitVec.ofNat 32 cnt)
                   work := { s.work with d := d, used := s.work.used + cnt } } ∧
      (∀ a : Nat, ¬(Window.segI.addr s.work.used ≤ a ∧ a < Window.segI.addr (s.work.used + cnt)) →
        ¬(Window.segQ.addr s.work.used ≤ a ∧ a < Window.segQ.addr (s.work.used + cnt)) → t.byteAt a = s.byteAt a) ∧
      ∀ m : Nat, m < cnt → ∃ iv qv, s.sample .inI ((s.clippedStart d).toNat + m) = some iv ∧
        s.sample .inQ ((s.clippedStart d).toNat + m) = some qv ∧
        t.stored .segI (s.work.used + m) = some (wordOfInt iv) ∧ t.stored .segQ (s.work.used + m) = some (wordOfInt qv)

/-- R180, R181: stage EXTRACT: the four segments one after another, each the head of its clipped span. -/
def Obligations.ExtractLaysOutSegments : Prop :=
  ∀ s : State, countOfWord s.nl ≤ s.cfg.nMax → countOfWord s.ml ≤ s.cfg.segMax → s.filled .inI → s.filled .inQ →
    ∃ t, exec .extract s = .next t ∧ t = { s with mem := t.mem, segLen := t.segLen, work := t.work } ∧
      (∀ a : Nat, ¬(Window.segI.addr 0 ≤ a ∧ a < Window.segI.addr (segTotal t.segLen)) →
        ¬(Window.segQ.addr 0 ≤ a ∧ a < Window.segQ.addr (segTotal t.segLen)) → t.byteAt a = s.byteAt a) ∧
      ∀ d, (countOfWord (t.segLen.get d) : Int) =
          min (max 0 (s.clippedEnd d - s.clippedStart d)) (countOfWord s.ml - segStart t.segLen d) ∧
        ∀ m : Nat, m < countOfWord (t.segLen.get d) → ∃ iv qv,
          s.sample .inI ((s.clippedStart d).toNat + m) = some iv ∧ s.sample .inQ ((s.clippedStart d).toNat + m) = some qv ∧
          t.stored .segI (segStart t.segLen d + m) = some (wordOfInt iv) ∧
          t.stored .segQ (segStart t.segLen d + m) = some (wordOfInt qv)

/-- R183: the capacity is kept. -/
def Obligations.ExtractKeepsCapacity : Prop :=
  ∀ s t : State, exec .extract s = .next t →
    segTotal t.segLen ≤ countOfWord s.ml ∧ t.work.used = segTotal t.segLen ∧
      ∀ d, countOfWord (t.segLen.get d) ≤ 25 * countOfWord (s.runLen.get d)

/-! Whole machine. -/

/-- The legal states hold at reset. -/
def Obligations.LegalAtReset : Prop := State.reset.Inv ∧ State.reset.Ready

/-- Every step from a legal state gives a legal state (10_state.md R26, R31, R48; 60_exceptions.md R215). -/
def Obligations.EveryStepKeepsLegality : Prop :=
  ∀ s t : State, s.Inv → s.Ready → step s = .next t → t.Inv ∧ t.Ready

/-- 60_exceptions.md R210, R212: from a legal state the only fault is an unwritten input in stage PHASE, and the only refusal a bad
access; in particular no engine access leaves its memory (20_memory.md R69). -/
def Obligations.OnlyDocumentedStops : Prop :=
  ∀ s : State, s.Inv → s.Ready →
    (∀ e, step s = .fault e → e = .unwrittenInput ∧ s.busy = true ∧ s.stage = 1 ∧
      ∃ k : Nat, k < countOfWord s.nl ∧ (s.written .inI k = false ∨ s.written .inQ k = false)) ∧
    ∀ r, step s = .refused r → r = .badAccess ∧ ∃ off bytes rest, ¬(bytes = 4 ∧ (off : BitVec 20).toNat % 4 = 0) ∧
      (s.inputs = .access (.read off bytes) :: rest ∨ ∃ w, s.inputs = .access (.write off bytes w) :: rest)

/-- 45_host_commands.md R194, R195: an accepted ANALYZE over written inputs completes in eight steps, with DONE and without
INSUFF; the inputs, the error bits and the enables are as before. The number of steps is the model's choice (log 9). -/
def Obligations.AnalysisCompletes : Prop :=
  ∀ s : State, s.Inv → s.busy = false → 359 ≤ countOfWord s.n → countOfWord s.n ≤ s.cfg.nMax →
    countOfWord s.maxlen ≤ s.cfg.segMax →
    (∀ k : Nat, k < countOfWord s.n → s.written .inI k = true ∧ s.written .inQ k = true) →
    ∃ t, Host.Core.run Sys2Proof.core 8 s.withAnalyze = .next t ∧ t.busy = false ∧ t.done = true ∧ t.insuff = false ∧
      t.stage = 0 ∧ 50 ≤ countOfWord t.t0 ∧ countOfWord t.t0 ≤ 74 ∧ segTotal t.segLen ≤ countOfWord s.maxlen ∧
      t.n = s.n ∧ t.maxlen = s.maxlen ∧ t.irqen = s.irqen ∧ t.cmderr = s.cmderr ∧ t.parerr = s.parerr ∧
      t.werr = s.werr ∧ ∀ k : Nat, k < s.cfg.nMax → t.stored .inI k = s.stored .inI k ∧ t.stored .inQ k = s.stored .inQ k

/-- R201: the results of a completed analysis are a function of `KERNEL`, `GAIN`, `QUAD_T`, `SAMPLE_BITS`, `N`, `MAXLEN` and the
samples below `N`: two states that agree on those, and on nothing else, come to completion with the same results. -/
def Obligations.AnalysisIsPureFunction : Prop :=
  ∀ s s' : State, s.Inv → s'.Inv → s.busy = false → s'.busy = false → SameAnalysis s s' →
    359 ≤ countOfWord s.n → countOfWord s.n ≤ s.cfg.nMax → countOfWord s.n ≤ s'.cfg.nMax →
    countOfWord s.maxlen ≤ s.cfg.segMax → countOfWord s.maxlen ≤ s'.cfg.segMax →
    (∀ k : Nat, k < countOfWord s.n → s.written .inI k = true ∧ s.written .inQ k = true) →
    ∃ n t t', Host.Core.run Sys2Proof.core n s.withAnalyze = .next t ∧
      Host.Core.run Sys2Proof.core n s'.withAnalyze = .next t' ∧ t.inputs = [] ∧ t'.inputs = [] ∧
      t.busy = false ∧ t'.busy = false ∧ SameResults (countOfWord s.n) t t'

/-! Encoding. -/

/-- 30_encoding.md R82, R91: every well-formed instruction with a code decodes back from it; exactly the ten internal rows
have none. -/
def Obligations.DecodeInvertsEncode : Prop :=
  ∀ i : Instr, i.wf = true →
    (∀ c, encode i = some c → decode c = .ok i) ∧
    (encode i = none ↔
      (∃ a b, i = .cordic a b) ∨ (∃ a, i = .wrap a) ∨ (∃ a, i = .slice a) ∨ (∃ a b c, i = .cost a b c) ∨
      (∃ a, i = .select a) ∨ (∃ a b, i = .emit a b) ∨ (∃ a b, i = .runUpdate a b) ∨ i = .runClose ∨ i = .runFlush ∨
      ∃ a, i = .segCopy a)

/-- R83: every 32-bit word decodes to exactly one instruction, well-formed, which encodes to that word; it is NOP, ANALYZE or
ACK only for the words 0, 1 and 2. -/
def Obligations.EveryCommandWordHasOneMeaning : Prop :=
  ∀ w : Word, ∃ i, decode (.cmd w) = .ok i ∧ i.wf = true ∧ encode i = some (.cmd w) ∧
    (i = .nop ↔ w = 0) ∧ (i = .analyze ↔ w = 1) ∧ (i = .ack ↔ w = 2)

/-- Sanity: words written out from R81, R82 and R91 decode to the instructions they stand for. -/
def Obligations.SampleWordsDecode : Prop :=
  decodeTableWord 32 0b00000000000000000000000000000000 = some .nop ∧
  decodeTableWord 32 0b00000000000000000000000000000001 = some .analyze ∧
  decodeTableWord 32 0b00000000000000000000000000000010 = some .ack ∧
  decodeTableWord 32 0b00000000000000000000000000001010 = some .reservedOpA ∧
  decodeTableWord 32 0b00000000000000000000000000010001 = some (.reservedMbz 1 1) ∧
  decodeTableWord 8 0b001 = some .phase ∧ decodeTableWord 8 0b110 = some .extract ∧
  decodeTableWord 8 0b000 = none ∧ decodeTableWord 8 0b111 = none
end

