-- ==== Sys2Proof/Laws/Config.lean ====
section
/-! SUPPORT. What 00_scope.md R7 gives of a built configuration, one lemma a constraint. -/

namespace Sys2Proof

/-- R7, all constraints at once. -/
theorem RawConfig.wf_iff (c : RawConfig) :
    c.wf = true ↔ c.kernel.length = KTAPS ∧ c.gain ≠ 0 ∧ 0 < c.quadT ∧ 2 ≤ c.sampleBits ∧ c.sampleBits ≤ 24 ∧
      N_MIN ≤ c.nMax ∧ c.nMax ≤ 16384 ∧ c.segMax ≤ 16384 ∧
      131072 * absSum c.kernel < 2147483648 * c.gain.natAbs ∧ c.mmioBase % 1048576 = 0 := by
  simp only [RawConfig.wf, Bool.and_eq_true, beq_iff_eq, bne_iff_ne, decide_eq_true_eq, and_assoc]

theorem Config.kernel_length (c : Config) : c.kernel.length = KTAPS := ((c.toRawConfig.wf_iff).mp c.ok).1

theorem Config.gain_ne (c : Config) : c.gain ≠ 0 := ((c.toRawConfig.wf_iff).mp c.ok).2.1

theorem Config.quadT_pos (c : Config) : 0 < c.quadT := ((c.toRawConfig.wf_iff).mp c.ok).2.2.1

theorem Config.sampleBits_ge (c : Config) : 2 ≤ c.sampleBits := ((c.toRawConfig.wf_iff).mp c.ok).2.2.2.1

theorem Config.sampleBits_le (c : Config) : c.sampleBits ≤ 24 := ((c.toRawConfig.wf_iff).mp c.ok).2.2.2.2.1

theorem Config.nMax_ge (c : Config) : N_MIN ≤ c.nMax := ((c.toRawConfig.wf_iff).mp c.ok).2.2.2.2.2.1

theorem Config.nMax_le (c : Config) : c.nMax ≤ 16384 := ((c.toRawConfig.wf_iff).mp c.ok).2.2.2.2.2.2.1

theorem Config.segMax_le (c : Config) : c.segMax ≤ 16384 := ((c.toRawConfig.wf_iff).mp c.ok).2.2.2.2.2.2.2.1

theorem Config.gain_bound (c : Config) : 131072 * absSum c.kernel < 2147483648 * c.gain.natAbs :=
  ((c.toRawConfig.wf_iff).mp c.ok).2.2.2.2.2.2.2.2.1

theorem absSum_eq_sum (l : List Int) : absSum l = (l.map Int.natAbs).sum := by
  induction l with
  | nil => rfl
  | cons v vs ih => simp [absSum, ih]

end Sys2Proof
end

