-- ==== Sys2Proof/Laws/Memory.lean ====
section
/-! SUPPORT. The byte memory and its words: a read after a write, what a write leaves alone, and the canonical form. -/

namespace Sys2Proof.Machine

/-! Bytes. -/

theorem memGet_memSet_same (m : Memory) (x : Nat) (v : Byte) : memGet (memSet m x v) x = some v := by
  induction m with
  | nil => simp [memSet, memGet]
  | cons p m ih =>
    obtain ⟨a, b⟩ := p
    simp only [memSet]
    split
    · simp [memGet]
    · split
      · simp [memGet]
      · have hne : ¬a = x := fun h => by omega
        simp [memGet, hne, ih]

theorem memGet_memSet_other (m : Memory) {x y : Nat} (v : Byte) (h : y ≠ x) : memGet (memSet m x v) y = memGet m y := by
  induction m with
  | nil => simp [memSet, memGet, Ne.symm h]
  | cons p m ih =>
    obtain ⟨a, b⟩ := p
    simp only [memSet]
    split
    · simp [memGet, Ne.symm h]
    · split
      · next hx => simp [memGet, Ne.symm h, ← hx]
      · by_cases ha : a = y
        · simp [memGet, ha]
        · simp [memGet, ha, ih]

/-- A write adds at most its own offset to the listed ones. -/
theorem mem_memSet {m : Memory} {x : Nat} {v : Byte} {p : Host.Cell} (h : p ∈ memSet m x v) : p.1 = x ∨ p ∈ m := by
  induction m with
  | nil => simp [memSet] at h; simp [h]
  | cons q m ih =>
    obtain ⟨a, b⟩ := q
    simp only [memSet] at h
    split at h
    · simp only [List.mem_cons] at h
      rcases h with h | h | h <;> simp [h]
    · split at h
      · simp only [List.mem_cons] at h
        rcases h with h | h <;> simp [h]
      · simp only [List.mem_cons] at h
        rcases h with h | h
        · simp [h]
        · rcases ih h with h | h <;> simp [h]

/-- A write keeps the canonical form. -/
theorem memSet_wf {m : Memory} (h : Memory.wf m) (x : Nat) (v : Byte) : Memory.wf (memSet m x v) := by
  induction m with
  | nil => simp [memSet, Memory.wf]
  | cons q m ih =>
    obtain ⟨a, b⟩ := q
    obtain ⟨hhead, htail⟩ := List.pairwise_cons.mp h
    simp only [memSet]
    split
    · next hx =>
      refine List.pairwise_cons.mpr ⟨fun p hp => ?_, h⟩
      rcases List.mem_cons.mp hp with rfl | hp
      · exact hx
      · exact Nat.lt_trans hx (hhead p hp)
    · split
      · next hx => exact List.pairwise_cons.mpr ⟨fun p hp => hx ▸ hhead p hp, htail⟩
      · refine List.pairwise_cons.mpr ⟨fun p hp => ?_, ih htail⟩
        rcases mem_memSet hp with h1 | hp
        · simp only [h1]; omega
        · exact hhead p hp

/-! Words. -/

theorem wordOfBytes_byteOfWord (w : Word) :
    wordOfBytes (byteOfWord w 0) (byteOfWord w 1) (byteOfWord w 2) (byteOfWord w 3) = w := by
  apply BitVec.eq_of_getLsbD_eq
  intro i hi
  simp only [wordOfBytes, byteOfWord, BitVec.getLsbD_append, BitVec.getLsbD_extractLsb']
  by_cases h0 : i < 8
  · simp [h0]
  · by_cases h1 : i - 8 < 8
    · simp [h0, h1]; congr 1; omega
    · by_cases h2 : i - 8 - 8 < 8
      · simp [h0, h1, h2]; congr 1; omega
      · have h3 : i - 8 - 8 - 8 < 8 := by omega
        simp [h0, h1, h2, h3]; congr 1; omega

/-- A word write leaves every byte outside its four alone. -/
theorem memGet_memSetWord_other (m : Memory) {a y : Nat} (w : Word) (h : y < a ∨ a + 4 ≤ y) :
    memGet (memSetWord m a w) y = memGet m y := by
  have h0 : y ≠ a := by omega
  have h1 : y ≠ a + 1 := by omega
  have h2 : y ≠ a + 2 := by omega
  have h3 : y ≠ a + 3 := by omega
  simp only [memSetWord, memGet_memSet_other _ _ h0, memGet_memSet_other _ _ h1, memGet_memSet_other _ _ h2,
    memGet_memSet_other _ _ h3]

/-- Byte `i` of a written word is at its offset plus `i`. -/
theorem memGet_memSetWord_byte (m : Memory) (a : Nat) (w : Word) :
    memGet (memSetWord m a w) a = some (byteOfWord w 0) ∧ memGet (memSetWord m a w) (a + 1) = some (byteOfWord w 1) ∧
      memGet (memSetWord m a w) (a + 2) = some (byteOfWord w 2) ∧
      memGet (memSetWord m a w) (a + 3) = some (byteOfWord w 3) := by
  refine ⟨?_, ?_, ?_, ?_⟩ <;> unfold memSetWord
  · rw [memGet_memSet_other _ _ (by omega), memGet_memSet_other _ _ (by omega), memGet_memSet_other _ _ (by omega),
      memGet_memSet_same]
  · rw [memGet_memSet_other _ _ (by omega), memGet_memSet_other _ _ (by omega), memGet_memSet_same]
  · rw [memGet_memSet_other _ _ (by omega), memGet_memSet_same]
  · rw [memGet_memSet_same]

theorem memGetWord_memSetWord_same (m : Memory) (a : Nat) (w : Word) : memGetWord (memSetWord m a w) a = some w := by
  obtain ⟨h0, h1, h2, h3⟩ := memGet_memSetWord_byte m a w
  simp only [memGetWord, h0, h1, h2, h3, wordOfBytes_byteOfWord]

/-- A word write leaves every word it does not overlap alone. -/
theorem memGetWord_memSetWord_other (m : Memory) {a b : Nat} (w : Word) (h : b + 4 ≤ a ∨ a + 4 ≤ b) :
    memGetWord (memSetWord m a w) b = memGetWord m b := by
  simp only [memGetWord]
  rw [memGet_memSetWord_other m w (by omega), memGet_memSetWord_other m w (by omega),
    memGet_memSetWord_other m w (by omega), memGet_memSetWord_other m w (by omega)]

theorem memSetWord_wf {m : Memory} (h : Memory.wf m) (a : Nat) (w : Word) : Memory.wf (memSetWord m a w) :=
  memSet_wf (memSet_wf (memSet_wf (memSet_wf h _ _) _ _) _ _) _ _

/-- A word write adds at most its own four offsets to the listed ones. -/
theorem mem_memSetWord {m : Memory} {a : Nat} {w : Word} {p : Host.Cell} (h : p ∈ memSetWord m a w) :
    (a ≤ p.1 ∧ p.1 < a + 4) ∨ p ∈ m := by
  rcases mem_memSet h with h | h
  · omega
  · rcases mem_memSet h with h | h
    · omega
    · rcases mem_memSet h with h | h
      · omega
      · rcases mem_memSet h with h | h
        · omega
        · exact .inr h

end Sys2Proof.Machine
end

