-- ==== Sys2Proof/Laws/State.lean ====
section
/-! SUPPORT. The fields of the state after each named update, one lemma a field, and the entries of a per-dibit bank. -/

namespace Sys2Proof.Machine

/-! A per-dibit bank. -/

@[simp] theorem PerDibit.get_set_same {α : Type} (p : PerDibit α) (d : Dibit) (v : α) : (p.set d v).get d = v := by
  fin_cases d <;> rfl

theorem PerDibit.get_set_other {α : Type} (p : PerDibit α) {d e : Dibit} (v : α) (h : e ≠ d) : (p.set d v).get e = p.get e := by
  fin_cases d <;> fin_cases e <;> first | rfl | exact absurd rfl h

theorem PerDibit.ext_get {α : Type} {p q : PerDibit α} (h : ∀ d, p.get d = q.get d) : p = q := by
  obtain ⟨a, b, c, d⟩ := p
  obtain ⟨a', b', c', d'⟩ := q
  have h0 := h 0
  have h1 := h 1
  have h2 := h 2
  have h3 := h 3
  simp only [PerDibit.get] at h0 h1 h2 h3
  simp [h0, h1, h2, h3]

@[simp] theorem zeroWords_get (d : Dibit) : zeroWords.get d = 0 := by
  fin_cases d <;> rfl

/-! The error bits (60_exceptions.md R211): each raise sets its own bit. -/

@[simp] theorem raise_cfg (s : State) (e : ErrorBit) : (s.raise e).cfg = s.cfg := by
  cases e <;> rfl
@[simp] theorem raise_busy (s : State) (e : ErrorBit) : (s.raise e).busy = s.busy := by
  cases e <;> rfl
@[simp] theorem raise_done (s : State) (e : ErrorBit) : (s.raise e).done = s.done := by
  cases e <;> rfl
@[simp] theorem raise_insuff (s : State) (e : ErrorBit) : (s.raise e).insuff = s.insuff := by
  cases e <;> rfl
@[simp] theorem raise_cmderr (s : State) (e : ErrorBit) : (s.raise e).cmderr = (s.cmderr || e == .cmderr) := by
  cases e <;> simp [State.raise]
@[simp] theorem raise_parerr (s : State) (e : ErrorBit) : (s.raise e).parerr = (s.parerr || e == .parerr) := by
  cases e <;> simp [State.raise]
@[simp] theorem raise_werr (s : State) (e : ErrorBit) : (s.raise e).werr = (s.werr || e == .werr) := by
  cases e <;> simp [State.raise]
@[simp] theorem raise_stage (s : State) (e : ErrorBit) : (s.raise e).stage = s.stage := by
  cases e <;> rfl
@[simp] theorem raise_n (s : State) (e : ErrorBit) : (s.raise e).n = s.n := by
  cases e <;> rfl
@[simp] theorem raise_maxlen (s : State) (e : ErrorBit) : (s.raise e).maxlen = s.maxlen := by
  cases e <;> rfl
@[simp] theorem raise_irqen (s : State) (e : ErrorBit) : (s.raise e).irqen = s.irqen := by
  cases e <;> rfl
@[simp] theorem raise_t0 (s : State) (e : ErrorBit) : (s.raise e).t0 = s.t0 := by
  cases e <;> rfl
@[simp] theorem raise_nsym (s : State) (e : ErrorBit) : (s.raise e).nsym = s.nsym := by
  cases e <;> rfl
@[simp] theorem raise_runLen (s : State) (e : ErrorBit) : (s.raise e).runLen = s.runLen := by
  cases e <;> rfl
@[simp] theorem raise_runStart (s : State) (e : ErrorBit) : (s.raise e).runStart = s.runStart := by
  cases e <;> rfl
@[simp] theorem raise_segLen (s : State) (e : ErrorBit) : (s.raise e).segLen = s.segLen := by
  cases e <;> rfl
@[simp] theorem raise_nl (s : State) (e : ErrorBit) : (s.raise e).nl = s.nl := by
  cases e <;> rfl
@[simp] theorem raise_ml (s : State) (e : ErrorBit) : (s.raise e).ml = s.ml := by
  cases e <;> rfl
@[simp] theorem raise_mem (s : State) (e : ErrorBit) : (s.raise e).mem = s.mem := by
  cases e <;> rfl
@[simp] theorem raise_work (s : State) (e : ErrorBit) : (s.raise e).work = s.work := by
  cases e <;> rfl
@[simp] theorem raise_inputs (s : State) (e : ErrorBit) : (s.raise e).inputs = s.inputs := by
  cases e <;> rfl
@[simp] theorem raise_rdata (s : State) (e : ErrorBit) : (s.raise e).rdata = s.rdata := by
  cases e <;> rfl
@[simp] theorem raise_epoch (s : State) (e : ErrorBit) : (s.raise e).epoch = s.epoch := by
  cases e <;> rfl
@[simp] theorem raise_ticks (s : State) (e : ErrorBit) : (s.raise e).ticks = s.ticks := by
  cases e <;> rfl

/-! `acknowledge`. -/

@[simp] theorem acknowledge_cfg (s : State) : (s.acknowledge).cfg = s.cfg := rfl
@[simp] theorem acknowledge_busy (s : State) : (s.acknowledge).busy = s.busy := rfl
@[simp] theorem acknowledge_done (s : State) : (s.acknowledge).done = false := rfl
@[simp] theorem acknowledge_insuff (s : State) : (s.acknowledge).insuff = false := rfl
@[simp] theorem acknowledge_cmderr (s : State) : (s.acknowledge).cmderr = false := rfl
@[simp] theorem acknowledge_parerr (s : State) : (s.acknowledge).parerr = false := rfl
@[simp] theorem acknowledge_werr (s : State) : (s.acknowledge).werr = false := rfl
@[simp] theorem acknowledge_stage (s : State) : (s.acknowledge).stage = s.stage := rfl
@[simp] theorem acknowledge_n (s : State) : (s.acknowledge).n = s.n := rfl
@[simp] theorem acknowledge_maxlen (s : State) : (s.acknowledge).maxlen = s.maxlen := rfl
@[simp] theorem acknowledge_irqen (s : State) : (s.acknowledge).irqen = s.irqen := rfl
@[simp] theorem acknowledge_t0 (s : State) : (s.acknowledge).t0 = s.t0 := rfl
@[simp] theorem acknowledge_nsym (s : State) : (s.acknowledge).nsym = s.nsym := rfl
@[simp] theorem acknowledge_runLen (s : State) : (s.acknowledge).runLen = s.runLen := rfl
@[simp] theorem acknowledge_runStart (s : State) : (s.acknowledge).runStart = s.runStart := rfl
@[simp] theorem acknowledge_segLen (s : State) : (s.acknowledge).segLen = s.segLen := rfl
@[simp] theorem acknowledge_nl (s : State) : (s.acknowledge).nl = s.nl := rfl
@[simp] theorem acknowledge_ml (s : State) : (s.acknowledge).ml = s.ml := rfl
@[simp] theorem acknowledge_mem (s : State) : (s.acknowledge).mem = s.mem := rfl
@[simp] theorem acknowledge_work (s : State) : (s.acknowledge).work = s.work := rfl
@[simp] theorem acknowledge_inputs (s : State) : (s.acknowledge).inputs = s.inputs := rfl
@[simp] theorem acknowledge_rdata (s : State) : (s.acknowledge).rdata = s.rdata := rfl
@[simp] theorem acknowledge_epoch (s : State) : (s.acknowledge).epoch = s.epoch := rfl
@[simp] theorem acknowledge_ticks (s : State) : (s.acknowledge).ticks = s.ticks := rfl

/-! `accept`. -/

@[simp] theorem accept_cfg (s : State) : (s.accept).cfg = s.cfg := rfl
@[simp] theorem accept_busy (s : State) : (s.accept).busy = true := rfl
@[simp] theorem accept_done (s : State) : (s.accept).done = false := rfl
@[simp] theorem accept_insuff (s : State) : (s.accept).insuff = false := rfl
@[simp] theorem accept_cmderr (s : State) : (s.accept).cmderr = s.cmderr := rfl
@[simp] theorem accept_parerr (s : State) : (s.accept).parerr = s.parerr := rfl
@[simp] theorem accept_werr (s : State) : (s.accept).werr = s.werr := rfl
@[simp] theorem accept_stage (s : State) : (s.accept).stage = s.stage := rfl
@[simp] theorem accept_n (s : State) : (s.accept).n = s.n := rfl
@[simp] theorem accept_maxlen (s : State) : (s.accept).maxlen = s.maxlen := rfl
@[simp] theorem accept_irqen (s : State) : (s.accept).irqen = s.irqen := rfl
@[simp] theorem accept_t0 (s : State) : (s.accept).t0 = 0 := rfl
@[simp] theorem accept_nsym (s : State) : (s.accept).nsym = 0 := rfl
@[simp] theorem accept_runLen (s : State) : (s.accept).runLen = zeroWords := rfl
@[simp] theorem accept_runStart (s : State) : (s.accept).runStart = zeroWords := rfl
@[simp] theorem accept_segLen (s : State) : (s.accept).segLen = zeroWords := rfl
@[simp] theorem accept_nl (s : State) : (s.accept).nl = s.n := rfl
@[simp] theorem accept_ml (s : State) : (s.accept).ml = s.maxlen := rfl
@[simp] theorem accept_mem (s : State) : (s.accept).mem = s.mem := rfl
@[simp] theorem accept_work (s : State) : (s.accept).work = s.work := rfl
@[simp] theorem accept_inputs (s : State) : (s.accept).inputs = s.inputs := rfl
@[simp] theorem accept_rdata (s : State) : (s.accept).rdata = s.rdata := rfl
@[simp] theorem accept_epoch (s : State) : (s.accept).epoch = s.epoch := rfl
@[simp] theorem accept_ticks (s : State) : (s.accept).ticks = s.ticks := rfl

/-! `complete`. -/

@[simp] theorem complete_cfg (s : State) : (s.complete).cfg = s.cfg := rfl
@[simp] theorem complete_busy (s : State) : (s.complete).busy = false := rfl
@[simp] theorem complete_done (s : State) : (s.complete).done = true := rfl
@[simp] theorem complete_insuff (s : State) : (s.complete).insuff = s.insuff := rfl
@[simp] theorem complete_cmderr (s : State) : (s.complete).cmderr = s.cmderr := rfl
@[simp] theorem complete_parerr (s : State) : (s.complete).parerr = s.parerr := rfl
@[simp] theorem complete_werr (s : State) : (s.complete).werr = s.werr := rfl
@[simp] theorem complete_stage (s : State) : (s.complete).stage = 0 := rfl
@[simp] theorem complete_n (s : State) : (s.complete).n = s.n := rfl
@[simp] theorem complete_maxlen (s : State) : (s.complete).maxlen = s.maxlen := rfl
@[simp] theorem complete_irqen (s : State) : (s.complete).irqen = s.irqen := rfl
@[simp] theorem complete_t0 (s : State) : (s.complete).t0 = s.t0 := rfl
@[simp] theorem complete_nsym (s : State) : (s.complete).nsym = s.nsym := rfl
@[simp] theorem complete_runLen (s : State) : (s.complete).runLen = s.runLen := rfl
@[simp] theorem complete_runStart (s : State) : (s.complete).runStart = s.runStart := rfl
@[simp] theorem complete_segLen (s : State) : (s.complete).segLen = s.segLen := rfl
@[simp] theorem complete_nl (s : State) : (s.complete).nl = s.nl := rfl
@[simp] theorem complete_ml (s : State) : (s.complete).ml = s.ml := rfl
@[simp] theorem complete_mem (s : State) : (s.complete).mem = s.mem := rfl
@[simp] theorem complete_work (s : State) : (s.complete).work = s.work := rfl
@[simp] theorem complete_inputs (s : State) : (s.complete).inputs = s.inputs := rfl
@[simp] theorem complete_rdata (s : State) : (s.complete).rdata = s.rdata := rfl
@[simp] theorem complete_epoch (s : State) : (s.complete).epoch = s.epoch := rfl
@[simp] theorem complete_ticks (s : State) : (s.complete).ticks = s.ticks := rfl

/-! `leaveStage`. -/

@[simp] theorem leaveStage_cfg (s : State) : (s.leaveStage).cfg = s.cfg := rfl
@[simp] theorem leaveStage_busy (s : State) : (s.leaveStage).busy = s.busy := rfl
@[simp] theorem leaveStage_done (s : State) : (s.leaveStage).done = s.done := rfl
@[simp] theorem leaveStage_insuff (s : State) : (s.leaveStage).insuff = s.insuff := rfl
@[simp] theorem leaveStage_cmderr (s : State) : (s.leaveStage).cmderr = s.cmderr := rfl
@[simp] theorem leaveStage_parerr (s : State) : (s.leaveStage).parerr = s.parerr := rfl
@[simp] theorem leaveStage_werr (s : State) : (s.leaveStage).werr = s.werr := rfl
@[simp] theorem leaveStage_stage (s : State) : (s.leaveStage).stage = s.stage := rfl
@[simp] theorem leaveStage_n (s : State) : (s.leaveStage).n = s.n := rfl
@[simp] theorem leaveStage_maxlen (s : State) : (s.leaveStage).maxlen = s.maxlen := rfl
@[simp] theorem leaveStage_irqen (s : State) : (s.leaveStage).irqen = s.irqen := rfl
@[simp] theorem leaveStage_t0 (s : State) : (s.leaveStage).t0 = s.t0 := rfl
@[simp] theorem leaveStage_nsym (s : State) : (s.leaveStage).nsym = s.nsym := rfl
@[simp] theorem leaveStage_runLen (s : State) : (s.leaveStage).runLen = s.runLen := rfl
@[simp] theorem leaveStage_runStart (s : State) : (s.leaveStage).runStart = s.runStart := rfl
@[simp] theorem leaveStage_segLen (s : State) : (s.leaveStage).segLen = s.segLen := rfl
@[simp] theorem leaveStage_nl (s : State) : (s.leaveStage).nl = s.nl := rfl
@[simp] theorem leaveStage_ml (s : State) : (s.leaveStage).ml = s.ml := rfl
@[simp] theorem leaveStage_mem (s : State) : (s.leaveStage).mem = s.mem := rfl
@[simp] theorem leaveStage_work (s : State) : (s.leaveStage).work = freeWork s.ticks := rfl
@[simp] theorem leaveStage_inputs (s : State) : (s.leaveStage).inputs = s.inputs := rfl
@[simp] theorem leaveStage_rdata (s : State) : (s.leaveStage).rdata = s.rdata := rfl
@[simp] theorem leaveStage_epoch (s : State) : (s.leaveStage).epoch = s.epoch := rfl
@[simp] theorem leaveStage_ticks (s : State) : (s.leaveStage).ticks = s.ticks + 1 := rfl

/-! `setElem`. -/

@[simp] theorem setElem_cfg (s : State) (w : Window) (k : Nat) (v : Word) : (s.setElem w k v).cfg = s.cfg := rfl
@[simp] theorem setElem_busy (s : State) (w : Window) (k : Nat) (v : Word) : (s.setElem w k v).busy = s.busy := rfl
@[simp] theorem setElem_done (s : State) (w : Window) (k : Nat) (v : Word) : (s.setElem w k v).done = s.done := rfl
@[simp] theorem setElem_insuff (s : State) (w : Window) (k : Nat) (v : Word) : (s.setElem w k v).insuff = s.insuff := rfl
@[simp] theorem setElem_cmderr (s : State) (w : Window) (k : Nat) (v : Word) : (s.setElem w k v).cmderr = s.cmderr := rfl
@[simp] theorem setElem_parerr (s : State) (w : Window) (k : Nat) (v : Word) : (s.setElem w k v).parerr = s.parerr := rfl
@[simp] theorem setElem_werr (s : State) (w : Window) (k : Nat) (v : Word) : (s.setElem w k v).werr = s.werr := rfl
@[simp] theorem setElem_stage (s : State) (w : Window) (k : Nat) (v : Word) : (s.setElem w k v).stage = s.stage := rfl
@[simp] theorem setElem_n (s : State) (w : Window) (k : Nat) (v : Word) : (s.setElem w k v).n = s.n := rfl
@[simp] theorem setElem_maxlen (s : State) (w : Window) (k : Nat) (v : Word) : (s.setElem w k v).maxlen = s.maxlen := rfl
@[simp] theorem setElem_irqen (s : State) (w : Window) (k : Nat) (v : Word) : (s.setElem w k v).irqen = s.irqen := rfl
@[simp] theorem setElem_t0 (s : State) (w : Window) (k : Nat) (v : Word) : (s.setElem w k v).t0 = s.t0 := rfl
@[simp] theorem setElem_nsym (s : State) (w : Window) (k : Nat) (v : Word) : (s.setElem w k v).nsym = s.nsym := rfl
@[simp] theorem setElem_runLen (s : State) (w : Window) (k : Nat) (v : Word) : (s.setElem w k v).runLen = s.runLen := rfl
@[simp] theorem setElem_runStart (s : State) (w : Window) (k : Nat) (v : Word) : (s.setElem w k v).runStart = s.runStart := rfl
@[simp] theorem setElem_segLen (s : State) (w : Window) (k : Nat) (v : Word) : (s.setElem w k v).segLen = s.segLen := rfl
@[simp] theorem setElem_nl (s : State) (w : Window) (k : Nat) (v : Word) : (s.setElem w k v).nl = s.nl := rfl
@[simp] theorem setElem_ml (s : State) (w : Window) (k : Nat) (v : Word) : (s.setElem w k v).ml = s.ml := rfl
@[simp] theorem setElem_mem (s : State) (w : Window) (k : Nat) (v : Word) : (s.setElem w k v).mem = memSetWord s.mem (w.addr k) v := rfl
@[simp] theorem setElem_work (s : State) (w : Window) (k : Nat) (v : Word) : (s.setElem w k v).work = s.work := rfl
@[simp] theorem setElem_inputs (s : State) (w : Window) (k : Nat) (v : Word) : (s.setElem w k v).inputs = s.inputs := rfl
@[simp] theorem setElem_rdata (s : State) (w : Window) (k : Nat) (v : Word) : (s.setElem w k v).rdata = s.rdata := rfl
@[simp] theorem setElem_epoch (s : State) (w : Window) (k : Nat) (v : Word) : (s.setElem w k v).epoch = s.epoch := rfl
@[simp] theorem setElem_ticks (s : State) (w : Window) (k : Nat) (v : Word) : (s.setElem w k v).ticks = s.ticks := rfl

/-! `onReset`. -/

@[simp] theorem onReset_cfg (s : State) : (s.onReset).cfg = s.cfg := rfl
@[simp] theorem onReset_busy (s : State) : (s.onReset).busy = false := rfl
@[simp] theorem onReset_done (s : State) : (s.onReset).done = false := rfl
@[simp] theorem onReset_insuff (s : State) : (s.onReset).insuff = false := rfl
@[simp] theorem onReset_cmderr (s : State) : (s.onReset).cmderr = false := rfl
@[simp] theorem onReset_parerr (s : State) : (s.onReset).parerr = false := rfl
@[simp] theorem onReset_werr (s : State) : (s.onReset).werr = false := rfl
@[simp] theorem onReset_stage (s : State) : (s.onReset).stage = 0 := rfl
@[simp] theorem onReset_n (s : State) : (s.onReset).n = 0 := rfl
@[simp] theorem onReset_maxlen (s : State) : (s.onReset).maxlen = 0 := rfl
@[simp] theorem onReset_irqen (s : State) : (s.onReset).irqen = 0 := rfl
@[simp] theorem onReset_t0 (s : State) : (s.onReset).t0 = 0 := rfl
@[simp] theorem onReset_nsym (s : State) : (s.onReset).nsym = 0 := rfl
@[simp] theorem onReset_runLen (s : State) : (s.onReset).runLen = zeroWords := rfl
@[simp] theorem onReset_runStart (s : State) : (s.onReset).runStart = zeroWords := rfl
@[simp] theorem onReset_segLen (s : State) : (s.onReset).segLen = zeroWords := rfl
@[simp] theorem onReset_nl (s : State) : (s.onReset).nl = 0 := rfl
@[simp] theorem onReset_ml (s : State) : (s.onReset).ml = 0 := rfl
@[simp] theorem onReset_mem (s : State) : (s.onReset).mem = [] := rfl
@[simp] theorem onReset_work (s : State) : (s.onReset).work = resetWork := rfl
@[simp] theorem onReset_inputs (s : State) : (s.onReset).inputs = s.inputs := rfl
@[simp] theorem onReset_rdata (s : State) : (s.onReset).rdata = none := rfl
@[simp] theorem onReset_epoch (s : State) : (s.onReset).epoch = s.epoch + 1 := rfl
@[simp] theorem onReset_ticks (s : State) : (s.onReset).ticks = s.ticks := rfl

/-! `runCordic`. -/

@[simp] theorem runCordic_cfg (s : State) (iv qv : Int) : (s.runCordic iv qv).cfg = s.cfg := by simp only [State.runCordic]
@[simp] theorem runCordic_busy (s : State) (iv qv : Int) : (s.runCordic iv qv).busy = s.busy := by simp only [State.runCordic]
@[simp] theorem runCordic_done (s : State) (iv qv : Int) : (s.runCordic iv qv).done = s.done := by simp only [State.runCordic]
@[simp] theorem runCordic_insuff (s : State) (iv qv : Int) : (s.runCordic iv qv).insuff = s.insuff := by simp only [State.runCordic]
@[simp] theorem runCordic_cmderr (s : State) (iv qv : Int) : (s.runCordic iv qv).cmderr = s.cmderr := by simp only [State.runCordic]
@[simp] theorem runCordic_parerr (s : State) (iv qv : Int) : (s.runCordic iv qv).parerr = s.parerr := by simp only [State.runCordic]
@[simp] theorem runCordic_werr (s : State) (iv qv : Int) : (s.runCordic iv qv).werr = s.werr := by simp only [State.runCordic]
@[simp] theorem runCordic_stage (s : State) (iv qv : Int) : (s.runCordic iv qv).stage = s.stage := by simp only [State.runCordic]
@[simp] theorem runCordic_n (s : State) (iv qv : Int) : (s.runCordic iv qv).n = s.n := by simp only [State.runCordic]
@[simp] theorem runCordic_maxlen (s : State) (iv qv : Int) : (s.runCordic iv qv).maxlen = s.maxlen := by simp only [State.runCordic]
@[simp] theorem runCordic_irqen (s : State) (iv qv : Int) : (s.runCordic iv qv).irqen = s.irqen := by simp only [State.runCordic]
@[simp] theorem runCordic_t0 (s : State) (iv qv : Int) : (s.runCordic iv qv).t0 = s.t0 := by simp only [State.runCordic]
@[simp] theorem runCordic_nsym (s : State) (iv qv : Int) : (s.runCordic iv qv).nsym = s.nsym := by simp only [State.runCordic]
@[simp] theorem runCordic_runLen (s : State) (iv qv : Int) : (s.runCordic iv qv).runLen = s.runLen := by simp only [State.runCordic]
@[simp] theorem runCordic_runStart (s : State) (iv qv : Int) : (s.runCordic iv qv).runStart = s.runStart := by simp only [State.runCordic]
@[simp] theorem runCordic_segLen (s : State) (iv qv : Int) : (s.runCordic iv qv).segLen = s.segLen := by simp only [State.runCordic]
@[simp] theorem runCordic_nl (s : State) (iv qv : Int) : (s.runCordic iv qv).nl = s.nl := by simp only [State.runCordic]
@[simp] theorem runCordic_ml (s : State) (iv qv : Int) : (s.runCordic iv qv).ml = s.ml := by simp only [State.runCordic]
@[simp] theorem runCordic_mem (s : State) (iv qv : Int) : (s.runCordic iv qv).mem = s.mem := by simp only [State.runCordic]
@[simp] theorem runCordic_inputs (s : State) (iv qv : Int) : (s.runCordic iv qv).inputs = s.inputs := by simp only [State.runCordic]
@[simp] theorem runCordic_rdata (s : State) (iv qv : Int) : (s.runCordic iv qv).rdata = s.rdata := by simp only [State.runCordic]
@[simp] theorem runCordic_epoch (s : State) (iv qv : Int) : (s.runCordic iv qv).epoch = s.epoch := by simp only [State.runCordic]
@[simp] theorem runCordic_ticks (s : State) (iv qv : Int) : (s.runCordic iv qv).ticks = s.ticks := by simp only [State.runCordic]

/-! `runWrap`. -/

@[simp] theorem runWrap_cfg (s : State) (d : Int) : (s.runWrap d).cfg = s.cfg := rfl
@[simp] theorem runWrap_busy (s : State) (d : Int) : (s.runWrap d).busy = s.busy := rfl
@[simp] theorem runWrap_done (s : State) (d : Int) : (s.runWrap d).done = s.done := rfl
@[simp] theorem runWrap_insuff (s : State) (d : Int) : (s.runWrap d).insuff = s.insuff := rfl
@[simp] theorem runWrap_cmderr (s : State) (d : Int) : (s.runWrap d).cmderr = s.cmderr := rfl
@[simp] theorem runWrap_parerr (s : State) (d : Int) : (s.runWrap d).parerr = s.parerr := rfl
@[simp] theorem runWrap_werr (s : State) (d : Int) : (s.runWrap d).werr = s.werr := rfl
@[simp] theorem runWrap_stage (s : State) (d : Int) : (s.runWrap d).stage = s.stage := rfl
@[simp] theorem runWrap_n (s : State) (d : Int) : (s.runWrap d).n = s.n := rfl
@[simp] theorem runWrap_maxlen (s : State) (d : Int) : (s.runWrap d).maxlen = s.maxlen := rfl
@[simp] theorem runWrap_irqen (s : State) (d : Int) : (s.runWrap d).irqen = s.irqen := rfl
@[simp] theorem runWrap_t0 (s : State) (d : Int) : (s.runWrap d).t0 = s.t0 := rfl
@[simp] theorem runWrap_nsym (s : State) (d : Int) : (s.runWrap d).nsym = s.nsym := rfl
@[simp] theorem runWrap_runLen (s : State) (d : Int) : (s.runWrap d).runLen = s.runLen := rfl
@[simp] theorem runWrap_runStart (s : State) (d : Int) : (s.runWrap d).runStart = s.runStart := rfl
@[simp] theorem runWrap_segLen (s : State) (d : Int) : (s.runWrap d).segLen = s.segLen := rfl
@[simp] theorem runWrap_nl (s : State) (d : Int) : (s.runWrap d).nl = s.nl := rfl
@[simp] theorem runWrap_ml (s : State) (d : Int) : (s.runWrap d).ml = s.ml := rfl
@[simp] theorem runWrap_mem (s : State) (d : Int) : (s.runWrap d).mem = s.mem := rfl
@[simp] theorem runWrap_work (s : State) (d : Int) : (s.runWrap d).work = { s.work with wrapOut := wrapPhase d } := rfl
@[simp] theorem runWrap_inputs (s : State) (d : Int) : (s.runWrap d).inputs = s.inputs := rfl
@[simp] theorem runWrap_rdata (s : State) (d : Int) : (s.runWrap d).rdata = s.rdata := rfl
@[simp] theorem runWrap_epoch (s : State) (d : Int) : (s.runWrap d).epoch = s.epoch := rfl
@[simp] theorem runWrap_ticks (s : State) (d : Int) : (s.runWrap d).ticks = s.ticks := rfl

/-! `runSlice`. -/

@[simp] theorem runSlice_cfg (s : State) (v : Int) : (s.runSlice v).cfg = s.cfg := rfl
@[simp] theorem runSlice_busy (s : State) (v : Int) : (s.runSlice v).busy = s.busy := rfl
@[simp] theorem runSlice_done (s : State) (v : Int) : (s.runSlice v).done = s.done := rfl
@[simp] theorem runSlice_insuff (s : State) (v : Int) : (s.runSlice v).insuff = s.insuff := rfl
@[simp] theorem runSlice_cmderr (s : State) (v : Int) : (s.runSlice v).cmderr = s.cmderr := rfl
@[simp] theorem runSlice_parerr (s : State) (v : Int) : (s.runSlice v).parerr = s.parerr := rfl
@[simp] theorem runSlice_werr (s : State) (v : Int) : (s.runSlice v).werr = s.werr := rfl
@[simp] theorem runSlice_stage (s : State) (v : Int) : (s.runSlice v).stage = s.stage := rfl
@[simp] theorem runSlice_n (s : State) (v : Int) : (s.runSlice v).n = s.n := rfl
@[simp] theorem runSlice_maxlen (s : State) (v : Int) : (s.runSlice v).maxlen = s.maxlen := rfl
@[simp] theorem runSlice_irqen (s : State) (v : Int) : (s.runSlice v).irqen = s.irqen := rfl
@[simp] theorem runSlice_t0 (s : State) (v : Int) : (s.runSlice v).t0 = s.t0 := rfl
@[simp] theorem runSlice_nsym (s : State) (v : Int) : (s.runSlice v).nsym = s.nsym := rfl
@[simp] theorem runSlice_runLen (s : State) (v : Int) : (s.runSlice v).runLen = s.runLen := rfl
@[simp] theorem runSlice_runStart (s : State) (v : Int) : (s.runSlice v).runStart = s.runStart := rfl
@[simp] theorem runSlice_segLen (s : State) (v : Int) : (s.runSlice v).segLen = s.segLen := rfl
@[simp] theorem runSlice_nl (s : State) (v : Int) : (s.runSlice v).nl = s.nl := rfl
@[simp] theorem runSlice_ml (s : State) (v : Int) : (s.runSlice v).ml = s.ml := rfl
@[simp] theorem runSlice_mem (s : State) (v : Int) : (s.runSlice v).mem = s.mem := rfl
@[simp] theorem runSlice_work (s : State) (v : Int) : (s.runSlice v).work = { s.work with dibitOut := (slice s.cfg.quadT v).1, discOut := (slice s.cfg.quadT v).2 } := rfl
@[simp] theorem runSlice_inputs (s : State) (v : Int) : (s.runSlice v).inputs = s.inputs := rfl
@[simp] theorem runSlice_rdata (s : State) (v : Int) : (s.runSlice v).rdata = s.rdata := rfl
@[simp] theorem runSlice_epoch (s : State) (v : Int) : (s.runSlice v).epoch = s.epoch := rfl
@[simp] theorem runSlice_ticks (s : State) (v : Int) : (s.runSlice v).ticks = s.ticks := rfl

/-! `openRun`. -/

@[simp] theorem openRun_cfg (s : State) (d : Dibit) (c : Int) : (s.openRun d c).cfg = s.cfg := rfl
@[simp] theorem openRun_busy (s : State) (d : Dibit) (c : Int) : (s.openRun d c).busy = s.busy := rfl
@[simp] theorem openRun_done (s : State) (d : Dibit) (c : Int) : (s.openRun d c).done = s.done := rfl
@[simp] theorem openRun_insuff (s : State) (d : Dibit) (c : Int) : (s.openRun d c).insuff = s.insuff := rfl
@[simp] theorem openRun_cmderr (s : State) (d : Dibit) (c : Int) : (s.openRun d c).cmderr = s.cmderr := rfl
@[simp] theorem openRun_parerr (s : State) (d : Dibit) (c : Int) : (s.openRun d c).parerr = s.parerr := rfl
@[simp] theorem openRun_werr (s : State) (d : Dibit) (c : Int) : (s.openRun d c).werr = s.werr := rfl
@[simp] theorem openRun_stage (s : State) (d : Dibit) (c : Int) : (s.openRun d c).stage = s.stage := rfl
@[simp] theorem openRun_n (s : State) (d : Dibit) (c : Int) : (s.openRun d c).n = s.n := rfl
@[simp] theorem openRun_maxlen (s : State) (d : Dibit) (c : Int) : (s.openRun d c).maxlen = s.maxlen := rfl
@[simp] theorem openRun_irqen (s : State) (d : Dibit) (c : Int) : (s.openRun d c).irqen = s.irqen := rfl
@[simp] theorem openRun_t0 (s : State) (d : Dibit) (c : Int) : (s.openRun d c).t0 = s.t0 := rfl
@[simp] theorem openRun_nsym (s : State) (d : Dibit) (c : Int) : (s.openRun d c).nsym = s.nsym := rfl
@[simp] theorem openRun_runLen (s : State) (d : Dibit) (c : Int) : (s.openRun d c).runLen = s.runLen := rfl
@[simp] theorem openRun_runStart (s : State) (d : Dibit) (c : Int) : (s.openRun d c).runStart = s.runStart := rfl
@[simp] theorem openRun_segLen (s : State) (d : Dibit) (c : Int) : (s.openRun d c).segLen = s.segLen := rfl
@[simp] theorem openRun_nl (s : State) (d : Dibit) (c : Int) : (s.openRun d c).nl = s.nl := rfl
@[simp] theorem openRun_ml (s : State) (d : Dibit) (c : Int) : (s.openRun d c).ml = s.ml := rfl
@[simp] theorem openRun_mem (s : State) (d : Dibit) (c : Int) : (s.openRun d c).mem = s.mem := rfl
@[simp] theorem openRun_work (s : State) (d : Dibit) (c : Int) : (s.openRun d c).work = { s.work with curD := d, curLen := 1, curStart := c - SEG_HALF } := rfl
@[simp] theorem openRun_inputs (s : State) (d : Dibit) (c : Int) : (s.openRun d c).inputs = s.inputs := rfl
@[simp] theorem openRun_rdata (s : State) (d : Dibit) (c : Int) : (s.openRun d c).rdata = s.rdata := rfl
@[simp] theorem openRun_epoch (s : State) (d : Dibit) (c : Int) : (s.openRun d c).epoch = s.epoch := rfl
@[simp] theorem openRun_ticks (s : State) (d : Dibit) (c : Int) : (s.openRun d c).ticks = s.ticks := rfl

end Sys2Proof.Machine
end

