-- ==== Sys2Proof/Laws/Elements.lean ====
section
/-! SUPPORT. The elements of the windows: they do not overlap, a stored element reads back, and a store leaves every other
element and byte alone. -/

namespace Sys2Proof.Machine

theorem Window.count_le (cfg : Config) (w : Window) : w.count cfg ≤ 16384 := by
  have h1 := cfg.nMax_le
  have h2 := cfg.segMax_le
  cases w <;> simp only [Window.count, DIBIT_MAX] <;> omega

theorem Window.count_input (cfg : Config) {w : Window} (h : w.isInput = true) : w.count cfg = cfg.nMax := by
  cases w <;> simp_all [Window.isInput, Window.count]

/-- The elements of the windows lie apart. -/
theorem Window.addr_apart {w w' : Window} {k k' : Nat} (hk : k < 16384) (hk' : k' < 16384) (h : w ≠ w' ∨ k ≠ k') :
    w.addr k + 4 ≤ w'.addr k' ∨ w'.addr k' + 4 ≤ w.addr k := by
  cases w <;> cases w' <;> simp only [Window.addr, Window.base] <;> first | omega | (simp at h; omega)

theorem Window.addr_bounds {w : Window} {k : Nat} (hk : k < 16384) : 0x10000 ≤ w.addr k ∧ w.addr k + 4 ≤ 0x90000 := by
  cases w <;> simp only [Window.addr, Window.base] <;> omega

/-- Element `k` of a window is in that window, at index `k`. -/
theorem windowAt_addr {w : Window} {k j : Nat} (hk : k < 16384) (hj : j < 4) :
    windowAt (w.addr k + j) = some w ∧ (w.addr k + j) % 0x10000 / 4 = k := by
  have hq : (w.addr k + j) / 0x10000 = w.base / 0x10000 ∧ (w.addr k + j) % 0x10000 = 4 * k + j := by
    cases w <;> simp only [Window.addr, Window.base] <;> omega
  refine ⟨?_, by omega⟩
  unfold windowAt
  rw [hq.1]
  cases w <;> rfl

/-! A stored element. -/

@[simp] theorem stored_setElem_same (s : State) (w : Window) (k : Nat) (v : Word) :
    (s.setElem w k v).stored w k = some v := memGetWord_memSetWord_same _ _ _

theorem stored_setElem_other (s : State) {w w' : Window} {k k' : Nat} (v : Word) (hk : k < 16384) (hk' : k' < 16384)
    (h : w' ≠ w ∨ k' ≠ k) : (s.setElem w k v).stored w' k' = s.stored w' k' :=
  memGetWord_memSetWord_other _ _ (Window.addr_apart hk' hk h)

theorem byteAt_setElem_other (s : State) {w : Window} {k a : Nat} (v : Word) (h : a < w.addr k ∨ w.addr k + 4 ≤ a) :
    (s.setElem w k v).byteAt a = s.byteAt a := memGet_memSetWord_other _ _ h

/-- A stored word is made of its four bytes. -/
theorem stored_eq_of_bytes {s t : State} {w : Window} {k : Nat}
    (h : ∀ a, w.addr k ≤ a → a < w.addr k + 4 → t.byteAt a = s.byteAt a) : t.stored w k = s.stored w k := by
  have h0 : memGet t.mem (w.addr k) = memGet s.mem (w.addr k) := h (w.addr k) (by omega) (by omega)
  have h1 : memGet t.mem (w.addr k + 1) = memGet s.mem (w.addr k + 1) := h (w.addr k + 1) (by omega) (by omega)
  have h2 : memGet t.mem (w.addr k + 2) = memGet s.mem (w.addr k + 2) := h (w.addr k + 2) (by omega) (by omega)
  have h3 : memGet t.mem (w.addr k + 3) = memGet s.mem (w.addr k + 3) := h (w.addr k + 3) (by omega) (by omega)
  simp only [State.stored, memGetWord, h0, h1, h2, h3]

theorem elem_of_stored {s : State} {w : Window} {k : Nat} {v : Word} (h : s.stored w k = some v) : s.elem w k = v := by
  simp [State.elem, h]

theorem written_iff {s : State} {w : Window} {k : Nat} : s.written w k = true ↔ ∃ v, s.stored w k = some v := by
  rw [State.written, Option.isSome_iff_exists]

theorem stored_none_iff {s : State} {w : Window} {k : Nat} : s.stored w k = none ↔ s.written w k = false := by
  rw [State.written, Option.isSome_eq_false_iff, Option.isNone_iff_eq_none]

/-! Engine accesses. -/

theorem readElem_inside {s : State} {w : Window} {k : Nat} (h : k < w.count s.cfg) : s.readElem w k = some (s.elem w k) := by
  simp [State.readElem, h]

theorem writeElem_inside {s : State} {w : Window} {k : Nat} (v : Word) (h : k < w.count s.cfg) :
    writeElem w k v s = .next (s.setElem w k v) := by
  simp [writeElem, h]

/-- Everything an engine write can do. -/
theorem writeElem_eq_next {s t : State} {w : Window} {k : Nat} {v : Word} :
    writeElem w k v s = .next t ↔ k < w.count s.cfg ∧ t = s.setElem w k v := by
  unfold writeElem
  split
  · next h => simp [h, eq_comm]
  · next h => simp [h]

/-- A written input sample is read. -/
theorem sample_of_written {s : State} {w : Window} {k : Nat} (hk : k < w.count s.cfg) (h : s.written w k = true) :
    ∃ v, s.sample w k = some v := by
  obtain ⟨v, hv⟩ := written_iff.mp h
  exact ⟨_, by simp [State.sample, hk, hv]; rfl⟩

/-- An input sample that is read is an element that was written. -/
theorem sample_eq_some {s : State} {w : Window} {k : Nat} {v : Int} (h : s.sample w k = some v) :
    k < w.count s.cfg ∧ s.written w k = true := by
  unfold State.sample at h
  split at h
  · next hk =>
    simp only [Option.map_eq_some_iff] at h
    obtain ⟨a, ha, _⟩ := h
    exact ⟨hk, written_iff.mpr ⟨a, ha⟩⟩
  · cases h

theorem sample_unwritten {s : State} {w : Window} {k : Nat} (h : s.written w k = false) : s.sample w k = none := by
  have := stored_none_iff.mpr h
  simp [State.sample, this]

/-- A sample depends only on the constants and on its element. -/
theorem sample_congr {s t : State} {w : Window} {k : Nat} (hc : t.cfg = s.cfg) (h : t.stored w k = s.stored w k) :
    t.sample w k = s.sample w k := by
  simp only [State.sample, hc, h]

end Sys2Proof.Machine
end

