-- ==== Sys2Proof/Laws/Formats.lean ====
section
/-! SUPPORT. The word formats: what a narrowed integer reads back as. -/

namespace Sys2Proof.Machine

theorem intOfWord_wordOfInt {v : Int} (h1 : -2147483648 ≤ v) (h2 : v < 2147483648) : intOfWord (wordOfInt v) = v := by
  simp only [intOfWord, wordOfInt, BitVec.toInt_ofInt]
  rw [Int.bmod_eq_of_le (by omega) (by omega)]

theorem countOfWord_wordOfCount {v : Nat} (h : v < 4294967296) : countOfWord (wordOfCount v) = v := by
  simp only [countOfWord, wordOfCount, BitVec.toNat_ofNat]
  omega

theorem countOfWord_lt (w : Word) : countOfWord w < 4294967296 := w.isLt

@[simp] theorem countOfWord_zero : countOfWord 0 = 0 := rfl

theorem countOfWord_wordOfInt {v : Int} (h1 : 0 ≤ v) (h2 : v < 4294967296) : (countOfWord (wordOfInt v) : Int) = v := by
  simp only [countOfWord, wordOfInt, BitVec.toNat_ofInt]
  omega

/-- The three fields of a dibit word (30_encoding.md R86). -/
theorem dibitWord_toNat {c : Int} (m : Move) (d : Dibit) (h0 : 0 ≤ c) (h1 : c < 16384) :
    ((dibitWord c m d).toNat : Int) = c * 256 + moveCode m * 4 + d.val := by
  obtain ⟨n, rfl⟩ := Int.eq_ofNat_of_zero_le h0
  have hn : n < 16384 := by omega
  have hd := d.isLt
  have hm : moveCode m < 4 := by cases m <;> simp [moveCode]
  have hw : dibitWord (n : Int) m d = BitVec.ofNat 32 (n * 256 + moveCode m * 4 + d.val) := by
    have e1 : (BitVec.ofInt 32 (n : Int)) = BitVec.ofNat 32 n := by simp
    apply BitVec.eq_of_toNat_eq
    simp only [dibitWord, e1, BitVec.toNat_or, BitVec.toNat_shiftLeft, BitVec.toNat_ofNat, Nat.shiftLeft_eq]
    rw [Nat.mod_eq_of_lt (show n < 2 ^ 32 by omega), Nat.mod_eq_of_lt (show n * 2 ^ 8 < 2 ^ 32 by omega),
      Nat.mod_eq_of_lt (show moveCode m < 2 ^ 32 by omega), Nat.mod_eq_of_lt (show moveCode m * 2 ^ 2 < 2 ^ 32 by omega),
      Nat.mod_eq_of_lt (show d.val < 2 ^ 32 by omega), Nat.mod_eq_of_lt (show n * 256 + moveCode m * 4 + d.val < 2 ^ 32 by omega)]
    have h2 : n * 2 ^ 8 ||| moveCode m * 2 ^ 2 = n * 2 ^ 8 + moveCode m * 2 ^ 2 := by
      rw [Nat.mul_comm n]
      exact (Nat.two_pow_add_eq_or_of_lt (by omega) n).symm
    rw [h2, show n * 2 ^ 8 + moveCode m * 2 ^ 2 = 2 ^ 2 * (n * 64 + moveCode m) by omega,
      ← Nat.two_pow_add_eq_or_of_lt (by omega)]
    omega
  rw [hw, BitVec.toNat_ofNat]
  omega

end Sys2Proof.Machine
end

