-- ==== Sys2Proof/Laws/Sequencing.lean ====
section
/-! SUPPORT. Sequencing: what a sequence of two results is, and the rules of the counted loop. -/

namespace Sys2Proof.Machine

@[simp] theorem andThen_next (s : State) (f : State → Result) : andThen (.next s) f = f s := rfl

@[simp] theorem andThen_fault (e : Fault) (f : State → Result) : andThen (.fault e) f = .fault e := rfl

@[simp] theorem andThen_refused (e : Refusal) (f : State → Result) : andThen (.refused e) f = .refused e := rfl

theorem andThen_eq_next {r : Result} {f : State → Result} {t : State} :
    andThen r f = .next t ↔ ∃ s, r = .next s ∧ f s = .next t := by
  cases r <;> simp

theorem andThen_assoc (r : Result) (f g : State → Result) : andThen (andThen r f) g = andThen r (fun s => andThen (f s) g) := by
  cases r <;> rfl

@[simp] theorem forRange_zero (body : Nat → State → Result) (start : Nat) (s : State) : forRange body 0 start s = .next s := rfl

theorem forRange_succ (body : Nat → State → Result) (count start : Nat) (s : State) :
    forRange body (count + 1) start s = andThen (body start s) (forRange body count (start + 1)) := rfl

/-- A loop whose body always goes on completes, and keeps what the body keeps. -/
theorem forRange_completes {body : Nat → State → Result} {P : Nat → State → Prop} (count : Nat) :
    ∀ (start : Nat) (s : State),
      (∀ i u, start ≤ i → i < start + count → P i u → ∃ v, body i u = .next v ∧ P (i + 1) v) → P start s →
      ∃ t, forRange body count start s = .next t ∧ P (start + count) t := by
  induction count with
  | zero => exact fun start s _ hs => ⟨s, rfl, hs⟩
  | succ count ih =>
    intro start s hbody hs
    obtain ⟨v, hv, hP⟩ := hbody start s (Nat.le_refl _) (by omega) hs
    obtain ⟨t, ht, hPt⟩ := ih (start + 1) v (fun i u h1 h2 hu => hbody i u (by omega) (by omega) hu) hP
    refine ⟨t, ?_, ?_⟩
    · rw [forRange_succ, hv, andThen_next, ht]
    · rwa [show start + (count + 1) = start + 1 + count by omega]

/-- What each round of a loop that goes on keeps holds at its end. -/
theorem forRange_keeps {body : Nat → State → Result} {P : Nat → State → Prop} (count : Nat) :
    ∀ (start : Nat) (s t : State),
      (∀ i u v, start ≤ i → i < start + count → P i u → body i u = .next v → P (i + 1) v) → P start s →
      forRange body count start s = .next t → P (start + count) t := by
  induction count with
  | zero =>
    intro start s t _ hs ht
    cases ht
    exact hs
  | succ count ih =>
    intro start s t hbody hs ht
    rw [forRange_succ, andThen_eq_next] at ht
    obtain ⟨v, hv, ht⟩ := ht
    have := ih (start + 1) v t (fun i u w h1 h2 hu hw => hbody i u w (by omega) (by omega) hu hw)
      (hbody start s v (Nat.le_refl _) (by omega) hs hv) ht
    rwa [show start + (count + 1) = start + 1 + count by omega]

/-- Where a loop stops: at its end, or in the first round whose body does not go on. -/
theorem forRange_cases {body : Nat → State → Result} {P : Nat → State → Prop} (count : Nat) :
    ∀ (start : Nat) (s : State),
      (∀ i u v, start ≤ i → i < start + count → P i u → body i u = .next v → P (i + 1) v) → P start s →
      (∃ t, forRange body count start s = .next t ∧ P (start + count) t) ∨
        ∃ i u, start ≤ i ∧ i < start + count ∧ P i u ∧ (∀ v, body i u ≠ .next v) ∧
          forRange body count start s = body i u := by
  induction count with
  | zero => exact fun start s _ hs => .inl ⟨s, rfl, hs⟩
  | succ count ih =>
    intro start s hbody hs
    rw [forRange_succ]
    rcases hb : body start s with v | e | e
    · rcases ih (start + 1) v (fun i u w h1 h2 hu hw => hbody i u w (by omega) (by omega) hu hw)
        (hbody start s v (Nat.le_refl _) (by omega) hs hb) with ⟨t, ht, hP⟩ | ⟨i, u, h1, h2, hP, hn, he⟩
      · exact .inl ⟨t, by rw [andThen_next, ht], by rwa [show start + (count + 1) = start + 1 + count by omega]⟩
      · exact .inr ⟨i, u, by omega, by omega, hP, hn, by rw [andThen_next, he]⟩
    · exact .inr ⟨start, s, Nat.le_refl _, by omega, hs, by simp [hb], by rw [hb, andThen_fault]⟩
    · exact .inr ⟨start, s, Nat.le_refl _, by omega, hs, by simp [hb], by rw [hb, andThen_refused]⟩

end Sys2Proof.Machine
end

