-- ==== Sys2Proof/Laws/Extract.lean ====
section
/-! SUPPORT. The segment extractor: one sample pair copied, one dibit value's segment, and the frame of stage EXTRACT. -/

namespace Sys2Proof.Machine

/-! The clipped span (R180). -/

/-- Every index the copy reads is inside the input (44_segment_extractor.md R184). -/
theorem spanLo_add_lt {s : State} {d : Dibit} {m : Nat} (h : m < s.spanCount d) : s.spanLo d + m < countOfWord s.nl := by
  simp only [State.spanCount, State.spanLen, State.spanLo] at *
  omega

/-- The copy stays within the remaining capacity (R183). -/
theorem used_add_spanCount {s : State} (d : Dibit) (h : s.work.used ≤ countOfWord s.ml) :
    s.work.used + s.spanCount d ≤ countOfWord s.ml := by
  simp only [State.spanCount]
  omega

theorem spanCount_le (s : State) (d : Dibit) : s.spanCount d ≤ countOfWord s.ml := by
  simp only [State.spanCount]
  omega

/-- A segment is never longer than its run's span (R183). -/
theorem spanCount_le_span (s : State) (d : Dibit) : s.spanCount d ≤ 25 * countOfWord (s.runLen.get d) := by
  simp only [State.spanCount, State.spanLen, BITPRD]
  omega

/-! One sample pair. -/

/-- Everything the copy of one sample pair does when it goes on. -/
theorem copySample_eq_next {lo used m : Nat} {s t : State} :
    copySample lo used m s = .next t ↔ ∃ iv qv, s.sample .inI (lo + m) = some iv ∧ s.sample .inQ (lo + m) = some qv ∧
      used + m < s.cfg.segMax ∧
      t = (s.setElem .segI (used + m) (wordOfInt iv)).setElem .segQ (used + m) (wordOfInt qv) := by
  unfold copySample
  rcases s.sample .inI (lo + m) with _ | iv
  · simp
  · rcases s.sample .inQ (lo + m) with _ | qv
    · simp
    · simp only [andThen_eq_next, writeElem_eq_next, Window.count, Option.some.injEq]
      constructor
      · rintro ⟨u, ⟨h1, rfl⟩, h2, rfl⟩
        exact ⟨iv, qv, rfl, rfl, h1, rfl⟩
      · rintro ⟨_, _, rfl, rfl, h, rfl⟩
        exact ⟨_, ⟨h, rfl⟩, h, rfl⟩

/-- What a copy from state `s0` has done before its sample `m`. -/
structure Copied (lo used : Nat) (s0 : State) (m : Nat) (u : State) : Prop where
  frame : u = { s0 with mem := u.mem }
  values : ∀ k, k < m → ∃ iv qv, s0.sample .inI (lo + k) = some iv ∧ s0.sample .inQ (lo + k) = some qv ∧
    u.stored .segI (used + k) = some (wordOfInt iv) ∧ u.stored .segQ (used + k) = some (wordOfInt qv)
  bytes : ∀ a, ¬(Window.segI.addr used ≤ a ∧ a < Window.segI.addr (used + m)) →
    ¬(Window.segQ.addr used ≤ a ∧ a < Window.segQ.addr (used + m)) → u.byteAt a = s0.byteAt a

theorem Copied.start (lo used : Nat) (s0 : State) : Copied lo used s0 0 s0 where
  frame := rfl
  values := fun k hk => by omega
  bytes := fun _ _ _ => rfl

/-- The copy leaves the other windows alone. -/
theorem Copied.stored_other {lo used m : Nat} {s0 u : State} (h : Copied lo used s0 m u) {w : Window} (h1 : w ≠ .segI)
    (h2 : w ≠ .segQ) {k : Nat} (hk : k < 16384) (hm : used + m ≤ 16384) : u.stored w k = s0.stored w k := by
  refine stored_eq_of_bytes (fun a ha hb => h.bytes a ?_ ?_) <;> cases w <;>
    first | exact absurd rfl h1 | exact absurd rfl h2 | (simp only [Window.addr, Window.base] at *; omega)

theorem Copied.next {lo used m : Nat} {s0 u v : State} (h : Copied lo used s0 m u) (hn : copySample lo used m u = .next v) :
    Copied lo used s0 (m + 1) v := by
  obtain ⟨iv, qv, hI, hQ, hlt, rfl⟩ := copySample_eq_next.mp hn
  have hcfg : u.cfg = s0.cfg := by rw [h.frame]
  have hseg := s0.cfg.segMax_le
  have hnm := s0.cfg.nMax_le
  rw [hcfg] at hlt
  have hin : ∀ w : Window, w = .inI ∨ w = .inQ → ∀ k, k < 16384 → u.sample w k = s0.sample w k := by
    intro w hw k hk
    refine sample_congr hcfg (h.stored_other ?_ ?_ hk (by omega)) <;> rcases hw with rfl | rfl <;> simp
  have hb : lo + m < 16384 := by
    have := (sample_eq_some hI).1
    rw [hcfg] at this
    simp only [Window.count] at this
    omega
  refine ⟨?_, ?_, ?_⟩
  · rw [h.frame]
    rfl
  · intro k hk
    by_cases hkm : k = m
    · subst hkm
      refine ⟨iv, qv, (hin _ (.inl rfl) _ hb).symm.trans hI, (hin _ (.inr rfl) _ hb).symm.trans hQ, ?_, ?_⟩
      · rw [stored_setElem_other _ _ (by omega) (by omega) (.inl (by simp))]
        exact stored_setElem_same _ _ _ _
      · exact stored_setElem_same _ _ _ _
    · obtain ⟨iv', qv', h1, h2, h3, h4⟩ := h.values k (by omega)
      refine ⟨iv', qv', h1, h2, ?_, ?_⟩
      · rw [stored_setElem_other _ _ (by omega) (by omega) (.inl (by simp)),
          stored_setElem_other _ _ (by omega) (by omega) (.inr (by omega)), h3]
      · rw [stored_setElem_other _ _ (by omega) (by omega) (.inr (by omega)),
          stored_setElem_other _ _ (by omega) (by omega) (.inl (by simp)), h4]
  · intro a h1 h2
    rw [byteAt_setElem_other _ _ (by simp only [Window.addr] at *; omega),
      byteAt_setElem_other _ _ (by simp only [Window.addr] at *; omega)]
    exact h.bytes a (by simp only [Window.addr] at *; omega) (by simp only [Window.addr] at *; omega)

/-! One dibit value's segment. -/

/-- Everything SEG_COPY does when it goes on (R180, R181): the copy, the reported length and the write pointer. -/
theorem execSegCopy_next {d : Dibit} {s t : State} (h : execSegCopy d s = .next t) :
    t = { s with
      mem := t.mem, segLen := s.segLen.set d (wordOfCount (s.spanCount d))
      work := { s.work with d := d, used := s.work.used + s.spanCount d } } ∧
    Copied (s.spanLo d) s.work.used s (s.spanCount d) { s with mem := t.mem } := by
  simp only [execSegCopy, andThen_eq_next] at h
  obtain ⟨u, hu, h⟩ := h
  have hc := forRange_keeps (body := copySample (s.spanLo d) s.work.used) (P := Copied (s.spanLo d) s.work.used s)
    (s.spanCount d) 0 s u (by intro i u v _ _ hP hv; exact hP.next hv) (Copied.start _ _ _) hu
  rw [Nat.zero_add] at hc
  have hf := hc.frame
  cases h
  refine ⟨?_, ?_⟩
  · rw [hf]
  · show Copied (s.spanLo d) s.work.used s (s.spanCount d) { s with mem := u.mem }
    rw [← hf]
    exact hc

/-- SEG_COPY goes on where the input below `Nl` is written and the capacity is the memory's (R184). -/
theorem execSegCopy_inside {s : State} (d : Dibit) (hn : countOfWord s.nl ≤ s.cfg.nMax) (hm : countOfWord s.ml ≤ s.cfg.segMax)
    (hI : s.filled .inI) (hQ : s.filled .inQ) (hu : s.work.used ≤ countOfWord s.ml) : ∃ t, execSegCopy d s = .next t := by
  have hseg := s.cfg.segMax_le
  have hnm := s.cfg.nMax_le
  have hcap := used_add_spanCount d hu
  obtain ⟨u, hu, _⟩ := forRange_completes (body := copySample (s.spanLo d) s.work.used)
    (P := Copied (s.spanLo d) s.work.used s) (s.spanCount d) 0 s
    (by
      intro i u _ hi hP
      have hlt := spanLo_add_lt (s := s) (d := d) (m := i) (by omega)
      have hcfg : u.cfg = s.cfg := by rw [hP.frame]
      obtain ⟨iv, hiv⟩ := sample_of_written (s := s) (w := .inI) (k := s.spanLo d + i) (by simp only [Window.count]; omega)
        (hI _ hlt)
      obtain ⟨qv, hqv⟩ := sample_of_written (s := s) (w := .inQ) (k := s.spanLo d + i) (by simp only [Window.count]; omega)
        (hQ _ hlt)
      have hi' : u.sample .inI (s.spanLo d + i) = some iv := by
        rw [sample_congr hcfg (hP.stored_other (w := .inI) (by simp) (by simp) (by omega) (by omega)), hiv]
      have hq' : u.sample .inQ (s.spanLo d + i) = some qv := by
        rw [sample_congr hcfg (hP.stored_other (w := .inQ) (by simp) (by simp) (by omega) (by omega)), hqv]
      have hlt' : s.work.used + i < u.cfg.segMax := by
        rw [hcfg]
        omega
      have hnext := (copySample_eq_next (lo := s.spanLo d) (used := s.work.used)).mpr ⟨iv, qv, hi', hq', hlt', rfl⟩
      exact ⟨_, hnext, hP.next hnext⟩)
    (Copied.start _ _ _)
  unfold execSegCopy
  simp only [hu, andThen_next]
  exact ⟨_, rfl⟩

/-! Stage EXTRACT. -/

/-- Stage EXTRACT is the four copies in rising order of the dibit value (R180). -/
theorem execExtract_eq (s : State) : execExtract s =
    andThen (execSegCopy 0 { s with work := { s.work with used := 0 } }) fun s1 =>
      andThen (execSegCopy 1 s1) fun s2 => andThen (execSegCopy 2 s2) fun s3 => execSegCopy 3 s3 := by
  have last : ∀ u, forRange (fun k => execSegCopy (dibitOfIndex k)) 1 3 u = execSegCopy 3 u := by
    intro u
    show andThen (execSegCopy 3 u) (fun s => .next s) = _
    rcases execSegCopy 3 u with _ | _ | _ <;> rfl
  have third : forRange (fun k => execSegCopy (dibitOfIndex k)) 1 3 = execSegCopy 3 := funext last
  show andThen (execSegCopy 0 _) (fun s1 => andThen (execSegCopy 1 s1) fun s2 => andThen (execSegCopy 2 s2)
    (forRange (fun k => execSegCopy (dibitOfIndex k)) 1 3)) = _
  rw [third]

/-- Everything stage EXTRACT can change when it goes on: memory, the segment lengths and working registers. -/
theorem execExtract_frame {s t : State} (h : execExtract s = .next t) :
    t = { s with mem := t.mem, segLen := t.segLen, work := t.work } := by
  rw [execExtract_eq] at h
  simp only [andThen_eq_next] at h
  obtain ⟨s1, h1, s2, h2, s3, h3, h4⟩ := h
  rw [(execSegCopy_next h4).1, (execSegCopy_next h3).1, (execSegCopy_next h2).1, (execSegCopy_next h1).1]

end Sys2Proof.Machine
end

