-- ==== Sys2Proof/Laws/Sweep.lean ====
section
/-! SUPPORT. A stage that writes the elements of one window in rising order: its state after each element, and its end. -/

namespace Sys2Proof.Machine

/-- What a sweep over window `w` from state `s0` has done before element `i`: elements below `i` hold `f`, every other byte and
every field but memory and working registers is as it was. -/
structure Swept (w : Window) (f : Nat → Word) (s0 : State) (i : Nat) (u : State) : Prop where
  frame : u = { s0 with mem := u.mem, work := u.work }
  values : ∀ k, k < i → u.stored w k = some (f k)
  bytes : sameBytesBut w 0 i s0 u

namespace Swept

variable {w : Window} {f : Nat → Word} {s0 u : State} {i : Nat}

theorem cfg (h : Swept w f s0 i u) : u.cfg = s0.cfg := by rw [h.frame]
theorem nl (h : Swept w f s0 i u) : u.nl = s0.nl := by rw [h.frame]
theorem epoch (h : Swept w f s0 i u) : u.epoch = s0.epoch := by rw [h.frame]

theorem start (w : Window) (f : Nat → Word) (s0 : State) : Swept w f s0 0 s0 where
  frame := rfl
  values := fun k hk => by omega
  bytes := fun _ _ => rfl

/-- A sweep leaves the elements of the other windows alone. -/
theorem stored_other (h : Swept w f s0 i u) {w' : Window} (hw : w' ≠ w) {k : Nat} (hk : k < 16384) (hi : i ≤ 16384) :
    u.stored w' k = s0.stored w' k := by
  refine stored_eq_of_bytes fun a h1 h2 => h.bytes a fun ⟨h3, h4⟩ => ?_
  have hb : ∃ j, j < i ∧ w.addr j ≤ a ∧ a < w.addr j + 4 := by
    refine ⟨(a - w.addr 0) / 4, ?_, ?_, ?_⟩ <;> simp only [Window.addr] at * <;> omega
  obtain ⟨j, hj, h5, h6⟩ := hb
  have := Window.addr_apart (w := w) (w' := w') (k := j) (k' := k) (by omega) hk (.inl (Ne.symm hw))
  omega

theorem elem_other (h : Swept w f s0 i u) {w' : Window} (hw : w' ≠ w) {k : Nat} (hk : k < 16384) (hi : i ≤ 16384) :
    u.elem w' k = s0.elem w' k := by
  simp only [State.elem, h.stored_other hw hk hi, h.epoch]

theorem sample_other (h : Swept w f s0 i u) {w' : Window} (hw : w' ≠ w) {k : Nat} (hk : k < 16384) (hi : i ≤ 16384) :
    u.sample w' k = s0.sample w' k := sample_congr h.cfg (h.stored_other hw hk hi)

/-- The sweep's next element. -/
theorem next (h : Swept w f s0 i u) (hi : i < 16384) (wk : Work) :
    Swept w f s0 (i + 1) ({ u with work := wk }.setElem w i (f i)) where
  frame := by
    rw [h.frame]
    rfl
  values := fun k hk => by
    by_cases hki : k = i
    · subst hki
      exact stored_setElem_same _ _ _ _
    · rw [stored_setElem_other _ _ hi (by omega) (.inr hki)]
      exact h.values k (by omega)
  bytes := fun a ha => by
    rw [byteAt_setElem_other _ _ (by simp only [Window.addr] at *; omega)]
    exact h.bytes a (by simp only [Window.addr] at *; omega)

end Swept

/-- A stage whose body writes `f i` to element `i`, whatever the sweep so far, completes with all its elements written. -/
theorem sweep_completes {body : Nat → State → Result} {w : Window} {f : Nat → Word} {s0 : State} {count : Nat}
    (hc : count ≤ 16384)
    (hbody : ∀ i u, i < count → Swept w f s0 i u → ∃ wk, body i u = .next ({ u with work := wk }.setElem w i (f i))) :
    ∃ t, forRange body count 0 s0 = .next t ∧ Swept w f s0 count t := by
  have h := forRange_completes (body := body) (P := Swept w f s0) count 0 s0
    (by
      intro i u _ hi hu
      obtain ⟨wk, hwk⟩ := hbody i u (by omega) hu
      exact ⟨_, hwk, hu.next (by omega) wk⟩)
    (Swept.start w f s0)
  rwa [Nat.zero_add] at h

/-- A stage that went on wrote `f i` to every element, if its body can only write that. -/
theorem sweep_keeps {body : Nat → State → Result} {w : Window} {f : Nat → Word} {s0 t : State} {count : Nat}
    (hc : count ≤ 16384)
    (hbody : ∀ i u v, i < count → Swept w f s0 i u → body i u = .next v →
      ∃ wk, v = { u with work := wk }.setElem w i (f i))
    (ht : forRange body count 0 s0 = .next t) : Swept w f s0 count t := by
  have h := forRange_keeps (body := body) (P := Swept w f s0) count 0 s0 t
    (by
      intro i u v _ hi hu hv
      obtain ⟨wk, rfl⟩ := hbody i u v (by omega) hu hv
      exact hu.next (by omega) wk)
    (Swept.start w f s0) ht
  rwa [Nat.zero_add] at h

end Sys2Proof.Machine
end

