-- ==== Sys2Proof/Laws/Filter.lean ====
section
/-! SUPPORT. The differential filter: one sample of stage DIFF, the FIR sum, one sample of stage FILTER. -/

namespace Sys2Proof.Machine

/-! DIFF. -/

/-- The value stage DIFF gives element `i` (R121). -/
def State.diffValue (s : State) (i : Nat) : Int :=
  if i < LAG then 0 else wrapPhase (intOfWord (s.elem .phase (i - LAG)) - intOfWord (s.elem .phase i))

/-- One sample of stage DIFF inside the memory. -/
theorem diffSample_inside {s : State} {i : Nat} (h : i < s.cfg.nMax) :
    ∃ wk, diffSample i s = .next ({ s with work := wk }.setElem .diff i (wordOfInt (s.diffValue i))) := by
  unfold diffSample State.diffValue
  by_cases hi : i < LAG
  · refine ⟨{ s.work with i := i }, ?_⟩
    simp only [hi, if_true]
    exact writeElem_inside _ h
  · have h1 : ({ s with work := { s.work with i := i } } : State).readElem .phase (i - LAG) = some (s.elem .phase (i - LAG)) :=
      readElem_inside (show i - LAG < s.cfg.nMax by omega)
    have h2 : ({ s with work := { s.work with i := i } } : State).readElem .phase i = some (s.elem .phase i) :=
      readElem_inside (show i < s.cfg.nMax from h)
    refine ⟨{ s.work with
      i := i, wrapOut := wrapPhase (intOfWord (s.elem .phase (i - LAG)) - intOfWord (s.elem .phase i)) }, ?_⟩
    simp only [hi, if_false, h1, h2]
    exact writeElem_inside _ h

/-- Outside the memory stage DIFF does not go on. -/
theorem diffSample_next_inside {s t : State} {i : Nat} (h : diffSample i s = .next t) : i < s.cfg.nMax := by
  unfold diffSample at h
  simp only at h
  split at h
  · exact (writeElem_eq_next.mp h).1
  · split at h
    · exact (writeElem_eq_next.mp h).1
    · cases h

/-- The wrap keeps every difference of two phases within half a turn (R126). -/
theorem wrapPhase_range {d : Int} (h1 : -393216 ≤ d) (h2 : d ≤ 393216) : -131072 ≤ wrapPhase d ∧ wrapPhase d ≤ 131072 := by
  simp only [wrapPhase, HALF_TURN, TURN]
  split
  · omega
  · split <;> omega

/-! FILTER. -/

/-- The FIR sum as a list sum, where every index has an element. -/
theorem firSum_eq_sum {read : Nat → Option Int} {g : Nat → Int} (taps : List Int) (first : Nat)
    (h : ∀ j, j < taps.length → read (first + j) = some (g (first + j))) :
    firSum read taps first = some ((List.range taps.length).map (fun j => g (first + j) * taps.getD j 0)).sum := by
  induction taps generalizing first with
  | nil => rfl
  | cons a taps ih =>
    have h0 := h 0 (by simp)
    have hr := ih (first + 1) (fun j hj => by
      have := h (j + 1) (by simp; omega)
      rwa [show first + 1 + j = first + (j + 1) by omega])
    simp only [Nat.add_zero] at h0
    simp only [firSum, h0, hr, List.length_cons, List.range_succ_eq_map, List.map_cons, List.sum_cons, List.map_map]
    congr 2
    have e : (fun j => g (first + 1 + j) * taps.getD j 0) =
        ((fun j => g (first + j) * (a :: taps).getD j 0) ∘ Nat.succ) := by
      funext j
      simp only [Function.comp, Nat.succ_eq_add_one, List.getD_cons_succ, show first + 1 + j = first + (j + 1) by omega]
    rw [e]

/-- The value stage FILTER gives element `i` (R122, R123). -/
def State.filterValue (s : State) (i : Nat) : Int :=
  if HALF_K ≤ i ∧ i + HALF_K < countOfWord s.nl then
    tdiv ((List.range KTAPS).map (fun j => intOfWord (s.elem .diff (i - HALF_K + j)) * s.cfg.kernel.getD j 0)).sum s.cfg.gain
  else 0

/-- One sample of stage FILTER inside the memory. -/
theorem filterSample_inside {s : State} {i : Nat} (hn : countOfWord s.nl ≤ s.cfg.nMax) (h : i < s.cfg.nMax) :
    ∃ wk, filterSample i s = .next ({ s with work := wk }.setElem .filt i (wordOfInt (s.filterValue i))) := by
  unfold filterSample State.filterValue
  by_cases hi : HALF_K ≤ i ∧ i + HALF_K < countOfWord s.nl
  · have hl := s.cfg.kernel_length
    have hsum := firSum_eq_sum (read := ({ s with work := { s.work with i := i } } : State).diffAt)
      (g := fun k => intOfWord (s.elem .diff k)) s.cfg.kernel (i - HALF_K) (fun j hj => by
        simp only [State.diffAt]
        rw [readElem_inside (show i - HALF_K + j < s.cfg.nMax by simp only [HALF_K, KTAPS] at *; omega)]
        rfl)
    rw [hl] at hsum
    refine ⟨{ s.work with
      i := i
      acc := ((List.range KTAPS).map
        (fun j => intOfWord (s.elem .diff (i - HALF_K + j)) * s.cfg.kernel.getD j 0)).sum }, ?_⟩
    simp only [hi, and_self, if_true, hsum]
    exact writeElem_inside _ h
  · refine ⟨{ s.work with i := i }, ?_⟩
    simp only [hi, if_false]
    exact writeElem_inside _ h

theorem filterSample_next_inside {s t : State} {i : Nat} (h : filterSample i s = .next t) : i < s.cfg.nMax := by
  unfold filterSample at h
  simp only at h
  split at h
  · split at h
    · exact (writeElem_eq_next.mp h).1
    · cases h
  · exact (writeElem_eq_next.mp h).1

end Sys2Proof.Machine
end

