-- ==== Sys2Proof/Laws/PerInstr.lean ====
section
/-! SUPPORT. The family of statements made per instruction: whatever code decodes to an instruction, that instruction is
well-formed. -/

namespace Sys2Proof.Laws.DecodedIsWellFormed

/-- A code that decodes to `i` decodes to a well-formed instruction (30_encoding.md R83, R91). -/
def Statement (i : Instr) : Prop := ∀ c, decode c = .ok i → i.wf = true

theorem decodeOp_ne_mbz (o : BitVec 4) (mbz : BitVec 28) (op : BitVec 4) : decodeOp o ≠ .reservedMbz mbz op := by
  unfold decodeOp
  split <;> simp

theorem decodeStage_ne_mbz (c : BitVec 3) (mbz : BitVec 28) (op : BitVec 4) : decodeStage c ≠ .ok (.reservedMbz mbz op) := by
  unfold decodeStage
  split <;> simp

theorem decodeOp_ne_cost (o : BitVec 4) (c : Int) (dir : Dir) (terms : List Nat) : decodeOp o ≠ .cost c dir terms := by
  unfold decodeOp
  split <;> simp

theorem decodeOp_ne_cordic (o : BitVec 4) (iv qv : Int) : decodeOp o ≠ .cordic iv qv := by
  unfold decodeOp
  split <;> simp

theorem decodeStage_ne_cost (s : BitVec 3) (c : Int) (dir : Dir) (terms : List Nat) : decodeStage s ≠ .ok (.cost c dir terms) := by
  unfold decodeStage
  split <;> simp

theorem decodeStage_ne_cordic (s : BitVec 3) (iv qv : Int) : decodeStage s ≠ .ok (.cordic iv qv) := by
  unfold decodeStage
  split <;> simp

theorem nop : Statement .nop := fun _ _ => rfl

theorem analyze : Statement .analyze := fun _ _ => rfl

theorem ack : Statement .ack := fun _ _ => rfl

theorem reservedOp3 : Statement .reservedOp3 := fun _ _ => rfl

theorem reservedOp4 : Statement .reservedOp4 := fun _ _ => rfl

theorem reservedOp5 : Statement .reservedOp5 := fun _ _ => rfl

theorem reservedOp6 : Statement .reservedOp6 := fun _ _ => rfl

theorem reservedOp7 : Statement .reservedOp7 := fun _ _ => rfl

theorem reservedOp8 : Statement .reservedOp8 := fun _ _ => rfl

theorem reservedOp9 : Statement .reservedOp9 := fun _ _ => rfl

theorem reservedOpA : Statement .reservedOpA := fun _ _ => rfl

theorem reservedOpB : Statement .reservedOpB := fun _ _ => rfl

theorem reservedOpC : Statement .reservedOpC := fun _ _ => rfl

theorem reservedOpD : Statement .reservedOpD := fun _ _ => rfl

theorem reservedOpE : Statement .reservedOpE := fun _ _ => rfl

theorem reservedOpF : Statement .reservedOpF := fun _ _ => rfl

theorem reservedMbz (mbz : BitVec 28) (op : BitVec 4) : Statement (.reservedMbz mbz op) := by
  intro code h
  rcases code with w | s
  · simp only [decode, decodeCmd, Except.ok.injEq] at h
    split at h
    · exact absurd h (decodeOp_ne_mbz _ _ _)
    · next hm =>
      simp only [Instr.reservedMbz.injEq] at h
      simp only [Instr.wf, bne_iff_ne]
      exact h.1 ▸ hm
  · exact absurd h (decodeStage_ne_mbz _ _ _)

theorem phase : Statement .phase := fun _ _ => rfl

theorem diff : Statement .diff := fun _ _ => rfl

theorem filter : Statement .filter := fun _ _ => rfl

theorem acquire : Statement .acquire := fun _ _ => rfl

theorem track : Statement .track := fun _ _ => rfl

theorem extract : Statement .extract := fun _ _ => rfl

theorem cordic (iv qv : Int) : Statement (.cordic iv qv) := by
  intro code h
  rcases code with w | s
  · simp only [decode, decodeCmd, Except.ok.injEq] at h
    split at h
    · exact absurd h (decodeOp_ne_cordic _ _ _)
    · cases h
  · exact absurd h (decodeStage_ne_cordic _ _ _)

theorem wrap (d : Int) : Statement (.wrap d) := fun _ _ => rfl

theorem slice (v : Int) : Statement (.slice v) := fun _ _ => rfl

theorem cost (c : Int) (dir : Dir) (terms : List Nat) : Statement (.cost c dir terms) := by
  intro code h
  rcases code with w | s
  · simp only [decode, decodeCmd, Except.ok.injEq] at h
    split at h
    · exact absurd h (decodeOp_ne_cost _ _ _ _)
    · cases h
  · exact absurd h (decodeStage_ne_cost _ _ _ _)

theorem select (t : Int) : Statement (.select t) := fun _ _ => rfl

theorem emit (c : Int) (move : Move) : Statement (.emit c move) := fun _ _ => rfl

theorem runUpdate (d : Dibit) (c : Int) : Statement (.runUpdate d c) := fun _ _ => rfl

theorem runClose : Statement .runClose := fun _ _ => rfl

theorem runFlush : Statement .runFlush := fun _ _ => rfl

theorem segCopy (d : Dibit) : Statement (.segCopy d) := fun _ _ => rfl

end Sys2Proof.Laws.DecodedIsWellFormed
end

