-- ==== Sys2Proof/Laws/Phase.lean ====
section
/-! SUPPORT. The phase estimator: one round of the CORDIC loop, one sample of stage PHASE. -/

namespace Sys2Proof.Machine

/-! CORDIC. -/

/-- The loop over the rest of the table is one rotation and the loop over what is left. -/
theorem cordicLoop_cons (a : Int) (table : List Int) (k : Nat) (r : CordicRegs) :
    cordicLoop (a :: table) k r = cordicLoop table (k + 1) (cordicRotate k a r) := rfl

theorem cordicRotate_pos {r : CordicRegs} (h : 0 < r.y) (k : Nat) (a : Int) :
    cordicRotate k a r = ⟨r.x + asr r.y k, r.y - asr r.x k, r.z + a⟩ := by
  simp [cordicRotate, h]

theorem cordicRotate_neg {r : CordicRegs} (h : r.y < 0) (k : Nat) (a : Int) :
    cordicRotate k a r = ⟨r.x - asr r.y k, r.y + asr r.x k, r.z - a⟩ := by
  have h' : ¬0 < r.y := by omega
  simp [cordicRotate, h, h']

theorem cordicRotate_zero {r : CordicRegs} (h : r.y = 0) (k : Nat) (a : Int) : cordicRotate k a r = r := by
  simp [cordicRotate, h]

/-- A vector on the axis stays there: no later iteration rotates. -/
theorem cordicLoop_axis {r : CordicRegs} (h : r.y = 0) (table : List Int) (k : Nat) : cordicLoop table k r = r := by
  induction table generalizing k with
  | nil => rfl
  | cons a table ih => rw [cordicLoop_cons, cordicRotate_zero h, ih]

/-- Each rotation moves `z` by at most its table entry. -/
theorem cordicLoop_z_bound (table : List Int) (k : Nat) (r : CordicRegs) (hpos : ∀ a ∈ table, 0 ≤ a) :
    r.z - table.sum ≤ (cordicLoop table k r).z ∧ (cordicLoop table k r).z ≤ r.z + table.sum := by
  induction table generalizing k r with
  | nil => simp [cordicLoop]
  | cons a table ih =>
    have ha : 0 ≤ a := hpos a (by simp)
    have h := ih (k + 1) (cordicRotate k a r) (fun b hb => hpos b (by simp [hb]))
    have hz : (cordicRotate k a r).z = r.z + a ∨ (cordicRotate k a r).z = r.z - a ∨ (cordicRotate k a r).z = r.z := by
      unfold cordicRotate
      split
      · simp
      · split <;> simp
    rw [cordicLoop_cons, List.sum_cons]
    omega

/-! Stage PHASE. -/

/-- One sample of stage PHASE where both inputs are read. -/
theorem phaseSample_read {s : State} {i : Nat} {iv qv : Int} (hI : s.sample .inI i = some iv) (hQ : s.sample .inQ i = some qv) :
    ∃ wk, phaseSample i s = .next ({ s with work := wk }.setElem .phase i (wordOfInt (cordic iv qv))) := by
  have hk : i < Window.phase.count s.cfg := (sample_eq_some hI).1
  let s0 : State := { s with work := { s.work with i := i } }
  refine ⟨(s0.runCordic iv qv).work, ?_⟩
  have hw := writeElem_inside (s := s0.runCordic iv qv) (wordOfInt (s0.runCordic iv qv).work.phaseOut)
    (show i < Window.phase.count (s0.runCordic iv qv).cfg by rw [runCordic_cfg]; exact hk)
  have he : phaseSample i s =
      writeElem .phase i (wordOfInt (s0.runCordic iv qv).work.phaseOut) (s0.runCordic iv qv) := by
    unfold phaseSample
    simp only [hI, hQ]
    rfl
  rw [he, hw]
  simp only [State.runCordic, State.setElem, s0]

/-- Everything one sample of stage PHASE can do. -/
theorem phaseSample_cases (i : Nat) (s : State) :
    (∃ iv qv wk, s.sample .inI i = some iv ∧ s.sample .inQ i = some qv ∧
      phaseSample i s = .next ({ s with work := wk }.setElem .phase i (wordOfInt (cordic iv qv)))) ∨
    ((s.sample .inI i = none ∨ s.sample .inQ i = none) ∧ phaseSample i s = .fault .unwrittenInput) := by
  rcases hI : s.sample .inI i with _ | iv
  · exact .inr ⟨.inl rfl, by unfold phaseSample; simp only [hI]⟩
  · rcases hQ : s.sample .inQ i with _ | qv
    · exact .inr ⟨.inr rfl, by unfold phaseSample; simp only [hI, hQ]⟩
    · obtain ⟨wk, h⟩ := phaseSample_read hI hQ
      exact .inl ⟨iv, qv, wk, rfl, rfl, h⟩

end Sys2Proof.Machine
end

