-- ==== Sys2Proof/Laws/Tracker.lean ====
section
/-! SUPPORT. The tracker: costs, the gate, one step of stage TRACK, and the fuel of its loop. -/

namespace Sys2Proof.Machine

/-! Costs. -/

theorem filtAt_inside {s : State} {x : Int} (h0 : 0 ≤ x) (h1 : x < s.cfg.nMax) : s.filtAt x = some (s.filtValue x) := by
  have hk : x.toNat < Window.filt.count s.cfg := by
    simp only [Window.count]
    omega
  simp only [State.filtAt, h0, if_true, readElem_inside hk, Option.map_some, State.filtValue]

theorem costSum_eq_sum {read : Int → Option Int} {g : Int → Int} (T c : Int) (dir : Dir) (terms : List Nat)
    (h : ∀ k ∈ terms, read (c + dirSign dir * (25 * k)) = some (g (c + dirSign dir * (25 * k)))) :
    costSum read T c dir terms = some (terms.map (fun k : Nat => (slice T (g (c + dirSign dir * (25 * k)))).2)).sum := by
  induction terms with
  | nil => rfl
  | cons k terms ih =>
    have h0 : read (c + dirSign dir * (((BITPRD : Nat) : Int) * k)) = some (g (c + dirSign dir * (25 * k))) := h k (by simp)
    have hr := ih (fun j hj => h j (by simp [hj]))
    simp only [costSum, h0, hr, List.map_cons, List.sum_cons]

/-- The cost where every index has an element (R151). -/
theorem cost_inside {s : State} {c : Int} {dir : Dir} {terms : List Nat}
    (h : ∀ k ∈ terms, 0 ≤ c + dirSign dir * (25 * k) ∧ c + dirSign dir * (25 * k) < s.cfg.nMax) :
    s.cost c dir terms = some (s.costAt c dir terms) := by
  unfold State.cost State.costAt State.discAt
  exact costSum_eq_sum (g := s.filtValue) s.cfg.quadT c dir terms (fun k hk => filtAt_inside (h k hk).1 (h k hk).2)

/-- One index without an element leaves the whole sum without a value. -/
theorem costSum_none {read : Int → Option Int} {T c : Int} {dir : Dir} {terms : List Nat} {k : Nat} (hk : k ∈ terms)
    (h : read (c + dirSign dir * ((BITPRD : Nat) * k)) = none) : costSum read T c dir terms = none := by
  induction terms with
  | nil => cases hk
  | cons a terms ih =>
    rw [costSum]
    rcases List.mem_cons.mp hk with rfl | hk
    · rw [h]
    · rw [ih hk]
      split
      · next he => cases he
      · rfl

theorem filtAt_outside {s : State} {x : Int} (h : ¬(0 ≤ x ∧ x < s.cfg.nMax)) : s.filtAt x = none := by
  unfold State.filtAt State.readElem
  split
  · rw [if_neg (by simp only [Window.count]; omega), Option.map_none]
  · rfl

/-- The cost where some index has no element. -/
theorem cost_outside {s : State} {c : Int} {dir : Dir} {terms : List Nat} {k : Nat} (hk : k ∈ terms)
    (h : ¬(0 ≤ c + dirSign dir * (25 * k) ∧ c + dirSign dir * (25 * k) < s.cfg.nMax)) : s.cost c dir terms = none :=
  costSum_none hk (filtAt_outside h)

/-! The gate. -/

theorem directionAt_eq (t : Int) : directionAt t = directionOf t := by
  have hc : t - firstValid ≥ ((HIST_BACK : Nat) : Int) ↔ t ≥ 325 := by
    simp only [firstValid, HALF_K, HIST_BACK]
    omega
  unfold directionAt directionOf
  by_cases h : t ≥ 325
  · rw [if_pos h, if_pos (hc.mpr h)]
  · rw [if_neg h, if_neg (fun h' => h (hc.mp h'))]

theorem hasEarly_iff (t : Int) : hasEarly t = true ↔ 51 ≤ t := by
  unfold hasEarly
  rw [decide_eq_true_eq]
  simp only [firstValid, HALF_K]
  omega

theorem validIndex_iff (s : State) (x : Int) : validIndex (countOfWord s.nl) x = true ↔ s.validAt x := by
  unfold validIndex State.validAt
  rw [Bool.and_eq_true, decide_eq_true_eq, decide_eq_true_eq]
  simp only [firstValid, HALF_K]
  omega

/-- The term set of a step has exactly the terms of R156. -/
theorem mem_termsFor (s : State) (t : Int) (k : Nat) :
    k ∈ termsFor (countOfWord s.nl) (directionAt t) (candidates t) ↔ s.termAt t k := by
  have hall : k ∈ allTerms ↔ k < 10 := by simp [allTerms]
  simp only [termsFor, List.mem_filter, hall, State.termAt, directionAt_eq, List.all_eq_true, validIndex_iff]
  have hc : (∀ c ∈ candidates t, s.validAt (c + dirSign (directionOf t) * ((BITPRD : Nat) * k))) ↔
      (s.validAt (t + dirSign (directionOf t) * (25 * k)) ∧ s.validAt (t + 1 + dirSign (directionOf t) * (25 * k)) ∧
        (51 ≤ t → s.validAt (t - 1 + dirSign (directionOf t) * (25 * k)))) := by
    by_cases he : 51 ≤ t
    · have hc : candidates t = [t - 1, t, t + 1] := by simp only [candidates, (hasEarly_iff t).mpr he, if_true]
      simp only [hc, List.forall_mem_cons, List.not_mem_nil, false_implies, implies_true, he, true_implies]
      exact ⟨fun ⟨a, b, c, _⟩ => ⟨b, c, a⟩, fun ⟨b, c, a⟩ => ⟨a, b, c, trivial⟩⟩
    · have hn : hasEarly t = false := Bool.eq_false_iff.mpr (fun h => he ((hasEarly_iff t).mp h))
      have hc : candidates t = [t, t + 1] := by simp only [candidates, hn, Bool.false_eq_true, if_false]
      simp only [hc, List.forall_mem_cons, List.not_mem_nil, false_implies, implies_true, he]
      exact ⟨fun ⟨b, c, _⟩ => ⟨b, c, trivial⟩, fun ⟨b, c, _⟩ => ⟨b, c, trivial⟩⟩
  rw [hc]

theorem termsFor_sorted (nl : Nat) (dir : Dir) (cands : List Int) : (termsFor nl dir cands).Pairwise (· < ·) :=
  List.Pairwise.filter _ List.pairwise_lt_range

/-- The gate takes the early instant only where there is one (R155, R157). -/
theorem gate_none_ne_early (c0 cp : Int) : gate none c0 cp ≠ .early := by
  simp only [gate]
  split <;> simp

theorem movedInstant_bounds (t : Int) (m : Move) : t - 1 ≤ movedInstant t m ∧ movedInstant t m ≤ t + 1 := by
  cases m <;> simp only [movedInstant] <;> omega

/-- The gate of the meaning is the gate of R157. -/
theorem gate_chooses (s : State) (t : Int) (terms : List Nat) :
    let cm := if hasEarly t then some (s.costAt (t - 1) (directionOf t) terms) else none
    let m := gate cm (s.costAt t (directionOf t) terms) (s.costAt (t + 1) (directionOf t) terms)
    s.gateChooses t terms (movedInstant t m) m := by
  simp only [State.gateChooses]
  generalize s.costAt t (directionOf t) terms = c0
  generalize s.costAt (t + 1) (directionOf t) terms = cp
  generalize s.costAt (t - 1) (directionOf t) terms = cm
  by_cases he : 51 ≤ t
  · simp only [(hasEarly_iff t).mpr he, if_true, gate]
    split
    · next h => exact .inl ⟨⟨he, h.1, h.2⟩, rfl, rfl⟩
    · next h =>
      split
      · next h' => exact .inr (.inl ⟨fun ⟨_, a, b⟩ => h ⟨a, b⟩, ⟨h'.1, .inr h'.2⟩, rfl, rfl⟩)
      · next h' =>
        exact .inr (.inr ⟨fun ⟨_, a, b⟩ => h ⟨a, b⟩, fun ⟨a, b⟩ => h' ⟨a, b.resolve_left (by omega)⟩, rfl, rfl⟩)
  · have hn : hasEarly t = false := Bool.eq_false_iff.mpr (fun h => he ((hasEarly_iff t).mp h))
    simp only [hn, Bool.false_eq_true, if_false, gate]
    split
    · next h => exact .inr (.inl ⟨fun h' => he h'.1, ⟨h, .inl (by omega)⟩, rfl, rfl⟩)
    · next h => exact .inr (.inr ⟨fun h' => he h'.1, fun h' => h h'.1, rfl, rfl⟩)

/-- Everything SELECT changes when it goes on: working registers, and the instant it chose is `t - 1`, `t` or `t + 1`. -/
theorem execSelect_frame {s u : State} {t : Int} (h : execSelect t s = .next u) :
    u = { s with work := u.work } ∧ t - 1 ≤ u.work.c ∧ u.work.c ≤ t + 1 := by
  unfold execSelect at h
  simp only at h
  split at h
  · split at h
    · split at h
      · cases h
        exact ⟨rfl, movedInstant_bounds _ _⟩
      · cases h
    · cases h
      exact ⟨rfl, movedInstant_bounds _ _⟩
  · cases h

/-- SELECT where every cost has its elements: the gate over the term set of the step (R154-R157). -/
theorem execSelect_inside {s : State} {t : Int} (hn : countOfWord s.nl ≤ s.cfg.nMax) :
    let terms := termsFor (countOfWord s.nl) (directionAt t) (candidates t)
    ∃ u, execSelect t s = .next u ∧ u = { s with work := u.work } ∧ u.work.terms = terms ∧
      s.gateChooses t terms u.work.c u.work.move ∧ (u.work.move = .early → 51 ≤ t) := by
  intro terms
  have hin : ∀ c, c ∈ candidates t → s.cost c (directionAt t) terms = some (s.costAt c (directionAt t) terms) := by
    intro c hc
    refine cost_inside (fun k hk => ?_)
    have hv : validIndex (countOfWord s.nl) (c + dirSign (directionAt t) * ((BITPRD : Nat) * k)) = true :=
      List.all_eq_true.mp (List.mem_filter.mp hk).2 c hc
    have := (validIndex_iff s _).mp hv
    simp only [State.validAt, BITPRD] at this
    have e : dirSign (directionAt t) * (((25 : Nat) : Int) * k) = dirSign (directionAt t) * (25 * k) := rfl
    omega
  have h0 := hin t (by unfold candidates; split <;> simp)
  have hp := hin (t + 1) (by unfold candidates; split <;> simp)
  have hg := gate_chooses s t terms
  rw [← directionAt_eq] at hg
  let w0 : Work := { s.work with
    dir := directionAt t, terms := terms
    c0 := s.costAt t (directionAt t) terms, cp := s.costAt (t + 1) (directionAt t) terms }
  by_cases he : hasEarly t = true
  · have hm := hin (t - 1) (by unfold candidates; rw [if_pos he]; simp)
    simp only [he, if_true] at hg
    let m := gate (some (s.costAt (t - 1) (directionAt t) terms)) w0.c0 w0.cp
    refine ⟨{ s with work := { w0 with
      cm := s.costAt (t - 1) (directionAt t) terms, c := movedInstant t m, move := m } }, ?_, rfl, rfl, hg,
      fun _ => (hasEarly_iff t).mp he⟩
    unfold execSelect
    simp only [terms] at h0 hp hm
    simp only [h0, hp, hm, he, if_true]
    rfl
  · have he' : hasEarly t = false := Bool.eq_false_iff.mpr he
    simp only [he', Bool.false_eq_true, if_false] at hg
    let m := gate none w0.c0 w0.cp
    refine ⟨{ s with work := { w0 with c := movedInstant t m, move := m } }, ?_, rfl, rfl, hg,
      fun h => absurd h (gate_none_ne_early _ _)⟩
    unfold execSelect
    simp only [terms] at h0 hp
    simp only [h0, hp, he', Bool.false_eq_true, if_false]
    rfl

/-! Emission and runs. -/

/-- Everything EMIT does when it goes on (R158, R159). -/
theorem execEmit_eq_next {s u : State} {c : Int} {m : Move} (h : execEmit c m s = .next u) :
    ∃ v, s.filtAt c = some v ∧ countOfWord s.nsym < 16384 ∧
      u = { (s.setElem .dibit (countOfWord s.nsym) (dibitWord c m (slice s.cfg.quadT v).1)) with
        nsym := wordOfCount (countOfWord s.nsym + 1)
        work := { s.work with
          dibitOut := (slice s.cfg.quadT v).1, discOut := (slice s.cfg.quadT v).2, t := c + BITPRD } } := by
  unfold execEmit at h
  split at h
  · next v hv =>
    simp only [andThen_eq_next, writeElem_eq_next] at h
    obtain ⟨s2, ⟨hk, rfl⟩, h⟩ := h
    cases h
    exact ⟨v, hv, hk, rfl⟩
  · cases h

/-- EMIT at an instant of the data, with room in the stream (R158, R159). -/
theorem execEmit_inside {s : State} {c : Int} (m : Move) (h0 : 0 ≤ c) (h1 : c < s.cfg.nMax) (hn : countOfWord s.nsym < 16384) :
    execEmit c m s = .next { (s.setElem .dibit (countOfWord s.nsym) (dibitWord c m (s.dibAt c))) with
      nsym := wordOfCount (countOfWord s.nsym + 1)
      work := { s.work with dibitOut := s.dibAt c, discOut := s.discAt c, t := c + BITPRD } } := by
  unfold execEmit
  simp only [filtAt_inside h0 h1]
  rw [writeElem_inside (s := s.runSlice (s.filtValue c)) _ (show countOfWord s.nsym < 16384 from hn)]
  rfl

/-- The close of a run changes the two entries of its dibit value only. -/
theorem closeRun_frame (s : State) : s.closeRun = { s with runLen := s.closeRun.runLen, runStart := s.closeRun.runStart } := by
  unfold State.closeRun
  split <;> rfl

/-- The run update changes the run registers and the open run only. -/
theorem updateRun_frame (s : State) (d : Dibit) (c : Int) :
    s.updateRun d c = { s with
      runLen := (s.updateRun d c).runLen, runStart := (s.updateRun d c).runStart
      work := { s.work with
        curValid := true, curD := d, curLen := (s.updateRun d c).work.curLen
        curStart := (s.updateRun d c).work.curStart } } := by
  by_cases hv : s.work.curValid = false
  · simp only [State.updateRun, hv, if_true, State.openRun]
  · have hv' : s.work.curValid = true := by simpa using hv
    by_cases hd : d = s.work.curD
    · simp only [State.updateRun, hv', Bool.true_eq_false, if_false, hd, if_true]
    · simp only [State.updateRun, hv', Bool.true_eq_false, if_false, hd]
      rw [closeRun_frame]
      simp only [State.openRun, ← hv']

/-! Stage TRACK. -/

/-- Everything one step of stage TRACK does when it goes on: it adds an entry to the stream, advances the instant by 24 to 26,
and changes run and working registers. -/
theorem trackStep_next {s u : State} (h : trackStep s = .next u) :
    u = { s with mem := u.mem, nsym := u.nsym, runLen := u.runLen, runStart := u.runStart, work := u.work } ∧
      s.work.t + 24 ≤ u.work.t ∧ u.work.t ≤ s.work.t + 26 ∧ countOfWord s.nsym < 16384 ∧
      u.nsym = wordOfCount (countOfWord s.nsym + 1) ∧ sameBytesBut .dibit (countOfWord s.nsym) (countOfWord s.nsym + 1) s u ∧
      u.written .dibit (countOfWord s.nsym) = true := by
  unfold trackStep at h
  simp only [andThen_eq_next] at h
  obtain ⟨s1, h1, s2, h2, h3⟩ := h
  obtain ⟨hf1, hc1, hc2⟩ := execSelect_frame h1
  obtain ⟨v, hv, hk, hs2⟩ := execEmit_eq_next h2
  simp only [execRunUpdate, Host.Outcome.next.injEq] at h3
  have hf3 := updateRun_frame s2 s2.work.dibitOut s2.work.c
  rw [h3] at hf3
  have hnsym : s1.nsym = s.nsym := by rw [hf1]
  have hmem : s1.mem = s.mem := by rw [hf1]
  have ht : u.work.t = s1.work.c + 25 := by
    rw [hf3, hs2]
    rfl
  have hum : u.mem = (s.setElem .dibit (countOfWord s.nsym) (dibitWord s1.work.c s1.work.move (slice s1.cfg.quadT v).1)).mem := by
    rw [hf3, hs2]
    simp only [State.setElem, hmem, hnsym]
  refine ⟨?_, by omega, by omega, by rwa [hnsym] at hk, ?_, ?_, ?_⟩
  · rw [hf3, hs2, hf1]
    rfl
  · rw [hf3, hs2, ← hnsym]
  · intro a ha
    simp only [State.byteAt, hum]
    exact byteAt_setElem_other s _ (by simp only [Window.addr] at *; omega)
  · rw [written_iff]
    refine ⟨dibitWord s1.work.c s1.work.move (slice s1.cfg.quadT v).1, ?_⟩
    simp only [State.stored, hum]
    exact stored_setElem_same s _ _ _

/-- Inside the loop's range one step of stage TRACK goes on. -/
theorem trackStep_inside {s : State} (hn : countOfWord s.nl ≤ s.cfg.nMax) (h0 : 50 ≤ s.work.t)
    (h1 : s.work.t ≤ (countOfWord s.nl : Int) - 52) (hk : countOfWord s.nsym < 16384) : ∃ u, trackStep s = .next u ∧ 74 ≤ u.work.t := by
  obtain ⟨s1, hs1, hf1, _, hg, he⟩ := execSelect_inside (s := s) (t := s.work.t) hn
  have hb := (execSelect_frame hs1).2
  have hc : s1.cfg = s.cfg := by rw [hf1]
  have hnsym : s1.nsym = s.nsym := by rw [hf1]
  have hc0 : 50 ≤ s1.work.c := by
    rcases hg with ⟨⟨h, _⟩, hc, _⟩ | ⟨_, _, hc, _⟩ | ⟨_, _, hc, _⟩ <;> omega
  have hem := execEmit_inside (s := s1) (c := s1.work.c) s1.work.move (by omega) (by rw [hc]; omega) (by rwa [hnsym])
  refine ⟨_, by unfold trackStep; rw [hs1, andThen_next, hem, andThen_next]; rfl, ?_⟩
  rw [updateRun_frame]
  show 74 ≤ s1.work.c + ((BITPRD : Nat) : Int)
  simp only [BITPRD]
  omega

@[simp] theorem trackLoop_zero (s : State) : trackLoop 0 s = .next s := rfl

theorem trackLoop_succ (fuel : Nat) (s : State) : trackLoop (fuel + 1) s =
    if s.work.t ≤ (countOfWord s.nl : Int) - 52 then andThen (trackStep s) (trackLoop fuel) else .next s := rfl

/-- More fuel than the instants left changes nothing: the fuel never ends the loop of stage TRACK (R160). -/
theorem trackLoop_fuel (fuel more : Nat) (s : State) (h : (countOfWord s.nl : Int) - 52 < s.work.t + 24 * fuel) :
    trackLoop (fuel + more) s = trackLoop fuel s := by
  induction fuel generalizing s with
  | zero =>
    rw [Nat.zero_add]
    cases more with
    | zero => rfl
    | succ more => rw [trackLoop_succ, if_neg (by omega), trackLoop_zero]
  | succ fuel ih =>
    rw [show fuel + 1 + more = (fuel + more) + 1 by omega, trackLoop_succ, trackLoop_succ]
    split
    · rcases hs : trackStep s with u | e | e
      · obtain ⟨hf, ht, _⟩ := trackStep_next hs
        have hnl : u.nl = s.nl := by rw [hf]
        rw [andThen_next, andThen_next, ih u (by rw [hnl]; omega)]
      · rfl
      · rfl
    · rfl

/-- With fuel for the instants left, the loop of stage TRACK ends beyond the last one (R160). -/
theorem trackLoop_end (fuel : Nat) (s t : State) (h : (countOfWord s.nl : Int) - 52 < s.work.t + 24 * fuel)
    (ht : trackLoop fuel s = .next t) : (countOfWord t.nl : Int) - 52 < t.work.t := by
  induction fuel generalizing s with
  | zero =>
    cases ht
    omega
  | succ fuel ih =>
    rw [trackLoop_succ] at ht
    split at ht
    · rw [andThen_eq_next] at ht
      obtain ⟨u, hs, ht⟩ := ht
      obtain ⟨hf, hadv, _⟩ := trackStep_next hs
      have hnl : u.nl = s.nl := by rw [hf]
      exact ih u (by rw [hnl]; omega) ht
    · next hc =>
      cases ht
      omega

/-- What every step of stage TRACK keeps holds at the end of its loop. -/
theorem trackLoop_keeps {P : State → Prop}
    (hstep : ∀ u v, P u → u.work.t ≤ (countOfWord u.nl : Int) - 52 → trackStep u = .next v → P v)
    (fuel : Nat) (s t : State) (hs : P s) (ht : trackLoop fuel s = .next t) : P t := by
  induction fuel generalizing s with
  | zero =>
    cases ht
    exact hs
  | succ fuel ih =>
    rw [trackLoop_succ] at ht
    split at ht
    · next hc =>
      rw [andThen_eq_next] at ht
      obtain ⟨u, hu, ht⟩ := ht
      exact ih u (hstep s u hs hc hu) ht
    · cases ht
      exact hs

/-- A loop of stage TRACK whose steps go on wherever `P` holds, and keep it, completes. -/
theorem trackLoop_completes {P : State → Prop}
    (hstep : ∀ u, P u → u.work.t ≤ (countOfWord u.nl : Int) - 52 → ∃ v, trackStep u = .next v ∧ P v)
    (fuel : Nat) (s : State) (hs : P s) : ∃ t, trackLoop fuel s = .next t ∧ P t := by
  induction fuel generalizing s with
  | zero => exact ⟨s, rfl, hs⟩
  | succ fuel ih =>
    rw [trackLoop_succ]
    split
    · next hc =>
      obtain ⟨u, hu, hP⟩ := hstep s hs hc
      rw [hu, andThen_next]
      exact ih u hP
    · exact ⟨s, rfl, hs⟩

end Sys2Proof.Machine
end

