-- ==== Sys2Proof/Laws/Step.lean ====
section
/-! SUPPORT. What a step can do: the cases of the step, of a host access and of a turn of the engine, and what each
instruction leaves alone. -/

namespace Sys2Proof.Machine

/-! The step. -/

theorem step_access {s : State} {a : Access} {rest : List Input} (h : s.inputs = .access a :: rest) :
    step s = accessStep a { s with inputs := rest } := by
  unfold step
  rw [h]

theorem step_engine {s : State} {rest : List Input} (h : s.inputs = .engine :: rest) :
    step s = engineStep { s with inputs := rest } := by
  unfold step
  rw [h]

theorem step_reset {s : State} {rest : List Input} (h : s.inputs = .reset :: rest) :
    step s = .next { s with inputs := rest }.onReset := by
  unfold step
  rw [h]

theorem step_empty {s : State} (h : s.inputs = []) : step s = engineStep s := by
  unfold step
  rw [h]

/-- Everything a step can be: a host access, a reset, or a turn of the engine. -/
theorem step_cases (s : State) :
    (∃ a rest, s.inputs = .access a :: rest ∧ step s = accessStep a { s with inputs := rest }) ∨
    (∃ rest, s.inputs = .reset :: rest ∧ step s = .next { s with inputs := rest }.onReset) ∨
    ((∀ rest, s.inputs ≠ .reset :: rest) ∧ (∀ a rest, s.inputs ≠ .access a :: rest) ∧
      step s = engineStep { s with inputs := s.inputs.tail }) := by
  rcases hs : s.inputs with _ | ⟨i, rest⟩
  · refine .inr (.inr ⟨by simp, by simp, ?_⟩)
    rw [step_empty hs, List.tail_nil, ← hs]
  · rcases i with a | _ | _
    · exact .inl ⟨a, rest, rfl, step_access hs⟩
    · exact .inr (.inr ⟨by simp, by simp, by rw [step_engine hs, List.tail_cons]⟩)
    · exact .inr (.inl ⟨rest, rfl, step_reset hs⟩)

/-! Host accesses. -/

theorem acceptedAccess_iff (off : BitVec 20) (bytes : Nat) : acceptedAccess off bytes = true ↔ bytes = 4 ∧ off.toNat % 4 = 0 := by
  simp only [acceptedAccess, Bool.and_eq_true, beq_iff_eq]

theorem accessStep_refused {a : Access} {off : BitVec 20} {bytes : Nat}
    (ha : a = .read off bytes ∨ ∃ w, a = .write off bytes w) (h : ¬(bytes = 4 ∧ off.toNat % 4 = 0)) (s : State) :
    accessStep a s = .refused .badAccess := by
  have h' : acceptedAccess off bytes = false := Bool.eq_false_iff.mpr (fun h1 => h ((acceptedAccess_iff _ _).mp h1))
  rcases ha with rfl | ⟨w, rfl⟩ <;> simp only [accessStep, h', Bool.false_eq_true, if_false]

theorem accessStep_read {off : BitVec 20} (h : off.toNat % 4 = 0) (s : State) :
    accessStep (.read off 4) s = .next { s with rdata := some (s.hostRead (targetOf s.cfg off.toNat)) } := by
  have h' := (acceptedAccess_iff off 4).mpr ⟨rfl, h⟩
  simp only [accessStep, h', if_true]

/-- The command register is the only one a write executes. -/
theorem accessStep_write {off : BitVec 20} (h : off.toNat % 4 = 0) (w : Word) (s : State) :
    accessStep (.write off 4 w) s =
      if targetOf s.cfg off.toNat = .cmd then exec (decodeCmd w) s
      else .next (s.hostWrite (targetOf s.cfg off.toNat) w) := by
  have h' := (acceptedAccess_iff off 4).mpr ⟨rfl, h⟩
  simp only [accessStep, h', if_true]
  rcases targetOf s.cfg off.toNat <;> simp

theorem registerAt_cmd {off : Nat} (h : off % 4 = 0) : registerAt off = .cmd ↔ off = 0 := by
  constructor
  · intro hr
    unfold registerAt at hr
    split at hr <;> first | omega | cases hr
  · rintro rfl
    rfl

/-- The command register is at offset 0 (10_state.md R22). -/
theorem targetOf_cmd (cfg : Config) {off : Nat} (h : off % 4 = 0) : targetOf cfg off = .cmd ↔ off = 0 := by
  unfold targetOf
  split
  · exact registerAt_cmd h
  · constructor
    · intro hr
      split at hr
      · simp only at hr
        split at hr <;> cases hr
      · cases hr
    · omega

/-- An element of a window is selected by its offset (10_state.md R41). -/
theorem targetOf_addr (cfg : Config) {w : Window} {k : Nat} (hk : k < 16384) :
    targetOf cfg (w.addr k) = if k < w.count cfg then .elem w k else .reserved := by
  obtain ⟨hw, hi⟩ := windowAt_addr (w := w) (k := k) (j := 0) hk (by omega)
  rw [Nat.add_zero] at hw hi
  have hb := (Window.addr_bounds (w := w) hk).1
  unfold targetOf
  rw [if_neg (by omega), hw]
  simp only [hi]

/-- Everything a host write other than a command can change: an input register, an interrupt enable, an input element, or the
write error bit (20_memory.md R65, R66). -/
theorem hostWrite_frame (s : State) (target : Target) (w : Word) :
    s.hostWrite target w = { s with
      n := (s.hostWrite target w).n, maxlen := (s.hostWrite target w).maxlen, irqen := (s.hostWrite target w).irqen
      werr := (s.hostWrite target w).werr, mem := (s.hostWrite target w).mem } := by
  cases target <;> simp only [State.hostWrite, State.inputWrite]
  · split <;> rfl
  · split <;> rfl
  · split
    · split <;> rfl
    · rfl

/-- While busy a host write other than a command changes an interrupt enable or the write error bit only (R66). -/
theorem hostWrite_busy {s : State} (h : s.busy = true) (target : Target) (w : Word) :
    s.hostWrite target w = { s with irqen := (s.hostWrite target w).irqen, werr := (s.hostWrite target w).werr } := by
  have hw : ∀ u, s.inputWrite u = s.raise .werr := fun u => by simp only [State.inputWrite, h, if_true]
  cases target <;> simp only [State.hostWrite, hw] <;> (try rfl)
  split <;> rfl

/-! Commands. -/

/-- Every instruction a command word decodes to: NOP, ANALYZE, ACK, or one that sets CMDERR (45_host_commands.md R190-R198). -/
theorem exec_command (w : Word) (s : State) :
    (w = 0 ∧ exec (decodeCmd w) s = .next s) ∨ (w = 1 ∧ exec (decodeCmd w) s = execAnalyze s) ∨
      (w = 2 ∧ exec (decodeCmd w) s = execAck s) ∨
      (w ≠ 0 ∧ w ≠ 1 ∧ w ≠ 2 ∧ exec (decodeCmd w) s = .next (s.raise .cmderr)) := by
  by_cases h0 : w = 0
  · subst h0
    exact .inl ⟨rfl, rfl⟩
  by_cases h1 : w = 1
  · subst h1
    exact .inr (.inl ⟨rfl, rfl⟩)
  by_cases h2 : w = 2
  · subst h2
    exact .inr (.inr (.inl ⟨rfl, rfl⟩))
  refine .inr (.inr (.inr ⟨h0, h1, h2, ?_⟩))
  unfold decodeCmd
  split
  · next hm =>
    have hw : w = BitVec.ofNat 32 (cmdOp w).toNat := by
      have h4 := congrArg BitVec.toNat hm
      apply BitVec.eq_of_toNat_eq
      have hlt := w.isLt
      have hz : (0 : BitVec 28).toNat = 0 := rfl
      rw [hz] at h4
      simp only [cmdMbz, cmdOp, BitVec.extractLsb'_toNat, Nat.shiftRight_eq_div_pow, BitVec.toNat_ofNat] at *
      omega
    have hop := (cmdOp w).isLt
    generalize hv : (cmdOp w).toNat = v at hw hop
    unfold decodeOp
    rw [hv]
    have hv0 : v ≠ 0 := fun h => h0 (by rw [hw, h]; rfl)
    have hv1 : v ≠ 1 := fun h => h1 (by rw [hw, h]; rfl)
    have hv2 : v ≠ 2 := fun h => h2 (by rw [hw, h]; rfl)
    split <;> first | rfl | contradiction
  · rfl

/-- Everything ANALYZE does, in the order of 60_exceptions.md R212. -/
theorem execAnalyze_cases (s : State) :
    (s.busy = true ∧ execAnalyze s = .next (s.raise .cmderr)) ∨
    (s.busy = false ∧ (s.cfg.nMax < countOfWord s.n ∨ s.cfg.segMax < countOfWord s.maxlen) ∧
      execAnalyze s = .next (s.raise .parerr)) ∨
    (s.busy = false ∧ countOfWord s.n ≤ s.cfg.nMax ∧ countOfWord s.maxlen ≤ s.cfg.segMax ∧ execAnalyze s = .next s.accept) := by
  unfold execAnalyze
  rcases hb : s.busy with _ | _
  · by_cases hc : s.cfg.nMax < countOfWord s.n ∨ s.cfg.segMax < countOfWord s.maxlen
    · have : s.beyondCapacity = true := by
        rw [State.beyondCapacity, Bool.or_eq_true, decide_eq_true_eq, decide_eq_true_eq]
        exact hc
      exact .inr (.inl ⟨rfl, hc, by simp [this]⟩)
    · have : s.beyondCapacity = false := by
        rw [State.beyondCapacity, Bool.or_eq_false_iff, decide_eq_false_iff_not, decide_eq_false_iff_not]
        omega
      exact .inr (.inr ⟨rfl, by omega, by omega, by simp [this]⟩)
  · exact .inl ⟨rfl, by simp⟩

/-- Everything ACK does. -/
theorem execAck_cases (s : State) :
    (s.busy = true ∧ execAck s = .next (s.raise .cmderr)) ∨ (s.busy = false ∧ execAck s = .next s.acknowledge) := by
  unfold execAck
  rcases hb : s.busy with _ | _ <;> simp

/-! Stages. -/

/-- Everything stage PHASE does when it goes on: a sweep over `PHASE` (40_phase_estimator.md R104). -/
theorem execPhase_next {s t : State} (hn : countOfWord s.nl ≤ s.cfg.nMax) (h : execPhase s = .next t) :
    (∃ f, Swept .phase f s (countOfWord s.nl) t) ∧ s.filled .inI ∧ s.filled .inQ := by
  have hm := s.cfg.nMax_le
  have hk := forRange_keeps (body := phaseSample)
    (P := fun i u => (∃ f, Swept .phase f s i u) ∧ ∀ k, k < i → s.written .inI k = true ∧ s.written .inQ k = true)
    (countOfWord s.nl) 0 s t
    (by
      rintro i u v _ hi ⟨⟨f, hf⟩, hw⟩ hv
      rcases phaseSample_cases i u with ⟨iv, qv, wk, hI, hQ, he⟩ | ⟨_, he⟩
      · rw [he] at hv
        cases hv
        have hs1 := hf.sample_other (w' := .inI) (by simp) (k := i) (by omega) (by omega)
        have hs2 := hf.sample_other (w' := .inQ) (by simp) (k := i) (by omega) (by omega)
        refine ⟨⟨fun k => if k = i then wordOfInt (cordic iv qv) else f k, ?_⟩, fun k hk => ?_⟩
        · have hf' : Swept .phase (fun k => if k = i then wordOfInt (cordic iv qv) else f k) s i u :=
            ⟨hf.frame, fun k hk => by rw [hf.values k hk, if_neg (by omega)], hf.bytes⟩
          have := hf'.next (by omega) wk
          rwa [if_pos rfl] at this
        · by_cases hki : k = i
          · subst hki
            exact ⟨(sample_eq_some (hs1.symm.trans hI)).2, (sample_eq_some (hs2.symm.trans hQ)).2⟩
          · exact hw k (by omega)
      · rw [he] at hv
        cases hv)
    ⟨⟨fun _ => 0, Swept.start _ _ _⟩, fun k hk => by omega⟩ h
  rw [Nat.zero_add] at hk
  exact ⟨hk.1, fun k hk' => (hk.2 k hk').1, fun k hk' => (hk.2 k hk').2⟩

/-- Everything stage DIFF does inside the memory (41_differential_filter.md R121). -/
theorem execDiff_inside {s : State} (hn : countOfWord s.nl ≤ s.cfg.nMax) :
    ∃ t, execDiff s = .next t ∧ Swept .diff (fun i => wordOfInt (s.diffValue i)) s (countOfWord s.nl) t := by
  have hm := s.cfg.nMax_le
  refine sweep_completes (by omega) (fun i u hi hu => ?_)
  obtain ⟨wk, hw⟩ := diffSample_inside (s := u) (i := i) (by rw [hu.cfg]; omega)
  refine ⟨wk, ?_⟩
  rw [hw]
  have e : u.diffValue i = s.diffValue i := by
    simp only [State.diffValue]
    rw [hu.elem_other (w' := .phase) (by simp) (by omega) (by omega),
      hu.elem_other (w' := .phase) (by simp) (by omega) (by omega)]
  rw [e]

/-- Everything stage FILTER does inside the memory (R122, R123). -/
theorem execFilter_inside {s : State} (hn : countOfWord s.nl ≤ s.cfg.nMax) :
    ∃ t, execFilter s = .next t ∧ Swept .filt (fun i => wordOfInt (s.filterValue i)) s (countOfWord s.nl) t := by
  have hm := s.cfg.nMax_le
  refine sweep_completes (by omega) (fun i u hi hu => ?_)
  obtain ⟨wk, hw⟩ := filterSample_inside (s := u) (i := i) (by rw [hu.nl, hu.cfg]; omega) (by rw [hu.cfg]; omega)
  refine ⟨wk, ?_⟩
  rw [hw]
  have e : u.filterValue i = s.filterValue i := by
    simp only [State.filterValue, hu.nl, hu.cfg]
    by_cases hv : HALF_K ≤ i ∧ i + HALF_K < countOfWord s.nl
    · rw [if_pos hv, if_pos hv]
      congr 2
      refine List.map_congr_left (fun j hj => ?_)
      have hj' : j < 101 := by simpa using hj
      rw [hu.elem_other (w' := .diff) (by simp) (by simp only [HALF_K] at *; omega) (by omega)]
    · rw [if_neg hv, if_neg hv]
  rw [e]

/-- Stage ACQUIRE always goes on, and changes `T0` and working registers only (43_timing_tracker.md R152). -/
theorem execAcquire_frame (s : State) :
    ∃ t, execAcquire s = .next t ∧ t = { s with t0 := t.t0, work := t.work } ∧
      50 ≤ countOfWord t.t0 ∧ countOfWord t.t0 ≤ 74 := by
  have hm := s.cfg.nMax_ge
  obtain ⟨u, hu, hf, hb⟩ := forRange_completes (body := acquireOffset)
    (P := fun i u => u = { s with work := u.work } ∧
      ((i = 0 ∧ u.work.bestT = none) ∨ ∃ b : Nat, b < 25 ∧ u.work.bestT = some (50 + (b : Int))))
    25 0 { s with work := { s.work with bestT := none } }
    (by
      rintro i u _ hi ⟨hf, hb⟩
      have hcfg : u.cfg = s.cfg := by rw [hf]
      have hc : u.cost (firstValid + (i : Int)) .forward allTerms =
          some (u.costAt (firstValid + (i : Int)) .forward allTerms) := by
        refine cost_inside (fun k hk => ?_)
        have hk' : k < 10 := by simpa [allTerms] using hk
        rw [hcfg]
        simp only [firstValid, HALF_K, dirSign, N_MIN] at *
        omega
      refine ⟨_, by unfold acquireOffset; simp only [hc]; rfl, ?_, .inr ?_⟩
      · rw [hf]
      · show ∃ b : Nat, b < 25 ∧ (if betterSum u.work _ = true then some (firstValid + (i : Int)) else u.work.bestT) = _
        split
        · exact ⟨i, by omega, rfl⟩
        · next hbt =>
          rcases hb with ⟨_, hb⟩ | hb
          · exact absurd (by simp [betterSum, hb]) hbt
          · exact hb)
    ⟨rfl, .inl ⟨rfl, rfl⟩⟩
  rcases hb with ⟨h0, _⟩ | ⟨b, hb, hbt⟩
  · omega
  · have hT : countOfWord (wordOfInt (u.work.bestT.getD 0)) = 50 + b := by
      rw [hbt]
      have := countOfWord_wordOfInt (v := 50 + (b : Int)) (by omega) (by omega)
      simp only [Option.getD_some]
      omega
    refine ⟨{ u with t0 := wordOfInt (u.work.bestT.getD 0) }, ?_, ?_, ?_⟩
    · unfold execAcquire
      rw [hu, andThen_next]
      rfl
    · rw [hf]
    · show 50 ≤ countOfWord (wordOfInt (u.work.bestT.getD 0)) ∧ countOfWord (wordOfInt (u.work.bestT.getD 0)) ≤ 74
      omega

/-- Everything stage TRACK can change when it goes on: the dibit stream, `NSYM`, the runs and working registers. -/
theorem execTrack_frame {s t : State} (h : execTrack s = .next t) :
    t = { s with mem := t.mem, nsym := t.nsym, runLen := t.runLen, runStart := t.runStart, work := t.work } := by
  unfold execTrack at h
  rw [andThen_eq_next] at h
  obtain ⟨u, hu, h⟩ := h
  have hf := trackLoop_keeps
    (P := fun u => u = { s with mem := u.mem, nsym := u.nsym, runLen := u.runLen, runStart := u.runStart, work := u.work })
    (by
      intro u v hu _ hv
      obtain ⟨hf, _⟩ := trackStep_next hv
      rw [hf, hu])
    _ _ u rfl hu
  simp only [execRunFlush, Host.Outcome.next.injEq] at h
  split at h
  · rw [← h, closeRun_frame, hf]
  · rw [← h]
    exact hf

/-! The engine. -/

/-- Everything a turn of the engine can be. -/
theorem engineStep_cases (s : State) :
    (s.busy = false ∧ engineStep s = .next s) ∨
    (s.busy = true ∧ s.stage = 0 ∧ countOfWord s.nl < N_MIN ∧ engineStep s = .next { s with insuff := true }.complete) ∨
    (s.busy = true ∧ s.stage = 0 ∧ N_MIN ≤ countOfWord s.nl ∧ engineStep s = .next { s with stage := 1 }) ∨
    (s.busy = true ∧ ∃ run : State → Result,
      ((s.stage = 1 ∧ run = execPhase) ∨ (s.stage = 2 ∧ run = execDiff) ∨ (s.stage = 3 ∧ run = execFilter) ∨
        (s.stage = 4 ∧ run = execAcquire) ∨ (s.stage = 5 ∧ run = execTrack) ∨ (s.stage = 6 ∧ run = execExtract)) ∧
      engineStep s = andThen (run s) (fun t => .next t.advance)) ∨
    (s.busy = true ∧ s.stage = 7 ∧ engineStep s = .refused .reservedStage) := by
  have hcase : ∀ c : BitVec 3, c = 0 ∨ c = 1 ∨ c = 2 ∨ c = 3 ∨ c = 4 ∨ c = 5 ∨ c = 6 ∨ c = 7 := by decide
  rcases hb : s.busy with _ | _
  · exact .inl ⟨rfl, by simp [engineStep, hb]⟩
  · rcases hcase s.stage with h | h | h | h | h | h | h | h
    · by_cases hn : countOfWord s.nl < N_MIN
      · exact .inr (.inl ⟨rfl, h, hn, by simp [engineStep, hb, h, hn]⟩)
      · exact .inr (.inr (.inl ⟨rfl, h, by omega, by simp [engineStep, hb, h, hn]⟩))
    · exact .inr (.inr (.inr (.inl ⟨rfl, execPhase, .inl ⟨h, rfl⟩, by
        simp only [engineStep, hb, h]; rfl⟩)))
    · exact .inr (.inr (.inr (.inl ⟨rfl, execDiff, .inr (.inl ⟨h, rfl⟩), by
        simp only [engineStep, hb, h]; rfl⟩)))
    · exact .inr (.inr (.inr (.inl ⟨rfl, execFilter, .inr (.inr (.inl ⟨h, rfl⟩)), by
        simp only [engineStep, hb, h]; rfl⟩)))
    · exact .inr (.inr (.inr (.inl ⟨rfl, execAcquire, .inr (.inr (.inr (.inl ⟨h, rfl⟩))), by
        simp only [engineStep, hb, h]; rfl⟩)))
    · exact .inr (.inr (.inr (.inl ⟨rfl, execTrack, .inr (.inr (.inr (.inr (.inl ⟨h, rfl⟩)))), by
        simp only [engineStep, hb, h]; rfl⟩)))
    · exact .inr (.inr (.inr (.inl ⟨rfl, execExtract, .inr (.inr (.inr (.inr (.inr ⟨h, rfl⟩)))), by
        simp only [engineStep, hb, h]; rfl⟩)))
    · exact .inr (.inr (.inr (.inr ⟨rfl, h, by simp only [engineStep, hb, h]; rfl⟩)))

/-- The advance changes the sequencer, the handshake and the working registers only (45_host_commands.md R194, R195). -/
theorem advance_frame (s : State) :
    s.advance = { s with
      busy := s.advance.busy, done := s.advance.done, stage := s.advance.stage
      work := s.advance.work, ticks := s.ticks + 1 } := by
  unfold State.advance
  simp only
  split <;> rfl

/-! The canonical form (10_state.md R41). -/

/-- An element store keeps the canonical form. -/
theorem setElem_wf {s : State} (h : Memory.wf s.mem) (w : Window) (k : Nat) (v : Word) : Memory.wf (s.setElem w k v).mem :=
  memSetWord_wf h _ _

/-- An element store inside a window lists bytes of elements only. -/
theorem setElem_places {s : State} (h : ∀ p ∈ s.mem, elementOffset s.cfg p.1 = true) {w : Window} {k : Nat}
    (hk : k < w.count s.cfg) (v : Word) : ∀ p ∈ (s.setElem w k v).mem, elementOffset s.cfg p.1 = true := by
  intro p hp
  rcases mem_memSetWord hp with ⟨h1, h2⟩ | hp
  · have hk' : k < 16384 := by
      have := Window.count_le s.cfg w
      omega
    obtain ⟨hw, hi⟩ := windowAt_addr (w := w) (k := k) (j := p.1 - w.addr k) hk' (by omega)
    rw [show w.addr k + (p.1 - w.addr k) = p.1 by omega] at hw hi
    simp only [elementOffset, hw, hi, decide_eq_true_eq]
    exact hk
  · exact h p hp

/-- Every element written stays written. -/
theorem written_setElem {s : State} {w w' : Window} {k k' : Nat} (v : Word) (hk : k < 16384) (hk' : k' < 16384)
    (h : s.written w' k' = true) : (s.setElem w k v).written w' k' = true := by
  rw [written_iff] at *
  by_cases he : w' = w ∧ k' = k
  · obtain ⟨rfl, rfl⟩ := he
    exact ⟨v, stored_setElem_same _ _ _ _⟩
  · rw [stored_setElem_other _ _ hk hk' (by
      by_cases hw : w' = w
      · exact .inr (fun h' => he ⟨hw, h'⟩)
      · exact .inl hw)]
    exact h

/-- Memory at reset lists nothing: it has the canonical form, and no element is written (70_reset_and_hazards.md R231). -/
theorem resetOf_memory (cfg : Config) : (State.resetOf cfg).mem = [] ∧ Memory.wf (State.resetOf cfg).mem :=
  ⟨rfl, List.Pairwise.nil⟩

end Sys2Proof.Machine
end

