-- ==== Sys2Proof/Tests/Slice0.lean ====
section
/-! SUPPORT. Tests: ill-formed terms are refused, written-out words decode, each instruction against the spec's vectors
(95_test_vectors.md, its section in each comment), and a witness for the hypotheses of each obligation. -/

namespace Sys2Proof.Tests

open Sys2Proof.Machine

/-! WellFormed: each check refuses a term that breaks it. -/

theorem test_wf_mbz_zero : (Instr.reservedMbz 0 5).wf = false := by decide
theorem test_wf_mbz_nonzero : (Instr.reservedMbz 1 1).wf = true := by decide
theorem test_wf_cordic_i_low : (Instr.cordic (-8388609) 0).wf = false := by decide
theorem test_wf_cordic_i_high : (Instr.cordic 8388608 0).wf = false := by decide
theorem test_wf_cordic_q_low : (Instr.cordic 0 (-8388609)).wf = false := by decide
theorem test_wf_cordic_q_high : (Instr.cordic 0 8388608).wf = false := by decide
theorem test_wf_cordic_ends : (Instr.cordic (-8388608) 8388607).wf = true := by decide
theorem test_wf_cost_term_ten : (Instr.cost 50 .forward [0, 10]).wf = false := by decide
theorem test_wf_cost_repeated : (Instr.cost 50 .forward [1, 1]).wf = false := by decide
theorem test_wf_cost_falling : (Instr.cost 50 .forward [2, 1]).wf = false := by decide
theorem test_wf_cost_all : (Instr.cost 50 .backward [0, 1, 2, 3, 4, 5, 6, 7, 8, 9]).wf = true := by decide

/-! Decode: words written out from 30_encoding.md R81, R82 (MBZ 31:4, OP 3:0) and 10_state.md R31 (the stage codes). -/

theorem test_decode_nop : decodeTableWord 32 0b0000000000000000000000000000_0000 = some .nop := by decide
theorem test_decode_analyze : decodeTableWord 32 0b0000000000000000000000000000_0001 = some .analyze := by decide
theorem test_decode_ack : decodeTableWord 32 0b0000000000000000000000000000_0010 = some .ack := by decide
theorem test_decode_op3 : decodeTableWord 32 0b0000000000000000000000000000_0011 = some .reservedOp3 := by decide
theorem test_decode_op4 : decodeTableWord 32 0b0000000000000000000000000000_0100 = some .reservedOp4 := by decide
theorem test_decode_op5 : decodeTableWord 32 0b0000000000000000000000000000_0101 = some .reservedOp5 := by decide
theorem test_decode_op6 : decodeTableWord 32 0b0000000000000000000000000000_0110 = some .reservedOp6 := by decide
theorem test_decode_op7 : decodeTableWord 32 0b0000000000000000000000000000_0111 = some .reservedOp7 := by decide
theorem test_decode_op8 : decodeTableWord 32 0b0000000000000000000000000000_1000 = some .reservedOp8 := by decide
theorem test_decode_op9 : decodeTableWord 32 0b0000000000000000000000000000_1001 = some .reservedOp9 := by decide
theorem test_decode_opA : decodeTableWord 32 0b0000000000000000000000000000_1010 = some .reservedOpA := by decide
theorem test_decode_opB : decodeTableWord 32 0b0000000000000000000000000000_1011 = some .reservedOpB := by decide
theorem test_decode_opC : decodeTableWord 32 0b0000000000000000000000000000_1100 = some .reservedOpC := by decide
theorem test_decode_opD : decodeTableWord 32 0b0000000000000000000000000000_1101 = some .reservedOpD := by decide
theorem test_decode_opE : decodeTableWord 32 0b0000000000000000000000000000_1110 = some .reservedOpE := by decide
theorem test_decode_opF : decodeTableWord 32 0b0000000000000000000000000000_1111 = some .reservedOpF := by decide
theorem test_decode_mbz_low : decodeTableWord 32 0b0000000000000000000000000001_0001 = some (.reservedMbz 1 1) := by decide
theorem test_decode_mbz_high : decodeTableWord 32 0b1000000000000000000000000000_0010 = some (.reservedMbz 0x8000000 2) := by
  decide
theorem test_decode_phase : decodeTableWord 8 0b001 = some .phase := by decide
theorem test_decode_diff : decodeTableWord 8 0b010 = some .diff := by decide
theorem test_decode_filter : decodeTableWord 8 0b011 = some .filter := by decide
theorem test_decode_acquire : decodeTableWord 8 0b100 = some .acquire := by decide
theorem test_decode_track : decodeTableWord 8 0b101 = some .track := by decide
theorem test_decode_extract : decodeTableWord 8 0b110 = some .extract := by decide
theorem test_decode_idle : decode (.stage 0) = .error .idleStage := by decide
theorem test_decode_stage7 : decode (.stage 7) = .error .reservedStage := by decide
theorem test_decode_truncated : decodeCmdBytes [1, 0, 0] = .error .truncated := by decide
theorem test_decode_bytes : decodeCmdBytes [0x11, 0x22, 0x33, 0x44, 0x55] = .ok (.reservedMbz 0x4433221 1, [0x55]) := by decide

/-! Small states. -/

/-- What a result's next state shows; none where there is no next state. -/
def shown {α : Type} (r : Result) (f : State → α) : Option α :=
  match r with
  | .next s => some (f s)
  | .fault _ => none
  | .refused _ => none

/-- The test configurations of 95_test_vectors.md: one tap in the middle, `GAIN = 1`. -/
def rawMiddle (tap : Int) : RawConfig where
  kernel := List.replicate 50 0 ++ [tap] ++ List.replicate 50 0
  gain := 1
  quadT := 65536
  sampleBits := 16
  nMax := 16384
  segMax := 16384
  mmioBase := 0

theorem rawMiddle_wf : (rawMiddle 1).wf = true := by decide

/-- Configuration `K1`. -/
def k1 : Config := ⟨rawMiddle 1, rawMiddle_wf⟩

/-- 00_scope.md R6: a configuration that names no parameter but the OPEN ones has R6's values. -/
theorem test_parameter_defaults :
    let c : RawConfig := { kernel := [], gain := 1, mmioBase := 0 }
    (c.quadT, c.sampleBits, c.nMax, c.segMax) = (65536, 16, 16384, 16384) := by decide

/-- The reset state of configuration `K1`. -/
def s0 : State := State.resetOf k1

/-- Words stored in a window from element `k` on. -/
def put (w : Window) : Nat → List Int → State → State
  | _, [], s => s
  | k, v :: vs, s => put w (k + 1) vs (s.setElem w k (wordOfInt v))

/-- The value element `k` of a window reads as. -/
def val (w : Window) (k : Nat) (s : State) : Int := intOfWord (s.elem w k)

/-- The four STATUS outcomes of a word written to CMD in state `s`. -/
def afterCmd (s : State) (w : Word) : Option Word := shown (step { s with inputs := [.access (.write 0 4 w)] }) State.statusWord

/-- The word a read of `off` returns. -/
def readAt (s : State) (off : BitVec 20) : Option Word :=
  (shown (step { s with inputs := [.access (.read off 4)] }) State.rdata).getD none

/-- The ten `FILT` elements a cost at instant `t` reads forward, `first` and nine zeros. -/
def putEvery (t : Nat) (first : Int) (s : State) : State :=
  put .filt (t + 225) [0] <| put .filt (t + 200) [0] <| put .filt (t + 175) [0] <| put .filt (t + 150) [0] <|
    put .filt (t + 125) [0] <| put .filt (t + 100) [0] <| put .filt (t + 75) [0] <| put .filt (t + 50) [0] <|
    put .filt (t + 25) [0] <| put .filt t [first] s

/-! Commands (section 2.8). -/

theorem test_nop : afterCmd { s0 with done := true } 0x0 = some 0x2 := by decide
theorem test_analyze_accepted :
    shown (exec .analyze { s0 with n := 359, maxlen := 300, done := true, t0 := 5 })
      (fun s => (s.statusWord, s.nl, s.ml, s.t0)) = some (0x1, 359, 300, 0) := by decide
theorem test_analyze_parerr : afterCmd { s0 with n := 16385 } 0x1 = some 0x10 := by decide
theorem test_analyze_parerr_maxlen : afterCmd { s0 with n := 359, maxlen := 16385 } 0x1 = some 0x10 := by decide
theorem test_analyze_busy : afterCmd { s0 with busy := true, stage := 3 } 0x1 = some 0x309 := by decide
theorem test_ack :
    afterCmd { s0 with done := true, insuff := true, cmderr := true, parerr := true, werr := true } 0x2 = some 0x0 := by decide
theorem test_ack_busy : afterCmd { s0 with busy := true, stage := 3 } 0x2 = some 0x309 := by decide
theorem test_reserved_op : afterCmd s0 0x5 = some 0x8 := by decide
theorem test_reserved_ops :
    ∀ i ∈ [Instr.reservedOp3, .reservedOp4, .reservedOp5, .reservedOp6, .reservedOp7, .reservedOp8, .reservedOp9, .reservedOpA,
      .reservedOpB, .reservedOpC, .reservedOpD, .reservedOpE, .reservedOpF], shown (exec i s0) (·.cmderr) = some true := by
  decide
theorem test_reserved_mbz : afterCmd s0 0x11 = some 0x8 := by decide

/-! Accesses (section 2.9), the interrupt (section 2.8). -/

theorem test_sample_sign :
    shown (step { s0 with inputs := [.access (.write 0x10000 4 0x0001FFFF)] })
      (fun s => (readAt s 0x10000, s.sample .inI 0)) = some (some 0xFFFFFFFF, some (-1)) := by decide
theorem test_sample_most_negative :
    shown (step { s0 with inputs := [.access (.write 0x10004 4 0x00008000)] }) (fun s => readAt s 0x10004) =
      some (some 0xFFFF8000) := by decide
theorem test_bad_width : shown (step { s0 with inputs := [.access (.read 0x000 2)] }) State.busy = none := by decide
theorem test_bad_alignment : shown (step { s0 with inputs := [.access (.write 0x002 4 1)] }) State.busy = none := by decide
theorem test_reserved_reads :
    [readAt s0 0x000, readAt s0 0x01C, readAt s0 0x050, readAt s0 0x90000] = [some 0, some 0, some 0, some 0] := by decide
theorem test_status_write_ignored : shown (step { s0 with inputs := [.access (.write 0x004 4 0xFFFFFFFF)] })
    (fun s => (s.statusWord, s.n, s.irqen, s.mem)) = some (0, 0, 0, []) := by decide
theorem test_element_offsets :
    (Window.inI.addr 17, Window.segQ.addr 2, targetOf k1 0x03C) = (0x10044, 0x80008, .runStart 3) := by decide
theorem test_busy_write_n :
    shown (step { s0 with busy := true, stage := 3, n := 400, inputs := [.access (.write 0x008 4 5)] })
      (fun s => (s.werr, s.n, s.cmderr)) = some (true, 400, false) := by decide
theorem test_busy_write_irqen :
    shown (step { s0 with busy := true, stage := 3, inputs := [.access (.write 0x010 4 3)] })
      (fun s => (s.irqen, s.werr)) = some (3, false) := by decide
theorem test_busy_read_t0 : readAt { s0 with busy := true, stage := 5, t0 := 50 } 0x014 = some 0 := by decide
theorem test_irq :
    [{ s0 with done := true, irqen := 1 }.irq, { s0 with done := true, irqen := 2 }.irq,
      { s0 with cmderr := true, irqen := 2 }.irq] = [true, false, true] := by decide

/-! Arithmetic and stages PHASE, DIFF, FILTER (sections 2.1 to 2.4). -/

theorem test_tdiv : [tdiv (-7) 2, tdiv 7 (-2), tdiv (-6) 4, tdiv 0 5] = [-3, -3, -1, 0] := by decide
theorem test_asr : [asr (-78) 4, asr (-27) 6, asr (-2) 7] = [-5, -1, -1] := by decide
theorem test_cordic_trace :
    shown (exec (.cordic 0 1000) s0) (fun s => (s.work.x, s.work.y, s.work.z, s.work.phaseOut)) =
      some (1647, 10, 65243, 65243) := by decide
theorem test_cordic_values :
    [cordic 0 0, cordic (-32768) 0, cordic (-5) 5, cordic (-32768) (-32768), cordic 3 (-4), cordic 32767 (-32768),
      cordic (-1000) 1, cordic (-1000) (-1)] = [0, 131072, 98304, -98304, -36704, -32471, 130779, -130779] := by decide
theorem test_phase :
    shown (exec .phase (put .inI 0 [0, 0xFFFD] (put .inQ 0 [1000, 4] { s0 with nl := 2 })))
      (fun s => (val .phase 0 s, val .phase 1 s)) = some (65243, 94368) := by decide
theorem test_phase_unwritten : shown (exec .phase (put .inI 0 [0, 1] (put .inQ 0 [1000] { s0 with nl := 2 }))) id = none := by
  decide
theorem test_wrap_above : shown (exec (.wrap 131073) s0) (fun s => s.work.wrapOut) = some (-131071) := by decide
theorem test_wrap_closed_below : shown (exec (.wrap (-131072)) s0) (fun s => s.work.wrapOut) = some (-131072) := by decide
theorem test_diff :
    shown (exec .diff (put .phase 0 [7, 7, 7, 7, 7, 7, 7, 0, 7, 7, 98304] { s0 with nl := 11 }))
      (fun s => (val .diff 2 s, val .diff 10 s)) = some (0, -98304) := by decide
/-- `KERNEL[j] = 1`, `GAIN = 4`, one entry -6: `acc = -6`, and -1 after the division. -/
theorem test_filter_sum :
    (firSum (fun k => some (if k = 3 then -6 else 0)) (List.replicate 101 1) 0).map (tdiv · 4) = some (-1) := by decide +kernel
/-- `FILT[i] = 0` at `i < 50` and at `i >= Nl - 50`. -/
theorem test_filter_outside :
    shown (exec .filter { s0 with nl := 2 }) (fun s => (s.stored .filt 0, s.stored .filt 1, s.stored .filt 2)) =
      some (some 0, some 0, none) := by decide

/-! Slicer (section 2.5). -/

theorem test_slice_inner : shown (exec (.slice 70000) s0) (fun s => (s.work.dibitOut, s.work.discOut)) = some (0, 4464) := by
  decide
theorem test_slice_outer : shown (exec (.slice (-196022)) s0) (fun s => (s.work.dibitOut, s.work.discOut)) = some (3, 586) := by
  decide
theorem test_slice_boundaries :
    [slice 65536 65536, slice 65536 131072, slice 65536 (-65536), slice 65536 (-131073), slice 65536 300000,
      slice 65536 (-196609), slice 65536 (-1)] =
      [(0, 0), (1, 0), (2, 0), (3, 1), (1, 103392), (3, 1), (2, 1)] := by decide

/-! Tracker (section 2.6, programs P3 and P4). -/

/-- R151 with R140 by hand: `disc(5) + disc(-1) = 5 + 1`. -/
theorem test_cost :
    shown (exec (.cost 50 .forward [0, 1]) (put .filt 50 [5] (put .filt 75 [-1] s0))) (fun s => s.work.costOut) = some 6 := by
  decide
theorem test_cost_backward :
    shown (exec (.cost 75 .backward [0, 1]) (put .filt 50 [5] (put .filt 75 [-2] s0))) (fun s => s.work.costOut) = some 7 := by
  decide
theorem test_gate_rows :
    [gate (some 5) 5 5, gate (some 4) 5 5, gate (some 5) 5 4, gate (some 4) 5 4, gate (some 4) 4 5, gate (some 5) 4 4,
      gate (some 3) 5 4, gate (some 4) 5 3, gate none 5 4, gate none 5 5] =
      [.centre, .early, .late, .centre, .centre, .centre, .early, .late, .late, .centre] := by decide
theorem test_term_sets :
    [termsFor 359 .forward [50, 51], termsFor 359 .forward [99, 100, 101], termsFor 359 .forward [199, 200, 201],
      termsFor 359 .forward [299, 300, 301], termsFor 400 .forward [123, 124, 125], termsFor 400 .backward [324, 325, 326]] =
      [List.range 10, List.range 9, List.range 5, [0], List.range 9, List.range 10] := by decide
theorem test_select_early :
    shown (exec (.select 300) (put .filt 299 [4, 5, 5] { s0 with nl := 359 }))
      (fun s => (s.work.c, s.work.move, s.work.dir, s.work.terms, s.work.cm)) = some (299, .early, .forward, [0], 4) := by decide
theorem test_select_late :
    shown (exec (.select 324) (put .filt 323 [5, 5, 4] { s0 with nl := 376 }))
      (fun s => (s.work.c, s.work.move, s.work.terms)) = some (325, .late, [0]) := by decide
theorem test_emit :
    shown (exec (.emit 75 .early) (put .filt 75 [196608] { s0 with nsym := 1 }))
      (fun s => (s.elem .dibit 1, s.nsym, s.work.t)) = some (0x4B05, 2, 100) := by decide
/-- Runs of section 2.6: dibit 2 at instant 100 closes the run of two 0s that began at instant 50. -/
theorem test_run_update :
    shown (exec (.runUpdate 2 100) { s0 with work := { s0.work with curValid := true, curLen := 2, curStart := 38 } })
      (fun s => (s.runLen, s.runStart.d0, s.work.curD, s.work.curLen, s.work.curStart)) =
      some (⟨2, 0, 0, 0⟩, 38, 2, 1, 88) := by decide
theorem test_run_close_not_longer :
    shown (exec .runClose { s0 with
        runLen := ⟨2, 0, 2, 0⟩, runStart := ⟨38, 0, 88, 0⟩
        work := { s0.work with curValid := true, curLen := 2, curStart := 138 } })
      (fun s => (s.runLen.d0, s.runStart.d0)) = some (2, 38) := by decide
theorem test_run_flush :
    shown (exec .runFlush { s0 with
        runLen := ⟨0, 7, 0, 0⟩, runStart := ⟨0, 39, 0, 0⟩
        work := { s0.work with curValid := true, curD := 3, curLen := 5, curStart := 212 } })
      (fun s => (s.runLen, s.runStart)) = some (⟨0, 7, 0, 5⟩, ⟨0, 39, 0, 212⟩) := by decide
theorem test_run_flush_nothing_open : shown (exec .runFlush { s0 with work := { s0.work with curLen := 9 } }) (·.runLen) =
    some ⟨0, 0, 0, 0⟩ := by decide
/-- Sums `[7, 5, 5, ...]`: offset 1 replaces offset 0, offset 2 does not replace offset 1. -/
theorem test_acquire_smaller_replaces :
    shown (acquireOffset 1 (putEvery 51 5 { s0 with work := { s0.work with bestT := some 50, bestS := 7 } }))
      (fun s => (s.work.bestT, s.work.bestS)) = some (some 51, 5) := by decide +kernel
theorem test_acquire_equal_does_not :
    shown (acquireOffset 2 (putEvery 52 5 { s0 with work := { s0.work with bestT := some 51, bestS := 5 } }))
      (fun s => (s.work.bestT, s.work.bestS)) = some (some 51, 5) := by decide +kernel
/-- Stage TRACK by hand (R153 to R163): `FILT` 0 on 50..77, `Nl = 128`: instants 50 and 75, both centre, both dibit 0. -/
theorem test_track :
    shown (exec .track (put .filt 50 (List.replicate 28 0) { s0 with nl := 128, t0 := 50 }))
      (fun s => (s.nsym, s.elem .dibit 0, s.elem .dibit 1, s.runLen, s.runStart)) =
      some (2, 0x3200, 0x4B00, ⟨2, 0, 0, 0⟩, ⟨38, 0, 0, 0⟩) := by decide +kernel

/-! Segments (section 2.7). -/

/-- By hand (R180): the span `[-20, 5)` clipped to `[0, 5)`. -/
theorem test_extract_clipped_start :
    shown (exec .extract (put .inI 0 [1, 1, 1, 1, 3] (put .inQ 0 [2, 2, 2, 2, 4] { s0 with
        nl := 1000, ml := 16384, runLen := ⟨1, 0, 0, 0⟩, runStart := ⟨wordOfInt (-20), 0, 0, 0⟩ })))
      (fun s => (s.segLen, val .segI 4 s, val .segQ 4 s, s.written .segI 5)) = some (⟨5, 0, 0, 0⟩, 3, 4, false) := by
  decide +kernel
theorem test_extract_no_capacity :
    shown (exec .extract { s0 with nl := 1000, ml := 0, runLen := ⟨11, 0, 0, 0⟩, runStart := ⟨38, 0, 0, 0⟩ }) (·.segLen) =
      some ⟨0, 0, 0, 0⟩ := by decide
/-- By hand (R180): the span `[997, 1022)` clipped to `[997, 1000)`, copied after the two samples already there. -/
theorem test_seg_copy_clipped_end :
    shown (exec (.segCopy 3) (put .inI 997 [5, 6, 7] (put .inQ 997 [8, 9, 10] { s0 with
        nl := 1000, ml := 16384, runLen := ⟨0, 0, 0, 1⟩, runStart := ⟨0, 0, 0, 997⟩, work := { s0.work with used := 2 } })))
      (fun s => (s.segLen, val .segI 4 s, val .segQ 2 s, s.work.used)) = some (⟨0, 0, 0, 3⟩, 7, 8, 5) := by decide +kernel

/-! Every encodable row is the first instruction after reset where its word is placed. -/

theorem test_fetch_commands :
    ∀ w ∈ [0x0, 0x1, 0x2, 0x3, 0x4, 0x5, 0x6, 0x7, 0x8, 0x9, 0xA, 0xB, 0xC, 0xD, 0xE, 0xF, 0x10],
      (shown (step (State.reset.withFetchWord 32 w)) (·.stage)) = some 0 := by decide
theorem test_fetch_stages :
    ∀ p ∈ [(1, 2), (2, 3), (3, 4), (4, 5), (5, 6), (6, 0)],
      (shown (step (State.reset.withFetchWord 8 p.1)) (·.stage)) = some (BitVec.ofNat 3 p.2) := by decide

/-! Witnesses: states that meet the hypotheses of each obligation, every clause of its own at an end of its range. -/

/-- The first `n` elements of a window all written with `v`. -/
def fill (w : Window) (v : Int) : Nat → State → State
  | 0, s => s
  | n + 1, s => (fill w v n s).setElem w n (wordOfInt v)

theorem fill_frame (w : Window) (v : Int) (n : Nat) (s : State) : fill w v n s = { s with mem := (fill w v n s).mem } := by
  induction n with
  | zero => rfl
  | succ n ih => rw [fill, ih]; rfl

theorem fill_stored {w : Window} {v : Int} {n k : Nat} (s : State) (hn : n ≤ 16384) (hk : k < n) :
    (fill w v n s).stored w k = some (wordOfInt v) := by
  induction n with
  | zero => omega
  | succ n ih =>
    by_cases he : k = n
    · subst he
      exact stored_setElem_same _ _ _ _
    · rw [fill, stored_setElem_other _ _ (by omega) (by omega) (.inr he)]
      exact ih (by omega) (by omega)

theorem fill_stored_other {w w' : Window} (v : Int) {n k : Nat} (s : State) (hn : n ≤ 16384) (hk : k < 16384) (h : w' ≠ w) :
    (fill w v n s).stored w' k = s.stored w' k := by
  induction n with
  | zero => rfl
  | succ n ih =>
    rw [fill, stored_setElem_other _ _ (by omega) hk (.inl h)]
    exact ih (by omega)

theorem fill_inv {w : Window} (v : Int) {n : Nat} {s : State} (hn : n ≤ w.count s.cfg) (h : s.Inv) : (fill w v n s).Inv := by
  have hm : Memory.wf (fill w v n s).mem ∧ ∀ p ∈ (fill w v n s).mem, elementOffset s.cfg p.1 = true := by
    induction n with
    | zero => exact ⟨h.memory, h.places⟩
    | succ n ih =>
      have hi := ih (by omega)
      have hc : (fill w v n s).cfg = s.cfg := by rw [fill_frame]
      refine ⟨setElem_wf hi.1 _ _ _, ?_⟩
      have := setElem_places (s := fill w v n s) (by rw [hc]; exact hi.2) (w := w) (k := n) (by rw [hc]; omega) (wordOfInt v)
      rw [hc] at this
      exact this
  rw [fill_frame]
  exact ⟨hm.1, hm.2, h.stageCode, h.idleStage, h.handshake, h.insuffDone, h.capacity, h.sufficient⟩

/-- A constant carrier in the first `n` samples (program P3). -/
@[irreducible] def loaded (n : Nat) (s : State) : State := fill .inQ 0 n (fill .inI 1000 n s)

theorem loaded_frame (n : Nat) (s : State) : loaded n s = { s with mem := (loaded n s).mem } := by
  unfold loaded
  rw [fill_frame .inQ, fill_frame .inI]

theorem loaded_written {n k : Nat} (s : State) (hn : n ≤ 16384) (hk : k < n) :
    (loaded n s).written .inI k = true ∧ (loaded n s).written .inQ k = true := by
  unfold loaded
  refine ⟨written_iff.mpr ⟨wordOfInt 1000, ?_⟩, written_iff.mpr ⟨_, fill_stored _ hn hk⟩⟩
  rw [fill_stored_other _ _ hn (by omega) (by simp), fill_stored _ hn hk]

/-- The carrier's samples, whatever else the state holds. -/
theorem loaded_sample {n k : Nat} (s : State) (hn : n ≤ s.cfg.nMax) (hk : k < n) :
    (loaded n s).sample .inI k = some (sext s.cfg.sampleBits (wordOfInt 1000)) ∧
      (loaded n s).sample .inQ k = some (sext s.cfg.sampleBits (wordOfInt 0)) := by
  have hm := s.cfg.nMax_le
  have hc : (loaded n s).cfg = s.cfg := by rw [loaded_frame]
  have hI : (loaded n s).stored .inI k = some (wordOfInt 1000) := by
    unfold loaded
    rw [fill_stored_other _ _ (by omega) (by omega) (by simp), fill_stored _ (by omega) hk]
  have hQ : (loaded n s).stored .inQ k = some (wordOfInt 0) := by
    unfold loaded
    exact fill_stored _ (by omega) hk
  have hk' : k < s.cfg.nMax := by omega
  simp only [State.sample, Window.count, hc, hI, hQ, hk', if_true, Option.map_some, and_self]

theorem loaded_inv {n : Nat} {s : State} (hn : n ≤ s.cfg.nMax) (h : s.Inv) : (loaded n s).Inv := by
  have hc : (fill .inI 1000 n s).cfg = s.cfg := by rw [fill_frame]
  unfold loaded
  exact fill_inv 0 (by rw [hc]; exact hn) (fill_inv 1000 hn h)

/-- An idle state of a configuration with `N` and `MAXLEN` written. -/
def idleIn (c : Config) (n maxlen : Word) : State := { State.resetOf c with n := n, maxlen := maxlen }

theorem idleIn_inv (c : Config) (n maxlen : Word) : (idleIn c n maxlen).Inv :=
  ⟨List.Pairwise.nil, nofun, Nat.zero_le _, fun _ => rfl, nofun, nofun, nofun, fun h => absurd rfl h⟩

/-- An idle state of configuration `K1`. -/
abbrev idle (n maxlen : Word) : State := idleIn k1 n maxlen

theorem idle_inv (n maxlen : Word) : (idle n maxlen).Inv := idleIn_inv k1 n maxlen

/-- A running analysis of `N = 359` samples in stage `c`, nothing written. -/
def running (c : BitVec 3) : State := { s0 with busy := true, stage := c, n := 359, nl := 359, t0 := 50 }

theorem running_inv {c : BitVec 3} (h : c.toNat ≤ 6) : (running c).Inv :=
  ⟨List.Pairwise.nil, nofun, h, nofun, nofun, nofun,
    fun _ => (by decide : 359 ≤ k1.nMax ∧ 0 ≤ k1.segMax), fun _ => Nat.le_refl 359⟩

theorem witness_ResetInputGivesResetState : { running 3 with inputs := [.reset, .engine] }.inputs = .reset :: [.engine] := rfl

theorem witness_ConfigurationIsChecked_met :
    (rawMiddle 1).kernel.length = 101 ∧ (rawMiddle 1).mmioBase % 1048576 = 0 ∧
      ((rawMiddle 1).gain ≠ 0 ∧ 0 < (rawMiddle 1).quadT ∧ 2 ≤ (rawMiddle 1).sampleBits ∧ (rawMiddle 1).sampleBits ≤ 24 ∧
        359 ≤ (rawMiddle 1).nMax ∧ (rawMiddle 1).nMax ≤ 16384 ∧ (rawMiddle 1).segMax ≤ 16384 ∧
        131072 * ((rawMiddle 1).kernel.map Int.natAbs).sum < 2147483648 * (rawMiddle 1).gain.natAbs) := by decide
/-- The tap 16384 is the first the bound of R7 refuses for `GAIN = 1`. -/
theorem witness_ConfigurationIsChecked_unmet :
    (rawMiddle 16384).kernel.length = 101 ∧ (rawMiddle 16384).mmioBase % 1048576 = 0 ∧
      ¬131072 * ((rawMiddle 16384).kernel.map Int.natAbs).sum < 2147483648 * (rawMiddle 16384).gain.natAbs := by decide
theorem test_configuration_refused : bootWith (rawMiddle 16384) = .refused .badConfig := by rfl

theorem witness_ConfigurationNeverChanges : step (running 0) = .next { running 0 with stage := 1 } := rfl

theorem witness_WindowSelectsOffset :
    ((rawMiddle 1).mmioBase ≤ 0xFFFFF ∧ 0xFFFFF < (rawMiddle 1).mmioBase + 0x100000) ∧
      ¬((rawMiddle 1).mmioBase ≤ 0x100000 ∧ 0x100000 < (rawMiddle 1).mmioBase + 0x100000) := by decide
theorem witness_OnlyAlignedWordsAccepted :
    (4 = 4 ∧ (0xFFFFC : BitVec 20).toNat % 4 = 0) ∧ ¬(4 = 4 ∧ (0x002 : BitVec 20).toNat % 4 = 0) ∧
      ¬(2 = 4 ∧ (0x000 : BitVec 20).toNat % 4 = 0) := by decide
theorem witness_ReadsHaveNoSideEffect :
    (0x014 : BitVec 20).toNat % 4 = 0 ∧ { s0 with inputs := [.access (.read 0x014 4), .access (.read 0x014 4)] }.inputs =
      .access (.read 0x014 4) :: .access (.read 0x014 4) :: [] := ⟨by decide, rfl⟩
theorem witness_BusyReadsHideResults :
    (put .inI 16383 [-1] (running 3)).busy = true ∧ Window.inI.isInput = true ∧
      16383 < (put .inI 16383 [-1] (running 3)).cfg.nMax ∧
      (put .inI 16383 [-1] (running 3)).stored .inI 16383 = some 0xFFFFFFFF ∧
      (put .inI 16383 [-1] (running 3)).stored .inI 16382 = none ∧ Window.segQ.isInput = false ∧
      16383 < Window.segQ.count (put .inI 16383 [-1] (running 3)).cfg := by decide
theorem witness_IdleReadsReturnStoredWords :
    (put .inI 16383 [-1] s0).busy = false ∧ 16383 < Window.inI.count (put .inI 16383 [-1] s0).cfg ∧
      (put .inI 16383 [-1] s0).stored .inI 16383 = some 0xFFFFFFFF ∧
      16383 < Window.dibit.count (put .inI 16383 [-1] s0).cfg ∧ (put .inI 16383 [-1] s0).stored .dibit 16383 = none := by decide

/-- A configuration with memories shorter than their windows. -/
def rawShort : RawConfig := { rawMiddle 1 with nMax := 359, segMax := 10 }

theorem rawShort_wf : rawShort.wf = true := by decide

theorem witness_ReservedOffsetsReadZero :
    (0x01C < 0x100000 ∧ 0x01C % 4 = 0) ∧ (0xFFFC < 0x100000 ∧ 0xFFFC % 4 = 0 ∧ 0x050 ≤ 0xFFFC) ∧
      (0xFFFFC < 0x100000 ∧ 0xFFFFC % 4 = 0 ∧ 0x90000 ≤ 0xFFFFC) ∧
      (0x70028 % 4 = 0 ∧ Window.segI.count ⟨rawShort, rawShort_wf⟩ ≤ 10 ∧ 10 < 16384 ∧ 0x70028 = Window.segI.addr 10) := by
  decide
theorem witness_IdleWritesTakeEffect :
    s0.busy = false ∧ (Window.inQ.isInput = true ∧ 16383 < s0.cfg.nMax) ∧
      (0x004 < 0x100000 ∧ 0x004 % 4 = 0 ∧ 0x004 ∉ [0x000, 0x008, 0x00C, 0x010]) := by decide
theorem witness_IdleWritesTakeEffect_elsewhere (w : Window) (k : Nat) (h : k < s0.cfg.nMax) : 0x004 ≠ w.addr k := by
  have := (Window.addr_bounds (w := w) (k := k) (Nat.lt_of_lt_of_le h s0.cfg.nMax_le)).1
  omega
theorem witness_BusyWritesSetWerr :
    (running 3).busy = true ∧ (Window.inQ.isInput = true ∧ 16383 < (running 3).cfg.nMax) ∧
      (0x014 < 0x100000 ∧ 0x014 % 4 = 0 ∧ 0x014 ∉ [0x000, 0x008, 0x00C, 0x010]) := by decide
theorem witness_BusyWritesSetWerr_elsewhere (w : Window) (k : Nat) (h : k < (running 3).cfg.nMax) : 0x014 ≠ w.addr k := by
  have := (Window.addr_bounds (w := w) (k := k) (Nat.lt_of_lt_of_le h (running 3).cfg.nMax_le)).1
  omega
theorem witness_SampleReadsBackSignExtended : s0.busy = false ∧ Window.inI.isInput = true ∧ 16383 < s0.cfg.nMax := by decide
theorem witness_ElementsAreLittleEndian : Memory.wf s0.mem ∧ 3 < 4 := by decide

theorem witness_AnalyzeIsAccepted :
    (idle 16384 16384).busy = false ∧ countOfWord (idle 16384 16384).n ≤ (idle 16384 16384).cfg.nMax ∧
      countOfWord (idle 16384 16384).maxlen ≤ (idle 16384 16384).cfg.segMax := by decide
theorem witness_AnalyzeBeyondCapacityRefused :
    (idle 16385 0).busy = false ∧ (idle 16385 0).cfg.nMax < countOfWord (idle 16385 0).n ∧
      (idle 0 16385).busy = false ∧ (idle 0 16385).cfg.segMax < countOfWord (idle 0 16385).maxlen := by decide
theorem witness_CommandWhileBusyRefused : (running 6).busy = true := rfl
theorem witness_AckClearsReportedBits : (idle 0 0).busy = false := rfl
theorem witness_InterruptFollowsStatus :
    (idle 0 0).busy = false ∧ ({ idle 0 0 with done := true, insuff := true } : State).insuff = true := ⟨rfl, rfl⟩
theorem witness_ReservedWordsSetCmdErr :
    ((0x3 : Word) ≠ 0x0 ∧ (0x3 : Word) ≠ 0x1 ∧ (0x3 : Word) ≠ 0x2) ∧
      ((0xFFFFFFFF : Word) ≠ 0x0 ∧ (0xFFFFFFFF : Word) ≠ 0x1 ∧ (0xFFFFFFFF : Word) ≠ 0x2) := by decide

/-- A sticky bit under a NOP. -/
theorem witness_ErrorBitsAreSticky_kept :
    ∃ t, step { s0 with cmderr := true, parerr := true, werr := true, inputs := [.access (.write 0 4 0)] } = .next t ∧
      t.cmderr = true ∧ t.parerr = true ∧ t.werr = true := ⟨_, rfl, rfl, rfl, rfl⟩
theorem witness_ErrorBitsAreSticky_cmderr :
    ∃ t, step { running 3 with inputs := [.access (.write 0 4 1)] } = .next t ∧ t.cmderr = true := ⟨_, rfl, rfl⟩
theorem witness_ErrorBitsAreSticky_parerr :
    ∃ t, step { idle 16385 0 with inputs := [.access (.write 0 4 1)] } = .next t ∧ t.parerr = true := ⟨_, rfl, rfl⟩
theorem witness_ErrorBitsAreSticky_werr :
    ∃ t, step { running 3 with inputs := [.access (.write 0x2FFFC 4 1)] } = .next t ∧ t.werr = true := ⟨_, rfl, rfl⟩

theorem witness_StepRunsFetchedInstruction_command :
    { s0 with inputs := [.access (.write 0 4 0xF)] }.fetched = some (.cmd 0xF) ∧ decode (.cmd 0xF) = .ok .reservedOpF :=
  ⟨rfl, rfl⟩
theorem witness_StepRunsFetchedInstruction_stage :
    (running 6).fetched = some (.stage 6) ∧ { running 1 with inputs := [.engine] }.fetched = some (.stage 1) ∧
      decode (.stage 6) = .ok .extract := ⟨rfl, rfl, rfl⟩

theorem witness_InsufficientDataCompletes :
    (idle 358 16384).Inv ∧ (idle 358 16384).busy = false ∧ countOfWord (idle 358 16384).n < 359 ∧
      countOfWord (idle 358 16384).maxlen ≤ (idle 358 16384).cfg.segMax := ⟨idle_inv _ _, rfl, by decide, by decide⟩
theorem witness_UnwrittenInputFaults :
    (idle 359 0).Inv ∧ (idle 359 0).busy = false ∧ countOfWord (idle 359 0).n ≤ (idle 359 0).cfg.nMax ∧
      countOfWord (idle 359 0).maxlen ≤ (idle 359 0).cfg.segMax ∧ 359 ≤ countOfWord (idle 359 0).n ∧
      358 < countOfWord (idle 359 0).n ∧ (idle 359 0).written .inI 358 = false :=
  ⟨idle_inv _ _, rfl, by decide, by decide, by decide, by decide, by decide⟩
theorem witness_UnwrittenInputFaults_insufficient :
    (idle 358 0).Inv ∧ (idle 358 0).busy = false ∧ countOfWord (idle 358 0).n ≤ (idle 358 0).cfg.nMax ∧
      countOfWord (idle 358 0).maxlen ≤ (idle 358 0).cfg.segMax ∧ countOfWord (idle 358 0).n < 359 :=
  ⟨idle_inv _ _, rfl, by decide, by decide, by decide⟩

theorem witness_StagesRunInOrder_insufficient :
    ∃ s t : State, s.Inv ∧ s.busy = true ∧ engineStep s = .next t ∧ s.stage = 0 ∧ countOfWord s.nl < 359 := by
  refine ⟨{ running 0 with nl := 358 }, _, ?_, rfl, rfl, rfl, by decide⟩
  exact ⟨List.Pairwise.nil, nofun, by decide, nofun, by decide, by decide, fun _ => by decide, fun h => absurd rfl h⟩
theorem witness_StagesRunInOrder_first :
    ∃ t, (running 0).Inv ∧ (running 0).busy = true ∧ engineStep (running 0) = .next t ∧ (running 0).stage = 0 ∧
      359 ≤ countOfWord (running 0).nl := ⟨_, running_inv (by decide), rfl, rfl, rfl, by decide⟩
theorem witness_StagesRunInOrder_middle :
    ∃ t, (running 5).Inv ∧ (running 4).Inv ∧ (running 4).busy = true ∧ engineStep (running 4) = .next t ∧
      1 ≤ (running 4).stage.toNat ∧ (running 4).stage.toNat ≤ 5 := by
  obtain ⟨t, ht, _⟩ := execAcquire_frame (running 4)
  refine ⟨t.advance, running_inv (by decide), running_inv (by decide), rfl, ?_, by decide, by decide⟩
  show andThen (execAcquire (running 4)) (fun u => .next u.advance) = _
  rw [ht, andThen_next]
theorem witness_StagesRunInOrder_last :
    ∃ t, (running 6).Inv ∧ (running 6).busy = true ∧ engineStep (running 6) = .next t ∧ (running 6).stage.toNat = 6 :=
  ⟨_, running_inv (by decide), rfl, rfl, by decide⟩
theorem witness_AccessesNeverDisturbAnalysis :
    ∃ t, (running 3).busy = true ∧ { running 3 with inputs := [.access (.write 0 4 2)] }.inputs = .access (.write 0 4 2) :: [] ∧
      step { running 3 with inputs := [.access (.write 0 4 2)] } = .next t ∧ t.cmderr = true := ⟨_, rfl, rfl, rfl, rfl⟩
theorem witness_RunningInputsAreFrozen :
    ∃ t, step { running 3 with inputs := [.access (.write 0x008 4 7)] } = .next t ∧ (running 3).busy = true := ⟨_, rfl, rfl⟩
theorem witness_ResultsStayWhileIdle :
    ∃ t, step { idle 359 0 with inputs := [.access (.write 0 4 1)] } = .next t ∧ (idle 359 0).busy = false ∧
      Window.segI.isInput = false ∧ 16383 < Window.segI.count (idle 359 0).cfg := ⟨_, rfl, rfl, rfl, by decide⟩

theorem witness_CordicFollowsRotations :
    (0 ≤ (0 : Int) ∧ 0 ≤ (0 : Int)) ∧ ((-1 : Int) < 0 ∧ 0 ≤ (0 : Int)) ∧ ((-1 : Int) < 0 ∧ (-1 : Int) < 0) ∧
      (0 ≤ (0 : Int) ∧ (-1 : Int) < 0) ∧ 7 < 8 := by decide
theorem witness_CordicExactCasesAndRange : 0 < (1 : Int) ∧ (1 : Int) ≠ 0 := by decide

theorem witness_PhaseStageComputesEverySample :
    countOfWord (loaded 359 (running 1)).nl ≤ (loaded 359 (running 1)).cfg.nMax ∧ (loaded 359 (running 1)).filled .inI ∧
      (loaded 359 (running 1)).filled .inQ ∧ 358 < countOfWord (loaded 359 (running 1)).nl := by
  have hn : countOfWord (loaded 359 (running 1)).nl = 359 := by
    rw [loaded_frame]
    rfl
  have hc : (loaded 359 (running 1)).cfg = k1 := by
    rw [loaded_frame]
    rfl
  rw [hn, hc]
  refine ⟨by decide, fun k hk => ?_, fun k hk => ?_, by decide⟩
  · exact (loaded_written _ (by omega) (by rwa [hn] at hk)).1
  · exact (loaded_written _ (by omega) (by rwa [hn] at hk)).2
theorem witness_PhaseStageComputesEverySample_unwritten :
    countOfWord (running 1).nl ≤ (running 1).cfg.nMax ∧ 358 < countOfWord (running 1).nl ∧
      (running 1).written .inQ 358 = false := by decide
theorem witness_DiffStageWrapsLaggedDifference : countOfWord (running 2).nl ≤ (running 2).cfg.nMax ∧ 358 < countOfWord (running 2).nl := by
  decide
theorem witness_DifferencesStayWithinHalfTurn :
    ∃ t, countOfWord (put .inI 0 [1, 2, -3, 4] (put .inQ 0 [0, 5, 6, 7] { s0 with nl := 4 })).nl ≤ k1.nMax ∧
      andThen (exec .phase (put .inI 0 [1, 2, -3, 4] (put .inQ 0 [0, 5, 6, 7] { s0 with nl := 4 }))) (exec .diff) = .next t ∧
      3 < countOfWord (put .inI 0 [1, 2, -3, 4] (put .inQ 0 [0, 5, 6, 7] { s0 with nl := 4 })).nl := by
  refine ⟨_, by decide, rfl, by decide⟩
theorem witness_FilterStageIsMatchedFilter :
    countOfWord (running 3).nl ≤ (running 3).cfg.nMax ∧ 308 < countOfWord (running 3).nl ∧
      (50 ≤ 308 ∧ 308 + 50 < countOfWord (running 3).nl) := by decide
theorem witness_FilteredPhaseFitsWord :
    ∃ s t : State, countOfWord s.nl ≤ s.cfg.nMax ∧ exec .filter s = .next t ∧
      (∀ i, i < countOfWord s.nl → -131072 ≤ intOfWord (s.elem .diff i) ∧ intOfWord (s.elem .diff i) ≤ 131072) ∧
      (50 ≤ 308 ∧ 308 + 50 < countOfWord s.nl) := by
  have hn : countOfWord (fill .diff 131072 359 (running 3)).nl = 359 := by
    rw [fill_frame]
    rfl
  have hc : (fill .diff 131072 359 (running 3)).cfg = k1 := by
    rw [fill_frame]
    rfl
  have hl : countOfWord (fill .diff 131072 359 (running 3)).nl ≤ (fill .diff 131072 359 (running 3)).cfg.nMax := by
    rw [hn, hc]
    decide
  obtain ⟨t, ht, _⟩ := execFilter_inside hl
  refine ⟨_, t, hl, ht, fun i hi => ?_, by rw [hn]; decide⟩
  rw [elem_of_stored (fill_stored _ (by omega) (by rwa [hn] at hi))]
  decide
theorem witness_SliceBoundaries :
    0 < (1 : Int) ∧ (-3 * 1 ≤ (2 : Int) ∧ (2 : Int) < 3 * 1) ∧ 3 * 1 ≤ (3 : Int) ∧ (-4 : Int) < -3 * 1 ∧ (-3 : Int) < -2 * 1 ∧
      (-2 * 1 ≤ (-1 : Int) ∧ (-1 : Int) < 0) ∧ (0 ≤ (1 : Int) ∧ (1 : Int) < 2 * 1) := by decide

/-- The instants at both ends of the range of R155: 50, 51, 324, 325 and `Nl - 52`. -/
theorem witness_SelectFollowsGate :
    countOfWord (running 5).nl ≤ (running 5).cfg.nMax ∧
      ∀ t ∈ [(50 : Int), 51, 307], 50 ≤ t ∧ t ≤ (countOfWord (running 5).nl : Int) - 52 := by decide
theorem witness_SelectFollowsGate_backward :
    countOfWord { running 5 with nl := 16384 }.nl ≤ (running 5).cfg.nMax ∧
      ∀ t ∈ [(324 : Int), 325, 16332], 50 ≤ t ∧ t ≤ (countOfWord { running 5 with nl := 16384 }.nl : Int) - 52 := by decide
/-- Where the direction turns, and at the last instant of a short input. -/
theorem witness_TermSetsAreInitialSegments :
    countOfWord { running 5 with nl := 16384 }.nl ≤ (running 5).cfg.nMax ∧
      (∀ t ∈ [(50 : Int), 324, 325, 16332], 50 ≤ t ∧ t ≤ (countOfWord { running 5 with nl := 16384 }.nl : Int) - 52) ∧
      countOfWord (running 5).nl ≤ (running 5).cfg.nMax ∧ (307 : Int) ≤ (countOfWord (running 5).nl : Int) - 52 := by decide
theorem witness_EmitWritesDibitWord :
    0 ≤ (16383 : Int) ∧ (16383 : Int) < (running 5).cfg.nMax ∧ countOfWord { running 5 with nsym := 16383 }.nsym < 16384 := by
  decide
theorem witness_RunTrackingRules :
    let s := { running 5 with work := { resetWork with curValid := true, curLen := 1 } }
    countOfWord (s.runLen.get s.work.curD) < s.work.curLen ∧ s.work.curValid = true ∧ (1 : Dibit) ≠ s.work.curD ∧
      (0 : Dibit) = s.work.curD ∧ (running 5).work.curValid = false ∧
      ¬countOfWord ((running 5).runLen.get (running 5).work.curD) < (running 5).work.curLen := by decide
/-- The hypotheses of the four statements about stage TRACK, at both ends of `T0`. -/
theorem witness_TrackInstantSequence :
    (359 ≤ countOfWord (running 5).nl ∧ countOfWord (running 5).nl ≤ (running 5).cfg.nMax ∧
      50 ≤ countOfWord (running 5).t0 ∧ countOfWord (running 5).t0 ≤ 74) ∧
      50 ≤ countOfWord { running 5 with t0 := 74 }.t0 ∧ countOfWord { running 5 with t0 := 74 }.t0 ≤ 74 := by decide
theorem witness_TrackFollowsLoop :
    359 ≤ countOfWord { running 5 with nl := 16384 }.nl ∧
      countOfWord { running 5 with nl := 16384 }.nl ≤ (running 5).cfg.nMax ∧
      50 ≤ countOfWord (running 5).t0 ∧ countOfWord (running 5).t0 ≤ 74 := by decide
theorem witness_TrackRecordsLongestRuns :
    359 ≤ countOfWord (running 5).nl ∧ countOfWord (running 5).nl ≤ (running 5).cfg.nMax ∧
      50 ≤ countOfWord (running 5).t0 ∧ countOfWord (running 5).t0 ≤ 74 ∧ (running 5).runLen = ⟨0, 0, 0, 0⟩ ∧
      (running 5).runStart = ⟨0, 0, 0, 0⟩ := by decide
/-- Memories that differ in `FILT[49]`, `FILT[309]` and a sample only. -/
theorem witness_TrackerReadsValidRangeOnly (k : Nat) (h1 : 50 ≤ k) (h2 : k + 51 ≤ countOfWord (running 5).nl) :
    (((running 5).setElem .filt 49 1).setElem .filt 309 1).stored .filt k = (running 5).stored .filt k := by
  have hn : countOfWord (running 5).nl = 359 := rfl
  rw [stored_setElem_other _ _ (by omega) (by omega) (.inr (by omega)),
    stored_setElem_other _ _ (by omega) (by omega) (.inr (by omega))]

theorem witness_FunctionRowsLatchResults :
    ∀ k ∈ [0, 9], 0 ≤ (74 : Int) + dirSign .forward * (25 * (k : Nat)) ∧
      (74 : Int) + dirSign .forward * (25 * (k : Nat)) < s0.cfg.nMax := by decide
theorem witness_FunctionRowsLatchResults_noElement :
    (∃ k ∈ [0, 2], ¬(0 ≤ (49 : Int) + dirSign .backward * (25 * (k : Nat)) ∧
        (49 : Int) + dirSign .backward * (25 * (k : Nat)) < s0.cfg.nMax)) ∧
      ∃ k ∈ [0, 1], ¬(0 ≤ (16359 : Int) + dirSign .forward * (25 * (k : Nat)) ∧
        (16359 : Int) + dirSign .forward * (25 * (k : Nat)) < s0.cfg.nMax) := by decide

/-- A run of dibit 2 that reaches beyond the input, over written samples. -/
@[irreducible] def extracting : State := loaded 359 { running 6 with ml := 5, runLen := ⟨0, 0, 4, 0⟩, runStart := ⟨0, 0, 300, 0⟩ }

theorem extracting_filled : extracting.filled .inI ∧ extracting.filled .inQ := by
  have hn : countOfWord extracting.nl = 359 := by
    unfold extracting
    rw [loaded_frame]
    rfl
  unfold extracting at *
  exact ⟨fun k hk => (loaded_written _ (by omega) (by rwa [hn] at hk)).1,
    fun k hk => (loaded_written _ (by omega) (by rwa [hn] at hk)).2⟩
theorem extracting_frame : extracting = { running 6 with
    ml := 5, runLen := ⟨0, 0, 4, 0⟩, runStart := ⟨0, 0, 300, 0⟩, mem := extracting.mem } := by
  unfold extracting
  exact loaded_frame _ _
theorem witness_SegCopyCopiesClippedSpan :
    countOfWord extracting.nl ≤ extracting.cfg.nMax ∧ countOfWord extracting.ml ≤ extracting.cfg.segMax ∧
      extracting.filled .inI ∧ extracting.filled .inQ ∧ extracting.work.used ≤ countOfWord extracting.ml := by
  refine ⟨?_, ?_, extracting_filled.1, extracting_filled.2, ?_⟩ <;> rw [extracting_frame] <;> decide
theorem witness_ExtractLaysOutSegments :
    countOfWord extracting.nl ≤ extracting.cfg.nMax ∧ countOfWord extracting.ml ≤ extracting.cfg.segMax ∧
      extracting.filled .inI ∧ extracting.filled .inQ :=
  ⟨witness_SegCopyCopiesClippedSpan.1, witness_SegCopyCopiesClippedSpan.2.1, extracting_filled.1, extracting_filled.2⟩
theorem witness_ExtractKeepsCapacity : ∃ t, exec .extract (running 6) = .next t := ⟨_, rfl⟩

/-- A legal state in stage 1 over written inputs, from which the step goes on. -/
theorem witness_EveryStepKeepsLegality :
    ∃ s t : State, s.Inv ∧ s.Ready ∧ s.busy = true ∧ s.stage = 1 ∧ step s = .next t := by
  have hf := loaded_frame 359 (running 1)
  have hs : (loaded 359 (running 1)).stage = 1 := by
    rw [hf]
    rfl
  have hi : (loaded 359 (running 1)).inputs = [] := by
    rw [hf]
    rfl
  have hb : (loaded 359 (running 1)).busy = true := by
    rw [hf]
    rfl
  obtain ⟨hl, hI, hQ, _⟩ := witness_PhaseStageComputesEverySample
  obtain ⟨t, ht, _⟩ := forRange_completes (body := phaseSample)
    (P := fun i u => ∃ f, Swept .phase f (loaded 359 (running 1)) i u) (countOfWord (loaded 359 (running 1)).nl) 0
    (loaded 359 (running 1))
    (by
      rintro i u _ hi ⟨f, hu⟩
      rw [Nat.zero_add] at hi
      have hm := (loaded 359 (running 1)).cfg.nMax_le
      obtain ⟨iv, hiv⟩ := sample_of_written (w := .inI) (k := i) (by show i < (loaded 359 (running 1)).cfg.nMax; omega) (hI i hi)
      obtain ⟨qv, hqv⟩ := sample_of_written (w := .inQ) (k := i) (by show i < (loaded 359 (running 1)).cfg.nMax; omega) (hQ i hi)
      rw [← hu.sample_other (w' := .inI) (by simp) (by omega) (by omega)] at hiv
      rw [← hu.sample_other (w' := .inQ) (by simp) (by omega) (by omega)] at hqv
      obtain ⟨wk, hw⟩ := phaseSample_read hiv hqv
      have hu' : Swept .phase (fun k => if k = i then wordOfInt (cordic iv qv) else f k) (loaded 359 (running 1)) i u :=
        ⟨hu.frame, fun k hk => by rw [hu.values k hk, if_neg (by omega)], hu.bytes⟩
      have hn := hu'.next (by omega) wk
      rw [if_pos rfl] at hn
      exact ⟨_, hw, _, hn⟩)
    ⟨fun _ => 0, Swept.start _ _ _⟩
  refine ⟨loaded 359 (running 1), t.advance, loaded_inv (by decide) (running_inv (by decide)), ?_, hb, hs, ?_⟩
  · constructor <;> rw [hs] <;> intro h <;> exact absurd h (by decide)
  · rw [step_empty hi]
    unfold engineStep
    rw [hb, hs]
    show andThen (forRange phaseSample (countOfWord (loaded 359 (running 1)).nl) 0 (loaded 359 (running 1))) _ = _
    rw [ht, andThen_next]

theorem witness_OnlyDocumentedStops_fault :
    (running 1).Inv ∧ (running 1).Ready ∧ step (running 1) = .fault .unwrittenInput := by
  refine ⟨running_inv (by decide), ?_, rfl⟩
  constructor <;> intro h <;> exact absurd h (by decide)
theorem witness_OnlyDocumentedStops_refusal :
    s0.Inv ∧ s0.Ready ∧ step { s0 with inputs := [.access (.read 2 4)] } = .refused .badAccess := by
  refine ⟨idle_inv 0 0, ?_, rfl⟩
  constructor <;> intro h <;> exact absurd h (by decide)

/-- An idle state with the least input an analysis runs on. -/
def prepared (c : Config) : State := loaded 359 (idleIn c 359 10)

theorem prepared_frame (c : Config) : prepared c = { idleIn c 359 10 with mem := (prepared c).mem } := loaded_frame _ _
theorem prepared_legal (c : Config) (hc : 10 ≤ c.segMax) :
    (prepared c).Inv ∧ (prepared c).busy = false ∧ 359 ≤ countOfWord (prepared c).n ∧
      countOfWord (prepared c).n ≤ (prepared c).cfg.nMax ∧ countOfWord (prepared c).maxlen ≤ (prepared c).cfg.segMax ∧
      ∀ k, k < countOfWord (prepared c).n → (prepared c).written .inI k = true ∧ (prepared c).written .inQ k = true := by
  have hm : 359 ≤ c.nMax := (c.toRawConfig.wf_iff.mp c.ok).2.2.2.2.2.1
  have hn : countOfWord (prepared c).n = 359 := by rw [prepared_frame]; rfl
  have hl : countOfWord (prepared c).maxlen = 10 := by rw [prepared_frame]; rfl
  have he : (prepared c).cfg = c := by rw [prepared_frame]; rfl
  rw [hn, hl, he]
  exact ⟨loaded_inv hm (idleIn_inv _ _ _), by rw [prepared_frame]; rfl, Nat.le_refl _, hm, hc,
    fun k hk => loaded_written _ (by omega) hk⟩
/-- The short configuration holds the prepared input exactly: `N = N_MAX` and `MAXLEN = SEG_MAX`. -/
theorem witness_AnalysisCompletes :
    let s := prepared ⟨rawShort, rawShort_wf⟩
    s.Inv ∧ s.busy = false ∧ 359 ≤ countOfWord s.n ∧ countOfWord s.n ≤ s.cfg.nMax ∧ countOfWord s.maxlen ≤ s.cfg.segMax ∧
      ∀ k, k < countOfWord s.n → s.written .inI k = true ∧ s.written .inQ k = true :=
  prepared_legal ⟨rawShort, rawShort_wf⟩ (by decide)
/-- Two configurations with memories of different sizes, and states that differ in their enables and stale results. -/
theorem witness_AnalysisIsPureFunction :
    let s := prepared k1
    let s' := { prepared ⟨rawShort, rawShort_wf⟩ with irqen := 3, t0 := 9, cmderr := true }
    s.Inv ∧ s'.Inv ∧ s.busy = false ∧ s'.busy = false ∧ SameAnalysis s s' ∧ 359 ≤ countOfWord s.n ∧
      countOfWord s.n ≤ s.cfg.nMax ∧ countOfWord s.n ≤ s'.cfg.nMax ∧ countOfWord s.maxlen ≤ s.cfg.segMax ∧
      countOfWord s.maxlen ≤ s'.cfg.segMax ∧
      (∀ k, k < countOfWord s.n → s.written .inI k = true ∧ s.written .inQ k = true) ∧ s'.cfg.nMax ≠ s.cfg.nMax := by
  intro s s'
  have hn : countOfWord s.n = 359 := by simp only [s]; rw [prepared_frame]; rfl
  have hl : countOfWord s.maxlen = 10 := by simp only [s]; rw [prepared_frame]; rfl
  have he : s.cfg = k1 := by simp only [s]; rw [prepared_frame]; rfl
  have he' : s'.cfg = ⟨rawShort, rawShort_wf⟩ := by simp only [s']; rw [prepared_frame]; rfl
  obtain ⟨hi, hb, h1, h2, h3, hw⟩ := prepared_legal k1 (by decide)
  obtain ⟨hi', hb', _⟩ := prepared_legal ⟨rawShort, rawShort_wf⟩ (by decide)
  refine ⟨hi, ⟨hi'.memory, hi'.places, hi'.stageCode, hi'.idleStage, hi'.handshake, hi'.insuffDone, hi'.capacity,
    hi'.sufficient⟩, hb, hb', ⟨by rw [he, he']; rfl, by rw [he, he']; rfl, by rw [he, he']; rfl, by rw [he, he']; rfl, ?_, ?_, ?_⟩, h1, h2,
    by rw [hn, he']; decide, h3, by rw [hl, he']; decide, hw, by rw [he, he']; decide⟩
  · simp only [s, s']
    rw [prepared_frame, prepared_frame k1]
    rfl
  · simp only [s, s']
    rw [prepared_frame, prepared_frame k1]
    rfl
  · intro k hk
    rw [hn] at hk
    have ha := loaded_sample (idleIn k1 359 10) (n := 359) (by decide) hk
    have hb := loaded_sample (idleIn ⟨rawShort, rawShort_wf⟩ 359 10) (n := 359) (by decide) hk
    exact ⟨hb.1.trans ha.1.symm, hb.2.trans ha.2.symm⟩

theorem witness_DecodeInvertsEncode :
    (Instr.reservedMbz 0xFFFFFFF 0xF).wf = true ∧ encode (.reservedMbz 0xFFFFFFF 0xF) = some (.cmd 0xFFFFFFFF) ∧
      Instr.track.wf = true ∧ encode .track = some (.stage 5) ∧ Instr.runClose.wf = true ∧ encode .runClose = none := by decide

end Sys2Proof.Tests
end

section
/-! SUPPORT. Which configurations a block is built with (00_scope.md R7), and the state it then starts in
(70_reset_and_hazards.md R230). -/

namespace Sys2Proof.Machine

/-- Where the tap count and the alignment of the base are given (R6), the check is R7's own list of constraints. -/
theorem rawConfig_wf_iff_of_taps_of_aligned {c : RawConfig} (htaps : c.kernel.length = 101)
    (hbase : c.mmioBase % 1048576 = 0) :
    c.wf = true ↔ c.gain ≠ 0 ∧ 0 < c.quadT ∧ 2 ≤ c.sampleBits ∧ c.sampleBits ≤ 24 ∧ 359 ≤ c.nMax ∧
      c.nMax ≤ 16384 ∧ c.segMax ≤ 16384 ∧ 131072 * (c.kernel.map Int.natAbs).sum < 2147483648 * c.gain.natAbs := by
  simp only [RawConfig.wf_iff, absSum_eq_sum, htaps, hbase, true_and, and_true]

theorem bootWith_of_wf {raw : RawConfig} (h : raw.wf = true) : bootWith raw = .next (State.resetOf ⟨raw, h⟩) :=
  dif_pos h

theorem bootWith_of_not_wf {raw : RawConfig} (h : ¬raw.wf = true) : bootWith raw = .refused .badConfig :=
  dif_neg h

/-- No element is written while memory lists nothing (R231). -/
theorem written_of_mem_nil {s : State} (h : s.mem = []) (w : Window) (k : Nat) : s.written w k = false := by
  rw [← stored_none_iff, State.stored, h]
  rfl

/-- The state a block starts in meets R230's table, whatever it is built with. -/
theorem resetOf_atReset (cfg : Config) : (State.resetOf cfg).AtReset where
  status := by simp [State.statusWord, State.resetOf, bitWord]
  busy := rfl
  stage := rfl
  params := ⟨rfl, rfl, rfl⟩
  results := ⟨rfl, rfl, fun d => ⟨zeroWords_get d, zeroWords_get d, zeroWords_get d⟩⟩
  latched := ⟨rfl, rfl⟩
  memories := written_of_mem_nil (resetOf_memory cfg).1
  irq := rfl

/-- Settles O3: under its premises the model's check is R7's list, and each branch of `bootWith` gives one direction. -/
theorem configurationIsChecked : Obligations.ConfigurationIsChecked := by
  intro raw htaps hbase meets
  have hwf : raw.wf = true ↔ meets := rawConfig_wf_iff_of_taps_of_aligned htaps hbase
  constructor
  · intro hmeets
    have hok : raw.wf = true := hwf.mpr hmeets
    exact ⟨State.resetOf ⟨raw, hok⟩, bootWith_of_wf hok, rfl, resetOf_atReset _⟩
  · intro hviolates
    exact bootWith_of_not_wf (mt hwf.mp hviolates)

end Sys2Proof.Machine
end

section
/-! SUPPORT. What an offset of the bus port selects (10_state.md R22, R40, R41), and what a read or a write of it does then. -/

namespace Sys2Proof.Machine

/-! The map of offsets. -/

/-- The offset of a target in the register map and the windows (R22, R41); the reserved offsets are many, so it is none there. -/
def Target.offset : Target → Option Nat
  | .cmd => some 0x000
  | .status => some 0x004
  | .n => some 0x008
  | .maxlen => some 0x00C
  | .irqen => some 0x010
  | .t0 => some 0x014
  | .nsym => some 0x018
  | .runLen d => some (0x020 + 4 * d.val)
  | .runStart d => some (0x030 + 4 * d.val)
  | .segLen d => some (0x040 + 4 * d.val)
  | .elem w k => some (w.addr k)
  | .reserved => none

theorem offset_registerAt {off a : Nat} (h4 : off % 4 = 0) (h : (registerAt off).offset = some a) : off = a := by
  unfold registerAt at h
  split at h <;> simp only [Target.offset, Option.some.injEq, reduceCtorEq] at h <;> omega

theorem base_of_windowAt {off : Nat} {w : Window} (h : windowAt off = some w) : w.base + off % 0x10000 = off := by
  unfold windowAt at h
  split at h <;> cases h <;> simp only [Window.base] <;> omega

theorem windowAt_of_ge {off : Nat} (h : 0x90000 ≤ off) : windowAt off = none := by
  unfold windowAt
  split
  case h_9 => rfl
  all_goals omega

/-- Below 0x10000 is the register map. -/
theorem targetOf_register (cfg : Config) {off : Nat} (h : off < 0x10000) : targetOf cfg off = registerAt off := if_pos h

/-- From 0x10000 on an offset selects an element inside its window's count, or it is reserved. -/
theorem targetOf_window (cfg : Config) {off : Nat} (h : 0x10000 ≤ off) :
    (∃ w, windowAt off = some w ∧ off % 0x10000 / 4 < w.count cfg ∧ targetOf cfg off = .elem w (off % 0x10000 / 4)) ∨
      targetOf cfg off = .reserved := by
  have hlow : ¬off < 0x10000 := by omega
  rcases hw : windowAt off with _ | w
  · exact .inr (by simp only [targetOf, hlow, if_false, hw])
  · by_cases hk : off % 0x10000 / 4 < w.count cfg
    · exact .inl ⟨w, rfl, hk, by simp only [targetOf, hlow, if_false, hw, hk, if_true]⟩
    · exact .inr (by simp only [targetOf, hlow, if_false, hw, hk])

/-- A target that is selected lies at its own offset. -/
theorem offset_targetOf {cfg : Config} {off a : Nat} (h4 : off % 4 = 0) (h : (targetOf cfg off).offset = some a) : off = a := by
  by_cases hlow : off < 0x10000
  · rw [targetOf_register cfg hlow] at h
    exact offset_registerAt h4 h
  · rcases targetOf_window cfg (show 0x10000 ≤ off by omega) with ⟨w, hw, _, ht⟩ | ht
    · rw [ht, Target.offset, Option.some.injEq, Window.addr] at h
      have := base_of_windowAt hw
      omega
    · rw [ht] at h
      cases h

theorem registerAt_ne_elem (off : Nat) (w : Window) (k : Nat) : registerAt off ≠ .elem w k := by
  unfold registerAt
  split <;> exact nofun

/-- An element that is selected is inside its window's count. -/
theorem lt_count_of_targetOf {cfg : Config} {off k : Nat} {w : Window} (h : targetOf cfg off = .elem w k) : k < w.count cfg := by
  by_cases hlow : off < 0x10000
  · rw [targetOf_register cfg hlow] at h
    exact absurd h (registerAt_ne_elem off w k)
  · rcases targetOf_window cfg (show 0x10000 ≤ off by omega) with ⟨w', _, hk, ht⟩ | ht
    · rw [ht] at h
      cases h
      exact hk
    · rw [ht] at h
      cases h

theorem registerAt_reserved {off : Nat} (h : off / 4 = 7 ∨ 20 ≤ off / 4) : registerAt off = .reserved := by
  unfold registerAt
  split
  case h_20 => rfl
  all_goals omega

/-- The reserved offsets: the gaps of the register map (R40), those above the windows, and those beyond a window's count (R41). -/
theorem targetOf_reserved {cfg : Config} {off : Nat}
    (h : off = 0x01C ∨ (0x050 ≤ off ∧ off ≤ 0xFFFC) ∨ 0x90000 ≤ off ∨
      ∃ (w : Window) (k : Nat), w.count cfg ≤ k ∧ k < 16384 ∧ off = w.addr k) : targetOf cfg off = .reserved := by
  rcases h with rfl | ⟨hlo, hhi⟩ | hhi | ⟨w, k, hcount, hk, rfl⟩
  · rfl
  · rw [targetOf_register cfg (by omega), registerAt_reserved (by omega)]
  · rcases targetOf_window cfg (show 0x10000 ≤ off by omega) with ⟨w, hw, _⟩ | ht
    · rw [windowAt_of_ge hhi] at hw
      cases hw
    · exact ht
  · rw [targetOf_addr cfg hk, if_neg (by omega)]

/-! Accesses. -/

/-- What a host reads does not depend on the inputs still to come. -/
@[simp] theorem hostRead_inputs (s : State) (inputs : List Input) (target : Target) :
    ({ s with inputs := inputs } : State).hostRead target = s.hostRead target := by
  cases target <;> rfl

/-- What a host write does not depend on the inputs still to come, and it keeps them. -/
@[simp] theorem hostWrite_inputs (s : State) (inputs : List Input) (target : Target) (w : Word) :
    ({ s with inputs := inputs } : State).hostWrite target w = { s.hostWrite target w with inputs := inputs } := by
  cases target <;> simp only [State.hostWrite, State.inputWrite]
  case n | maxlen => split <;> rfl
  case elem => split <;> [split <;> rfl; rfl]

theorem toNat_ofNat_offset {off : Nat} (h : off < 0x100000) : (BitVec.ofNat 20 off).toNat = off := by
  rw [BitVec.toNat_ofNat, Nat.mod_eq_of_lt h]

/-- A read of an aligned offset is answered with the word of the target there (20_memory.md R64). -/
theorem reads_targetOf (s : State) {off : Nat} (h : off < 0x100000) (h4 : off % 4 = 0) :
    s.reads off (s.hostRead (targetOf s.cfg off)) := by
  intro rest
  have hstep : step { s with inputs := .access (.read (BitVec.ofNat 20 off) 4) :: rest } =
      accessStep (.read (BitVec.ofNat 20 off) 4) { s with inputs := rest } := step_access rfl
  rw [hstep, accessStep_read (by rwa [toNat_ofNat_offset h]), toNat_ofNat_offset h, hostRead_inputs]

/-- A write to an aligned offset other than `CMD` writes the target there (20_memory.md R65, R66). -/
theorem writes_targetOf (s : State) {off : Nat} (v : Word) (h : off < 0x100000) (h4 : off % 4 = 0)
    (hcmd : targetOf s.cfg off ≠ .cmd) : s.writes off v (s.hostWrite (targetOf s.cfg off) v) := by
  intro rest
  have hstep : step { s with inputs := .access (.write (BitVec.ofNat 20 off) 4 v) :: rest } =
      accessStep (.write (BitVec.ofNat 20 off) 4 v) { s with inputs := rest } := step_access rfl
  rw [hstep, accessStep_write (by rwa [toNat_ofNat_offset h]), toNat_ofNat_offset h, if_neg hcmd, hostWrite_inputs]

/-- Settles O11: every offset of the statement selects the reserved target, which reads 0 and ignores a write. -/
theorem reservedOffsetsReadZero : Obligations.ReservedOffsetsReadZero := by
  intro s off v hoff h4 hreserved
  have ht : targetOf s.cfg off = .reserved := targetOf_reserved hreserved
  have hread := reads_targetOf s hoff h4
  have hwrite := writes_targetOf s v hoff h4 (by rw [ht]; exact nofun)
  rw [ht] at hread hwrite
  exact ⟨hread, hwrite⟩

/-- Everything an accepted host access can be: a read, a command, or a write to another target. -/
theorem accessStep_eq_next {a : Access} {s t : State} (h : accessStep a s = .next t) :
    (∃ off, a = .read off 4 ∧ t = { s with rdata := t.rdata }) ∨
    (∃ w, a = .write 0 4 w ∧ exec (decodeCmd w) s = .next t) ∨
    ∃ off w, a = .write off 4 w ∧ off.toNat % 4 = 0 ∧ t = s.hostWrite (targetOf s.cfg off.toNat) w := by
  rcases a with ⟨off, bytes⟩ | ⟨off, bytes, w⟩
  · by_cases hok : bytes = 4 ∧ off.toNat % 4 = 0
    · obtain ⟨rfl, h4⟩ := hok
      rw [accessStep_read h4] at h
      cases h
      exact .inl ⟨off, rfl, rfl⟩
    · rw [accessStep_refused (.inl rfl) hok] at h
      cases h
  · by_cases hok : bytes = 4 ∧ off.toNat % 4 = 0
    · obtain ⟨rfl, h4⟩ := hok
      rw [accessStep_write h4] at h
      split at h
      · next hcmd =>
        have hoff : off = 0 := BitVec.eq_of_toNat_eq ((targetOf_cmd s.cfg h4).mp hcmd)
        exact .inr (.inl ⟨w, by rw [hoff], h⟩)
      · cases h
        exact .inr (.inr ⟨off, w, rfl, h4, rfl⟩)
    · rw [accessStep_refused (.inr ⟨w, rfl⟩) hok] at h
      cases h

end Sys2Proof.Machine
end

section
/-! SUPPORT. What a turn of the engine leaves alone, in every state and for every stage that goes on (45_host_commands.md R194,
R195). -/

namespace Sys2Proof.Machine

/-- A loop whose body changes memory and working registers only changes nothing else. -/
theorem forRange_frame {body : Nat → State → Result} {count start : Nat} {s t : State}
    (hbody : ∀ i u v, body i u = .next v → v = { u with mem := v.mem, work := v.work })
    (h : forRange body count start s = .next t) : t = { s with mem := t.mem, work := t.work } :=
  forRange_keeps (P := fun _ u => u = { s with mem := u.mem, work := u.work }) count start s t
    (fun i u v _ _ hu hv => by rw [hbody i u v hv, hu]) rfl h

theorem phaseSample_frame {i : Nat} {s t : State} (h : phaseSample i s = .next t) :
    t = { s with mem := t.mem, work := t.work } := by
  rcases phaseSample_cases i s with ⟨_, _, _, _, _, he⟩ | ⟨_, he⟩ <;> rw [he] at h <;> cases h
  rfl

theorem diffSample_frame {i : Nat} {s t : State} (h : diffSample i s = .next t) :
    t = { s with mem := t.mem, work := t.work } := by
  obtain ⟨_, he⟩ := diffSample_inside (diffSample_next_inside h)
  rw [he] at h
  cases h
  rfl

theorem filterSample_frame {i : Nat} {s t : State} (h : filterSample i s = .next t) :
    t = { s with mem := t.mem, work := t.work } := by
  have hwrite : ∀ {wk : Work} {v : Word}, writeElem .filt i v { s with work := wk } = .next t →
      t = { s with mem := t.mem, work := t.work } := fun hw => by
    rw [(writeElem_eq_next.mp hw).2]
    rfl
  unfold filterSample at h
  simp only at h
  split at h
  · split at h
    · exact hwrite h
    · cases h
  · exact hwrite h

/-- Everything a turn of the engine can change: the sequencer and the handshake, the result registers, memory and working
registers. -/
theorem engineStep_frame {s t : State} (h : engineStep s = .next t) :
    t = { s with
      busy := t.busy, done := t.done, insuff := t.insuff, stage := t.stage, t0 := t.t0, nsym := t.nsym
      runLen := t.runLen, runStart := t.runStart, segLen := t.segLen, mem := t.mem, work := t.work, ticks := t.ticks } := by
  rcases engineStep_cases s with ⟨_, he⟩ | ⟨_, _, _, he⟩ | ⟨_, _, _, he⟩ | ⟨_, run, hrun, he⟩ | ⟨_, _, he⟩ <;> rw [he] at h
  · cases h
    rfl
  · cases h
    rfl
  · cases h
    rfl
  · obtain ⟨u, hu, hadvance⟩ := andThen_eq_next.mp h
    have hf : u = { s with
        t0 := u.t0, nsym := u.nsym, runLen := u.runLen, runStart := u.runStart, segLen := u.segLen, mem := u.mem
        work := u.work } := by
      rcases hrun with ⟨_, rfl⟩ | ⟨_, rfl⟩ | ⟨_, rfl⟩ | ⟨_, rfl⟩ | ⟨_, rfl⟩ | ⟨_, rfl⟩
      · rw [forRange_frame (fun _ _ _ => phaseSample_frame) hu]
      · rw [forRange_frame (fun _ _ _ => diffSample_frame) hu]
      · rw [forRange_frame (fun _ _ _ => filterSample_frame) hu]
      · obtain ⟨u', hu', hframe, _⟩ := execAcquire_frame s
        rw [hu] at hu'
        cases hu'
        rw [hframe]
      · rw [execTrack_frame hu]
      · rw [execExtract_frame hu]
    cases hadvance
    rw [advance_frame, hf]
  · cases h

end Sys2Proof.Machine
end

section
/-! SUPPORT. The three error bits of STATUS under every step: which event sets which, and what else can change them
(10_state.md R28, 60_exceptions.md R210 to R214). -/

namespace Sys2Proof.Machine

/-- The sticky bit of an error outcome. -/
def State.errorBit (s : State) : ErrorBit → Bool
  | .cmderr => s.cmderr
  | .parerr => s.parerr
  | .werr => s.werr

/-- The error bits are three fields of the state. -/
theorem errorBit_congr {s t : State} (hcmd : t.cmderr = s.cmderr) (hpar : t.parerr = s.parerr) (hw : t.werr = s.werr) :
    t.errorBit = s.errorBit := by
  funext e
  cases e
  · exact hcmd
  · exact hpar
  · exact hw

@[simp] theorem errorBit_raise (s : State) (e e' : ErrorBit) :
    (s.raise e).errorBit e' = (s.errorBit e' || decide (e' = e)) := by
  cases e <;> cases e' <;> simp [State.errorBit, State.raise]

@[simp] theorem errorBit_acknowledge (s : State) (e : ErrorBit) : s.acknowledge.errorBit e = false := by
  cases e <;> rfl

@[simp] theorem errorBit_inputs (s : State) (inputs : List Input) :
    ({ s with inputs := inputs } : State).errorBit = s.errorBit := errorBit_congr rfl rfl rfl

/-- The step takes a command word the host writes to `CMD`. -/
def State.commanded (s : State) (w : Word) : Prop := ∃ rest, s.inputs = .access (.write 0 4 w) :: rest

/-- The event that sets an error bit at the next step (10_state.md R24): a reserved word or a command while busy, an ANALYZE
beyond capacity, a write to an input of the analysis while busy. -/
def State.errorEvent (s : State) : ErrorBit → Prop
  | .cmderr => (∃ w, s.commanded w ∧ w ≠ 0 ∧ w ≠ 1 ∧ w ≠ 2) ∨ (s.busy = true ∧ (s.commanded 1 ∨ s.commanded 2))
  | .parerr => s.commanded 1 ∧ s.busy = false ∧ (s.cfg.nMax < countOfWord s.n ∨ s.cfg.segMax < countOfWord s.maxlen)
  | .werr =>
    s.busy = true ∧ ∃ off w rest, s.inputs = .access (.write off 4 w) :: rest ∧
      (off = 0x008 ∨ off = 0x00C ∨
        ∃ (win : Window) (k : Nat), win.isInput = true ∧ k < s.cfg.nMax ∧ off.toNat = win.addr k)

/-- What the step to `t` has done to the error bits of `s`: nothing, ACK while idle, or one bit set by its event. -/
def State.errorBitsStep (s t : State) : Prop :=
  t.errorBit = s.errorBit ∨
  (s.commanded 2 ∧ s.busy = false ∧ t.errorBit = s.acknowledge.errorBit) ∨
  ∃ e, s.errorEvent e ∧ t.errorBit = (s.raise e).errorBit

theorem errorBit_raise_inputs (s : State) (inputs : List Input) (e : ErrorBit) :
    (State.raise { s with inputs := inputs } e).errorBit = (s.raise e).errorBit := by
  funext e'
  simp only [errorBit_raise, errorBit_inputs]

/-- A command changes error bits as R196 to R198 and R192 say. -/
theorem errorBits_of_command {s t : State} {w : Word} {rest : List Input}
    (hin : s.inputs = .access (.write 0 4 w) :: rest) (h : exec (decodeCmd w) { s with inputs := rest } = .next t) :
    s.errorBitsStep t := by
  have hcmd : s.commanded w := ⟨rest, hin⟩
  have hraise : ∀ e, s.errorEvent e → Host.Outcome.next (State.raise { s with inputs := rest } e) = (.next t : Result) →
      s.errorBitsStep t := by
    intro e hev ht
    cases ht
    exact .inr (.inr ⟨e, hev, errorBit_raise_inputs s rest e⟩)
  rcases exec_command w { s with inputs := rest } with ⟨_, he⟩ | ⟨rfl, he⟩ | ⟨rfl, he⟩ | ⟨h0, h1, h2, he⟩ <;> rw [he] at h
  · cases h
    exact .inl (errorBit_inputs s rest)
  · rcases execAnalyze_cases { s with inputs := rest } with ⟨hb, he⟩ | ⟨hb, hbeyond, he⟩ | ⟨_, _, _, he⟩ <;> rw [he] at h
    · exact hraise .cmderr (.inr ⟨hb, .inl hcmd⟩) h
    · exact hraise .parerr ⟨hcmd, hb, hbeyond⟩ h
    · cases h
      exact .inl (errorBit_congr rfl rfl rfl)
  · rcases execAck_cases { s with inputs := rest } with ⟨hb, he⟩ | ⟨hb, he⟩ <;> rw [he] at h
    · exact hraise .cmderr (.inr ⟨hb, .inr hcmd⟩) h
    · cases h
      exact .inr (.inl ⟨hcmd, hb, errorBit_congr rfl rfl rfl⟩)
  · exact hraise .cmderr (.inl ⟨w, hcmd, h0, h1, h2⟩) h

/-- A write to an input of the analysis while busy sets WERR; a write to any other target sets no error bit (R65, R66). -/
theorem errorBit_hostWrite (s : State) (target : Target) (w : Word) :
    (s.hostWrite target w).errorBit = s.errorBit ∨
      (s.busy = true ∧ (target = .n ∨ target = .maxlen ∨ ∃ win k, win.isInput = true ∧ target = .elem win k) ∧
        s.hostWrite target w = s.raise .werr) := by
  have hinput : ∀ u : State, u.errorBit = s.errorBit →
      (s.inputWrite u).errorBit = s.errorBit ∨ (s.busy = true ∧ s.inputWrite u = s.raise .werr) := by
    intro u hu
    rcases hb : s.busy with _ | _ <;> simp [State.inputWrite, hb, hu]
  cases target with
  | n =>
    exact (hinput { s with n := w } (errorBit_congr rfl rfl rfl)).imp_right fun ⟨hb, hw⟩ => ⟨hb, .inl rfl, hw⟩
  | maxlen =>
    exact (hinput { s with maxlen := w } (errorBit_congr rfl rfl rfl)).imp_right fun ⟨hb, hw⟩ => ⟨hb, .inr (.inl rfl), hw⟩
  | elem win k =>
    rcases hin : win.isInput with _ | _
    · exact .inl (by simp only [State.hostWrite, hin, Bool.false_eq_true, if_false])
    · simp only [State.hostWrite, hin, if_true]
      exact (hinput (s.setElem win k (sampleStored s.cfg.sampleBits w)) (errorBit_congr rfl rfl rfl)).imp_right
        fun ⟨hb, hw⟩ => ⟨hb, .inr (.inr ⟨win, k, hin, rfl⟩), hw⟩
  | irqen | cmd | status | t0 | nsym | runLen | runStart | segLen | reserved => exact .inl (errorBit_congr rfl rfl rfl)

/-- The targets whose writes set WERR lie at the offsets R66 names. -/
theorem offset_of_input_target {cfg : Config} {off : BitVec 20} (h4 : off.toNat % 4 = 0)
    (h : targetOf cfg off.toNat = .n ∨ targetOf cfg off.toNat = .maxlen ∨
      ∃ win k, win.isInput = true ∧ targetOf cfg off.toNat = .elem win k) :
    off = 0x008 ∨ off = 0x00C ∨ ∃ (win : Window) (k : Nat), win.isInput = true ∧ k < cfg.nMax ∧ off.toNat = win.addr k := by
  rcases h with h | h | ⟨win, k, hin, h⟩
  · exact .inl (BitVec.eq_of_toNat_eq (offset_targetOf h4 (by rw [h]; rfl)))
  · exact .inr (.inl (BitVec.eq_of_toNat_eq (offset_targetOf h4 (by rw [h]; rfl))))
  · have hk := lt_count_of_targetOf h
    rw [Window.count_input cfg hin] at hk
    exact .inr (.inr ⟨win, k, hin, hk, offset_targetOf h4 (by rw [h]; rfl)⟩)

theorem errorBits_of_access {s t : State} {a : Access} {rest : List Input} (hin : s.inputs = .access a :: rest)
    (h : accessStep a { s with inputs := rest } = .next t) : s.errorBitsStep t := by
  rcases accessStep_eq_next h with ⟨off, rfl, hread⟩ | ⟨w, rfl, hexec⟩ | ⟨off, w, rfl, h4, rfl⟩
  · exact .inl (by rw [hread]; exact errorBit_congr rfl rfl rfl)
  · exact errorBits_of_command hin hexec
  · rcases errorBit_hostWrite { s with inputs := rest } (targetOf s.cfg off.toNat) w with hsame | ⟨hb, htarget, hwerr⟩
    · exact .inl (hsame.trans (errorBit_inputs s rest))
    · refine .inr (.inr ⟨.werr, ⟨hb, off, w, rest, hin, offset_of_input_target h4 htarget⟩, ?_⟩)
      rw [hwerr, errorBit_raise_inputs]

/-- Everything a step other than a reset can do to the error bits. -/
theorem errorBits_of_step {s t : State} (h : step s = .next t) (hreset : ∀ rest, s.inputs ≠ .reset :: rest) :
    s.errorBitsStep t := by
  rcases step_cases s with ⟨a, rest, hin, he⟩ | ⟨rest, hin, _⟩ | ⟨_, _, he⟩
  · rw [he] at h
    exact errorBits_of_access hin h
  · exact absurd hin (hreset rest)
  · rw [he] at h
    exact .inl (by rw [engineStep_frame h]; exact errorBit_congr rfl rfl rfl)

/-- An error bit that is 1 stays 1, unless the step is ACK while idle. -/
theorem errorBit_sticky {s t : State} (h : s.errorBitsStep t) (hack : ¬(s.commanded 2 ∧ s.busy = false)) (e : ErrorBit)
    (hset : s.errorBit e = true) : t.errorBit e = true := by
  rcases h with hsame | ⟨hcmd, hb, _⟩ | ⟨_, _, hraise⟩
  · rw [hsame, hset]
  · exact absurd ⟨hcmd, hb⟩ hack
  · rw [hraise, errorBit_raise, hset, Bool.true_or]

/-- An error bit goes from 0 to 1 by its own event only. -/
theorem errorEvent_of_set {s t : State} (h : s.errorBitsStep t) (e : ErrorBit) (hclear : s.errorBit e = false)
    (hset : t.errorBit e = true) : s.errorEvent e := by
  rcases h with hsame | ⟨_, _, hcleared⟩ | ⟨e', hev, hraise⟩
  · rw [hsame, hclear] at hset
    cases hset
  · rw [hcleared, errorBit_acknowledge] at hset
    cases hset
  · rw [hraise, errorBit_raise, hclear, Bool.false_or, decide_eq_true_eq] at hset
    rwa [hset]

/-- Settles O23: what a step can do to the error bits, read bit by bit. -/
theorem errorBitsAreSticky : Obligations.ErrorBitsAreSticky := by
  intro s t hstep hreset
  have h : s.errorBitsStep t := errorBits_of_step hstep hreset
  exact ⟨fun hack => ⟨errorBit_sticky h hack .cmderr, errorBit_sticky h hack .parerr, errorBit_sticky h hack .werr⟩,
    errorEvent_of_set h .cmderr, errorEvent_of_set h .parerr, errorEvent_of_set h .werr⟩

end Sys2Proof.Machine
end

section
/-! SUPPORT. The bus port's accesses: which are accepted (20_memory.md R61), that a read has no side effect (R64), and what a
write does to each target, idle (R65) and busy (R66). -/

namespace Sys2Proof.Machine

/-! Accepted accesses. -/

/-- A command word is executed without a stop: a command is refused in a STATUS bit only (45_host_commands.md R198). -/
theorem exec_command_next (w : Word) (s : State) : ∃ t, exec (decodeCmd w) s = .next t := by
  rcases exec_command w s with ⟨_, he⟩ | ⟨_, he⟩ | ⟨_, he⟩ | ⟨_, _, _, he⟩ <;> rw [he]
  · exact ⟨_, rfl⟩
  · rcases execAnalyze_cases s with ⟨_, he⟩ | ⟨_, _, he⟩ | ⟨_, _, _, he⟩ <;> exact ⟨_, he⟩
  · rcases execAck_cases s with ⟨_, he⟩ | ⟨_, he⟩ <;> exact ⟨_, he⟩
  · exact ⟨_, rfl⟩

/-- A write to an aligned offset has a next state, whatever it selects. -/
theorem accessStep_write_next {off : BitVec 20} (h : off.toNat % 4 = 0) (w : Word) (s : State) :
    ∃ t, accessStep (.write off 4 w) s = .next t := by
  rw [accessStep_write h]
  split
  · exact exec_command_next w s
  · exact ⟨_, rfl⟩

/-- Settles O6: the step of an access is the port's, which answers aligned words and refuses everything else. -/
theorem onlyAlignedWordsAccepted : Obligations.OnlyAlignedWordsAccepted := by
  intro s off bytes v rest rd wr
  have hrd : rd = accessStep (.read off bytes) { s with inputs := rest } := step_access rfl
  have hwr : wr = accessStep (.write off bytes v) { s with inputs := rest } := step_access rfl
  rw [hrd, hwr]
  constructor
  · rintro ⟨rfl, h4⟩
    exact ⟨⟨_, accessStep_read h4 _⟩, accessStep_write_next h4 v _⟩
  · intro hbad
    exact ⟨accessStep_refused (.inl rfl) hbad _, accessStep_refused (.inr ⟨v, rfl⟩) hbad _⟩

/-! Reads. -/

/-- What a host reads does not depend on what a read changes: the inputs still to come and the word of the read before. -/
theorem hostRead_inputs_rdata (s : State) (inputs : List Input) (rdata : Option Word) (target : Target) :
    ({ s with inputs := inputs, rdata := rdata } : State).hostRead target = s.hostRead target := by
  cases target <;> rfl

/-- A read at the head of the inputs answers with the word of its target, in the bus port's read data only. -/
theorem step_read {s : State} {off : BitVec 20} {rest : List Input} (h4 : off.toNat % 4 = 0)
    (hin : s.inputs = .access (.read off 4) :: rest) :
    step s = .next { s with inputs := rest, rdata := some (s.hostRead (targetOf s.cfg off.toNat)) } := by
  rw [step_access hin, accessStep_read h4, hostRead_inputs]

/-- Settles O7: the word a read returns depends neither on the inputs nor on the read data, all that a read changes. -/
theorem readsHaveNoSideEffect : Obligations.ReadsHaveNoSideEffect := by
  intro s off rest h4 hin
  have hfirst := step_read h4 hin
  have hsecond := step_read h4 (rest := rest)
    (s := { s with
      inputs := .access (.read off 4) :: rest, rdata := some (s.hostRead (targetOf s.cfg off.toNat)) }) rfl
  refine ⟨_, _, hfirst, rfl, hsecond.trans ?_⟩
  simp only [hostRead_inputs_rdata s]

/-! Writes. -/

/-- A write to `CMD` executes the command its word decodes to (R65). -/
theorem step_write_cmd (s : State) (v : Word) (rest : List Input) :
    step { s with inputs := .access (.write 0 4 v) :: rest } = exec (decodeCmd v) { s with inputs := rest } := by
  have hstep : step { s with inputs := .access (.write 0 4 v) :: rest } =
      accessStep (.write 0 4 v) { s with inputs := rest } := step_access rfl
  rw [hstep, accessStep_write rfl]
  exact if_pos ((targetOf_cmd s.cfg rfl).mpr rfl)

theorem writes_n (s : State) (v : Word) : s.writes 0x008 v (s.inputWrite { s with n := v }) :=
  writes_targetOf s v (by decide) (by decide) nofun

theorem writes_maxlen (s : State) (v : Word) : s.writes 0x00C v (s.inputWrite { s with maxlen := v }) :=
  writes_targetOf s v (by decide) (by decide) nofun

theorem writes_irqen (s : State) (v : Word) : s.writes 0x010 v { s with irqen := v.extractLsb' 0 2 } :=
  writes_targetOf s v (by decide) (by decide) nofun

/-- A write to an input element stores the low `SAMPLE_BITS` bits of its word, unless the engine is busy. -/
theorem writes_input (s : State) {w : Window} {k : Nat} (v : Word) (hw : w.isInput = true) (hk : k < s.cfg.nMax) :
    s.writes (w.addr k) v (s.inputWrite (s.setElem w k (sampleStored s.cfg.sampleBits v))) := by
  have hk' : k < 16384 := Nat.lt_of_lt_of_le hk s.cfg.nMax_le
  have hbounds := Window.addr_bounds (w := w) hk'
  have ht : targetOf s.cfg (w.addr k) = .elem w k := by
    rw [targetOf_addr s.cfg hk', if_pos (by rwa [Window.count_input s.cfg hw])]
  have h4 : w.addr k % 4 = 0 := by
    cases w <;> simp only [Window.addr, Window.base] <;> omega
  have hwrite := writes_targetOf s v (by omega) h4 (by rw [ht]; exact nofun)
  rwa [ht, State.hostWrite, if_pos hw] at hwrite

/-- A write to an offset that is neither `CMD`, a writable register nor an input element changes nothing, idle or busy: no
other target takes a write. -/
theorem writes_elsewhere {s : State} {off : Nat} (v : Word) (hoff : off < 0x100000) (h4 : off % 4 = 0)
    (hreg : off ∉ [0x000, 0x008, 0x00C, 0x010])
    (helem : ∀ (w : Window) (k : Nat), w.isInput = true → k < s.cfg.nMax → off ≠ w.addr k) : s.writes off v s := by
  simp only [List.mem_cons, List.not_mem_nil, or_false, not_or] at hreg
  obtain ⟨hcmd, hn, hmaxlen, hirqen⟩ := hreg
  have hselects : ∀ {a : Nat}, (targetOf s.cfg off).offset = some a → off = a := offset_targetOf h4
  have hkeeps : s.hostWrite (targetOf s.cfg off) v = s := by
    cases ht : targetOf s.cfg off with
    | n => exact absurd (hselects (by rw [ht]; rfl)) hn
    | maxlen => exact absurd (hselects (by rw [ht]; rfl)) hmaxlen
    | irqen => exact absurd (hselects (by rw [ht]; rfl)) hirqen
    | elem w k =>
      by_cases hw : w.isInput = true
      · have hk : k < s.cfg.nMax := Window.count_input s.cfg hw ▸ lt_count_of_targetOf ht
        exact absurd (hselects (by rw [ht]; rfl)) (helem w k hw hk)
      · exact if_neg hw
    | cmd | status | t0 | nsym | runLen | runStart | segLen | reserved => rfl
  have hwrite := writes_targetOf s v hoff h4 (mt (targetOf_cmd s.cfg h4).mp hcmd)
  rwa [hkeeps] at hwrite

/-- A stored element leaves every byte outside it alone (R62). -/
theorem sameBytesBut_setElem (s : State) (w : Window) (k : Nat) (v : Word) : sameBytesBut w k (k + 1) s (s.setElem w k v) := by
  intro a ha
  have hnext : w.addr (k + 1) = w.addr k + 4 := by
    simp only [Window.addr]
    omega
  exact byteAt_setElem_other s v (by omega)

@[simp] theorem inputWrite_idle {s : State} (h : s.busy = false) (stored : State) : s.inputWrite stored = stored :=
  if_neg (by simp [h])

@[simp] theorem inputWrite_busy {s : State} (h : s.busy = true) (stored : State) :
    s.inputWrite stored = { s with werr := true } := if_pos h

/-- Settles O12: the rule of each target of a write, where an input write is stored because the engine is idle. -/
theorem idleWritesTakeEffect : Obligations.IdleWritesTakeEffect := by
  intro s v hidle
  have hn := writes_n s v
  have hmaxlen := writes_maxlen s v
  rw [inputWrite_idle hidle] at hn hmaxlen
  refine ⟨step_write_cmd s v, hn, hmaxlen, writes_irqen s v, ?_, fun off hoff h4 => writes_elsewhere v hoff h4⟩
  intro w hw k hk
  have hinput := writes_input s v hw hk
  rw [inputWrite_idle hidle] at hinput
  have hstored := stored_setElem_same s w k (sampleStored s.cfg.sampleBits v)
  exact ⟨_, hinput, rfl, written_iff.mpr ⟨_, hstored⟩, hstored, sameBytesBut_setElem s w k _⟩

/-- While busy every command but NOP sets CMDERR and nothing else (R66, 45_host_commands.md R197, R198). -/
theorem exec_command_busy {s : State} (hbusy : s.busy = true) (w : Word) :
    exec (decodeCmd w) s = .next (if w = 0 then s else { s with cmderr := true }) := by
  rcases exec_command w s with ⟨rfl, he⟩ | ⟨rfl, he⟩ | ⟨rfl, he⟩ | ⟨h0, _, _, he⟩ <;> rw [he]
  · rfl
  · exact if_pos hbusy
  · exact if_pos hbusy
  · rw [if_neg h0, State.raise]

/-- Settles O13: the rule of each target of a write, where an input write sets WERR because the engine is busy. -/
theorem busyWritesSetWerr : Obligations.BusyWritesSetWerr := by
  intro s v hbusy
  have hn := writes_n s v
  have hmaxlen := writes_maxlen s v
  rw [inputWrite_busy hbusy] at hn hmaxlen
  refine ⟨hn, hmaxlen, fun w hw k hk => ?_, fun rest => ?_, writes_irqen s v,
    fun off hoff h4 => writes_elsewhere v hoff h4⟩
  · have hinput := writes_input s v hw hk
    rwa [inputWrite_busy hbusy] at hinput
  · have hexec := exec_command_busy (s := { s with inputs := rest }) hbusy v
    refine (step_write_cmd s v rest).trans (hexec.trans ?_)
    split <;> rfl

end Sys2Proof.Machine
end

section
/-! SUPPORT. The bits of the STATUS word (30_encoding.md R89): which field shows at each bit. -/

namespace Sys2Proof.Machine

theorem getLsbD_bitWord (b : Bool) (i : Nat) : (bitWord b).getLsbD i = (decide (i = 0) && b) := by
  cases b <;> simp [bitWord]

/-- A flag shifted into place is that one bit of the word. -/
theorem getLsbD_bitWord_shiftLeft (b : Bool) {k : Nat} (hk : k < 32) (i : Nat) :
    (bitWord b <<< k).getLsbD i = (decide (i = k) && b) := by
  have hplace : i < 32 ∧ ¬i < k ∧ i - k = 0 ↔ i = k := by omega
  rw [BitVec.getLsbD_shiftLeft, getLsbD_bitWord, ← Bool.and_assoc, Bool.and_assoc (decide (i < 32))]
  simp only [← decide_not, ← Bool.decide_and, hplace]

/-- The stage code shifted into place is the bits from 8 on. -/
theorem getLsbD_stage_shiftLeft (c : BitVec 3) (i : Nat) :
    (c.setWidth 32 <<< 8).getLsbD i = (decide (8 ≤ i) && c.getLsbD (i - 8)) := by
  rw [BitVec.getLsbD_shiftLeft, BitVec.getLsbD_setWidth]
  by_cases hi : i < 11
  · have h32 : i < 32 := by omega
    have hsub : i - 8 < 32 := by omega
    simp [h32, hsub, ← decide_not]
  · have htop : c.getLsbD (i - 8) = false := BitVec.getLsbD_of_ge c _ (by omega)
    simp [htop]

/-- Each bit of the word shows the one field that stands there. -/
theorem getLsbD_statusWord (s : State) (i : Nat) :
    s.statusWord.getLsbD i =
      (decide (8 ≤ i) && s.stage.getLsbD (i - 8) || decide (i = 5) && s.werr || decide (i = 4) && s.parerr ||
        decide (i = 3) && s.cmderr || decide (i = 2) && s.insuff || decide (i = 1) && s.done || decide (i = 0) && s.busy) := by
  simp only [State.statusWord, BitVec.getLsbD_or, getLsbD_stage_shiftLeft, getLsbD_bitWord_shiftLeft, getLsbD_bitWord,
    Nat.reduceLT]

/-- Above the flags the word holds the stage code, from bit 8 on, and nothing else. -/
theorem getLsbD_statusWord_above_flags (s : State) {i : Nat} (h : 5 < i) :
    s.statusWord.getLsbD i = (decide (8 ≤ i) && s.stage.getLsbD (i - 8)) := by
  have hflag : ∀ k ≤ 5, i ≠ k := by omega
  simp [getLsbD_statusWord, hflag]

theorem statusWord_extract_reserved_low (s : State) : s.statusWord.extractLsb' 6 2 = 0 := by
  refine BitVec.eq_of_getLsbD_eq fun i hi => ?_
  have hbelow : ¬8 ≤ 6 + i := by omega
  rw [BitVec.getLsbD_extractLsb', getLsbD_statusWord_above_flags s (by omega), decide_eq_false hbelow]
  simp

theorem statusWord_extract_stage (s : State) : s.statusWord.extractLsb' 8 3 = s.stage := by
  refine BitVec.eq_of_getLsbD_eq fun i hi => ?_
  rw [BitVec.getLsbD_extractLsb', getLsbD_statusWord_above_flags s (by omega), Nat.add_sub_cancel_left]
  simp [hi]

/-- The stage code has three bits, so it ends at bit 10. -/
theorem statusWord_extract_reserved_high (s : State) : s.statusWord.extractLsb' 11 21 = 0 := by
  refine BitVec.eq_of_getLsbD_eq fun i hi => ?_
  have hend : s.stage.getLsbD (11 + i - 8) = false := BitVec.getLsbD_of_ge _ _ (by omega)
  rw [BitVec.getLsbD_extractLsb', getLsbD_statusWord_above_flags s (by omega), hend]
  simp

/-- Settles O10: the word read bit by bit, and each field from the bits it spans. -/
theorem statusWordLayout : Obligations.StatusWordLayout := by
  intro s
  simp only [getLsbD_statusWord]
  exact ⟨by simp, by simp, by simp, by simp, by simp, by simp, statusWord_extract_reserved_low s,
    statusWord_extract_stage s, statusWord_extract_reserved_high s⟩

end Sys2Proof.Machine
end

section
/-! SUPPORT. The CORDIC of one sample (40_phase_estimator.md R100 to R103): its registers after each iteration, its exact cases
and its range (R105, R106). -/

namespace Sys2Proof.Machine

/-! The quadrant (R100). -/

theorem cordicStart_eq_abs (iv qv : Int) : cordicStart iv qv = ⟨|iv|, |qv|, 0⟩ := by
  simp only [cordicStart, abs_eq_max_neg, max_def, CordicRegs.mk.injEq]
  refine ⟨?_, ?_, trivial⟩ <;> split <;> split <;> omega

theorem quadrant_first {iv qv : Int} (hi : 0 ≤ iv) (hq : 0 ≤ qv) :
    quadrantOffset iv qv = 0 ∧ quadrantSign iv qv = 1 := by
  simp [quadrantOffset, quadrantSign, hi, hq]

theorem quadrant_second {iv qv : Int} (hi : iv < 0) (hq : 0 ≤ qv) :
    quadrantOffset iv qv = 131072 ∧ quadrantSign iv qv = -1 := by
  simp [quadrantOffset, quadrantSign, HALF_TURN, Int.not_le.mpr hi, hq]

theorem quadrant_third {iv qv : Int} (hi : iv < 0) (hq : qv < 0) :
    quadrantOffset iv qv = -131072 ∧ quadrantSign iv qv = 1 := by
  simp [quadrantOffset, quadrantSign, HALF_TURN, Int.not_le.mpr hi, Int.not_le.mpr hq]

theorem quadrant_fourth {iv qv : Int} (hi : 0 ≤ iv) (hq : qv < 0) :
    quadrantOffset iv qv = 0 ∧ quadrantSign iv qv = -1 := by
  simp [quadrantOffset, quadrantSign, hi, Int.not_le.mpr hq]

/-! The registers after each iteration (R102). -/

/-- The CORDIC registers of a sample after its first `k` iterations. -/
def cordicAfter (iv qv : Int) (k : Nat) : CordicRegs := cordicLoop (atan.take k) 0 (cordicStart iv qv)

theorem cordicAfter_zero (iv qv : Int) : cordicAfter iv qv 0 = cordicStart iv qv := rfl

theorem cordicAfter_eight (iv qv : Int) : cordicAfter iv qv 8 = cordicRegs iv qv := rfl

/-- The loop over a longer table ends with the rotation of the last entry. -/
theorem cordicLoop_concat (table : List Int) (a : Int) (k : Nat) (r : CordicRegs) :
    cordicLoop (table ++ [a]) k r = cordicRotate (k + table.length) a (cordicLoop table k r) := by
  induction table generalizing k r with
  | nil => rfl
  | cons b table ih =>
    rw [List.cons_append, cordicLoop_cons, cordicLoop_cons, ih, List.length_cons, Nat.add_right_comm, Nat.add_assoc]

theorem cordicAfter_succ (iv qv : Int) {k : Nat} (hk : k < 8) :
    cordicAfter iv qv (k + 1) = cordicRotate k (atan.getD k 0) (cordicAfter iv qv k) := by
  have hlen : k < atan.length := hk
  have htake : atan.take (k + 1) = atan.take k ++ [atan.getD k 0] := by
    rw [List.take_add_one, List.getD_eq_getElem _ _ hlen, List.getElem?_eq_getElem hlen, Option.toList_some]
  rw [cordicAfter, htake, cordicLoop_concat, List.length_take_of_le hlen.le, Nat.zero_add, cordicAfter]

/-- Settles O31: the sequence of registers is `cordicAfter`, each row of the quadrant table and each direction of a rotation
a lemma. -/
theorem cordicFollowsRotations : Obligations.CordicFollowsRotations := by
  intro iv qv
  refine ⟨fun k => (cordicAfter iv qv k).x, fun k => (cordicAfter iv qv k).y, fun k => (cordicAfter iv qv k).z,
    quadrantOffset iv qv, quadrantSign iv qv, ?_, ?_, ?_, ?_, ?_, fun k hk => ⟨fun hy => ?_, fun hy => ?_, fun hy => ?_⟩, ?_⟩
  · rintro ⟨hi, hq⟩
    simp [cordicAfter_zero, cordicStart_eq_abs, quadrant_first, abs_of_nonneg, hi, hq]
  · rintro ⟨hi, hq⟩
    simp [cordicAfter_zero, cordicStart_eq_abs, quadrant_second, abs_of_nonneg, abs_of_neg, hi, hq]
  · rintro ⟨hi, hq⟩
    simp [cordicAfter_zero, cordicStart_eq_abs, quadrant_third, abs_of_neg, hi, hq]
  · rintro ⟨hi, hq⟩
    simp [cordicAfter_zero, cordicStart_eq_abs, quadrant_fourth, abs_of_nonneg, abs_of_neg, hi, hq]
  · rfl
  · simp only [cordicAfter_succ iv qv hk, cordicRotate_pos hy]
    exact ⟨rfl, rfl, rfl⟩
  · simp only [cordicAfter_succ iv qv hk, cordicRotate_neg hy]
    exact ⟨rfl, rfl, rfl⟩
  · simp only [cordicAfter_succ iv qv hk, cordicRotate_zero hy, and_self]
  · rfl

/-! Exact cases and range (R105, R106). -/

theorem cordicRegs_z_axis (iv : Int) {qv : Int} (h : qv = 0) : (cordicRegs iv qv).z = 0 := by
  rw [cordicRegs, cordicLoop_axis (by simp [cordicStart_eq_abs, h]), cordicStart_eq_abs]

/-- Off the I axis the first iteration always rotates by the first entry of the table. -/
theorem cordicRegs_off_axis (iv : Int) {qv : Int} (h : qv ≠ 0) :
    cordicRegs iv qv = cordicLoop atan.tail 1 ⟨|iv| + |qv|, |qv| - |iv|, 32768⟩ := by
  have hy : 0 < (cordicStart iv qv).y := by
    rw [cordicStart_eq_abs]
    exact abs_pos.mpr h
  have hfirst : cordicRotate 0 32768 (cordicStart iv qv) = ⟨|iv| + |qv|, |qv| - |iv|, 32768⟩ := by
    rw [cordicRotate_pos hy]
    simp [cordicStart_eq_abs, asr]
  rw [← hfirst]
  rfl

/-- On a diagonal the first iteration reaches the axis. -/
theorem cordicRegs_z_diagonal {iv qv : Int} (hne : qv ≠ 0) (h : |iv| = |qv|) : (cordicRegs iv qv).z = 32768 := by
  rw [cordicRegs_off_axis iv hne, cordicLoop_axis (by simp [h])]

/-- The entries after the first sum to 39635. -/
theorem cordicRegs_z_range (iv : Int) {qv : Int} (h : qv ≠ 0) :
    -6867 ≤ (cordicRegs iv qv).z ∧ (cordicRegs iv qv).z ≤ 72403 := by
  have hb := cordicLoop_z_bound atan.tail 1 ⟨|iv| + |qv|, |qv| - |iv|, 32768⟩ (by decide)
  have hsum : atan.tail.sum = 39635 := by decide
  rw [cordicRegs_off_axis iv h]
  simp only [hsum] at hb
  omega

/-- R103 on a row of the quadrant table. -/
theorem cordic_of_quadrant {iv qv off sgn z v : Int} (h : quadrantOffset iv qv = off ∧ quadrantSign iv qv = sgn)
    (hz : (cordicRegs iv qv).z = z) (hv : off + sgn * z = v) : cordic iv qv = v := by
  rw [cordic, h.1, h.2, hz, hv]

theorem cordic_range (iv qv : Int) : -137939 ≤ cordic iv qv ∧ cordic iv qv ≤ 137939 := by
  have hz : -6867 ≤ (cordicRegs iv qv).z ∧ (cordicRegs iv qv).z ≤ 72403 := by
    by_cases h : qv = 0
    · rw [cordicRegs_z_axis iv h]
      decide
    · exact cordicRegs_z_range iv h
  rcases le_or_gt 0 iv with hi | hi <;> rcases le_or_gt 0 qv with hq | hq
  · rw [cordic_of_quadrant (quadrant_first hi hq) rfl rfl]
    omega
  · rw [cordic_of_quadrant (quadrant_fourth hi hq) rfl rfl]
    omega
  · rw [cordic_of_quadrant (quadrant_second hi hq) rfl rfl]
    omega
  · rw [cordic_of_quadrant (quadrant_third hi hq) rfl rfl]
    omega

/-- Settles O32: on the axes and diagonals `z` is known and the quadrant gives the phase; elsewhere the rest of the table
bounds `z`. -/
theorem cordicExactCasesAndRange : Obligations.CordicExactCasesAndRange := by
  refine ⟨by decide, by decide, fun a ha => ?_,
    fun iv qv => ⟨cordicRegs_z_range iv, cordicRegs_z_axis iv, cordic_range iv qv⟩⟩
  have hne : a ≠ 0 := ha.ne'
  have hneg : -a < 0 := by omega
  exact ⟨cordic_of_quadrant (quadrant_first ha.le le_rfl) (cordicRegs_z_axis a rfl) rfl,
    cordic_of_quadrant (quadrant_second hneg le_rfl) (cordicRegs_z_axis (-a) rfl) rfl,
    cordic_of_quadrant (quadrant_first ha.le ha.le) (cordicRegs_z_diagonal hne rfl) rfl,
    cordic_of_quadrant (quadrant_second hneg ha.le) (cordicRegs_z_diagonal hne (abs_neg a)) rfl,
    cordic_of_quadrant (quadrant_third hneg hneg) (cordicRegs_z_diagonal hneg.ne rfl) rfl,
    cordic_of_quadrant (quadrant_fourth ha.le hneg) (cordicRegs_z_diagonal hneg.ne (abs_neg a).symm) rfl⟩

end Sys2Proof.Machine
end

section
/-! SUPPORT. Stage PHASE (40_phase_estimator.md R104): over written inputs it completes, and otherwise it stops at a sample
that was not written (10_state.md R52). -/

namespace Sys2Proof.Machine

/-- The phase of sample `i`, where both its inputs were written. -/
def State.phaseValue (s : State) (i : Nat) : Int := cordic ((s.sample .inI i).getD 0) ((s.sample .inQ i).getD 0)

theorem phaseValue_of_samples {s : State} {i : Nat} {iv qv : Int} (hI : s.sample .inI i = some iv)
    (hQ : s.sample .inQ i = some qv) : s.phaseValue i = cordic iv qv := by
  rw [State.phaseValue, hI, hQ, Option.getD_some, Option.getD_some]

/-- Within capacity every sample of a filled input window is read. -/
theorem sample_of_filled {s : State} {w : Window} {i : Nat} (hw : w.isInput = true) (hn : countOfWord s.nl ≤ s.cfg.nMax)
    (h : s.filled w) (hi : i < countOfWord s.nl) : ∃ v, s.sample w i = some v :=
  sample_of_written (by rw [Window.count_input _ hw]; omega) (h i hi)

/-- Everything stage PHASE does over written inputs. -/
theorem execPhase_filled {s : State} (hn : countOfWord s.nl ≤ s.cfg.nMax) (hI : s.filled .inI) (hQ : s.filled .inQ) :
    ∃ t, execPhase s = .next t ∧ Swept .phase (fun i => wordOfInt (s.phaseValue i)) s (countOfWord s.nl) t := by
  have hm := s.cfg.nMax_le
  refine sweep_completes (by omega) fun i u hi hu => ?_
  obtain ⟨iv, hiv⟩ := sample_of_filled rfl hn hI hi
  obtain ⟨qv, hqv⟩ := sample_of_filled rfl hn hQ hi
  rw [phaseValue_of_samples hiv hqv]
  rw [← hu.sample_other (by decide) (by omega) (by omega)] at hiv hqv
  exact phaseSample_read hiv hqv

/-- Stage PHASE has no other way to stop than an unwritten input. -/
theorem execPhase_next_or_fault (s : State) : (∃ t, execPhase s = .next t) ∨ execPhase s = .fault .unwrittenInput := by
  rcases forRange_cases (body := phaseSample) (P := fun _ _ => True) (countOfWord s.nl) 0 s
    (fun _ _ _ _ _ _ _ => trivial) trivial with ⟨t, ht, _⟩ | ⟨i, u, _, _, _, hstop, he⟩
  · exact .inl ⟨t, ht⟩
  · rcases phaseSample_cases i u with ⟨_, _, _, _, _, hgo⟩ | ⟨_, hfault⟩
    · exact absurd hgo (hstop _)
    · exact .inr (he.trans hfault)

/-- Settles O33: over written inputs the sweep completes; a stage that went on had read every sample, so an unwritten one is
the fault. -/
theorem phaseStageComputesEverySample : Obligations.PhaseStageComputesEverySample := by
  refine fun s hn => ⟨fun hI hQ => ?_, fun k hk hunwritten => ?_⟩
  · obtain ⟨t, ht, hswept⟩ := execPhase_filled hn hI hQ
    refine ⟨t, ht, hswept.frame, hswept.bytes, fun i hi => ?_⟩
    obtain ⟨iv, hiv⟩ := sample_of_filled rfl hn hI hi
    obtain ⟨qv, hqv⟩ := sample_of_filled rfl hn hQ hi
    exact ⟨iv, qv, hiv, hqv, by rw [hswept.values i hi, phaseValue_of_samples hiv hqv]⟩
  · rcases execPhase_next_or_fault s with ⟨t, ht⟩ | hfault
    · obtain ⟨_, hI, hQ⟩ := execPhase_next hn ht
      simp [hI k hk, hQ k hk] at hunwritten
    · exact hfault

end Sys2Proof.Machine
end

section
/-! SUPPORT. Stages DIFF and FILTER in the words of 41_differential_filter.md: the values of R121 and R122 written out, and the
half turn no difference leaves (R126). -/

namespace Sys2Proof.Machine

/-! DIFF. -/

/-- R121 and R120 written out. -/
theorem diffValue_eq (s : State) (i : Nat) :
    s.diffValue i =
      let d := intOfWord (s.elem .phase (i - 3)) - intOfWord (s.elem .phase i)
      if i < 3 then 0 else if d > 131072 then d - 262144 else if d < -131072 then d + 262144 else d := rfl

/-- Settles O34: stage DIFF is a sweep over `DIFF`. -/
theorem diffStageWrapsLaggedDifference : Obligations.DiffStageWrapsLaggedDifference := by
  intro s hn
  obtain ⟨t, ht, hswept⟩ := execDiff_inside hn
  exact ⟨t, ht, hswept.frame, hswept.bytes, fun i hi => by rw [hswept.values i hi, diffValue_eq]⟩

/-- After stage PHASE every sample's phase is one the CORDIC gives (40_phase_estimator.md R106). -/
theorem execPhase_phase_range {s t : State} (hn : countOfWord s.nl ≤ s.cfg.nMax) (h : execPhase s = .next t) {i : Nat}
    (hi : i < countOfWord s.nl) :
    -137939 ≤ intOfWord (t.elem .phase i) ∧ intOfWord (t.elem .phase i) ≤ 137939 := by
  obtain ⟨_, hI, hQ⟩ := execPhase_next hn h
  obtain ⟨u, hu, hswept⟩ := execPhase_filled hn hI hQ
  obtain rfl : u = t := Host.Outcome.next.inj (hu.symm.trans h)
  have hrange : -137939 ≤ s.phaseValue i ∧ s.phaseValue i ≤ 137939 := cordic_range _ _
  rwa [elem_of_stored (hswept.values i hi), intOfWord_wordOfInt (by omega) (by omega)]

/-- Between two phases the CORDIC gives, the wrapped difference stays within half a turn (R126). -/
theorem diffValue_range {s : State} {i : Nat}
    (hphase : ∀ k, k ≤ i → -137939 ≤ intOfWord (s.elem .phase k) ∧ intOfWord (s.elem .phase k) ≤ 137939) :
    -131072 ≤ s.diffValue i ∧ s.diffValue i ≤ 131072 := by
  rw [State.diffValue]
  split
  · decide
  · have hold := hphase (i - LAG) (Nat.sub_le _ _)
    have hnew := hphase i le_rfl
    exact wrapPhase_range (by omega) (by omega)

/-- Settles O35: stage PHASE bounds what DIFF subtracts. -/
theorem differencesStayWithinHalfTurn : Obligations.DifferencesStayWithinHalfTurn := by
  intro s t hn h i hi
  obtain ⟨u, hphase, hdiff⟩ := andThen_eq_next.mp h
  obtain ⟨⟨_, hswept⟩, _⟩ := execPhase_next hn hphase
  obtain ⟨v, hv, hdiffs⟩ := execDiff_inside (s := u) (by rwa [hswept.nl, hswept.cfg])
  obtain rfl : v = t := Host.Outcome.next.inj (hv.symm.trans hdiff)
  have hrange := diffValue_range (s := u) (i := i) fun k hk => execPhase_phase_range hn hphase (by omega)
  rwa [elem_of_stored (hdiffs.values i (by rwa [hswept.nl])), intOfWord_wordOfInt (by omega) (by omega)]

/-! FILTER. -/

/-- R122 and R123 written out. -/
theorem filterValue_eq (s : State) (i : Nat) :
    s.filterValue i =
      if 50 ≤ i ∧ i + 50 < countOfWord s.nl then
        Int.tdiv ((List.range 101).map
          (fun j => intOfWord (s.elem .diff (i + j - 50)) * s.cfg.kernel.getD j 0)).sum s.cfg.gain
      else 0 := by
  rw [State.filterValue]
  refine if_ctx_congr Iff.rfl (fun hi => ?_) fun _ => rfl
  have hindex : ∀ j, i - HALF_K + j = i + j - 50 := fun j => by simp only [HALF_K] at hi ⊢; omega
  simp only [hindex]
  rfl

/-- Settles O36: stage FILTER is a sweep over `FILT`. -/
theorem filterStageIsMatchedFilter : Obligations.FilterStageIsMatchedFilter := by
  intro s hn
  obtain ⟨t, ht, hswept⟩ := execFilter_inside hn
  exact ⟨t, ht, hswept.frame, hswept.bytes, fun i hi => by rw [hswept.values i hi, filterValue_eq]⟩

end Sys2Proof.Machine
end

section
/-! SUPPORT. The slicer (42_dibit_slicer.md): the dibit by its boundaries (R144), and the discriminant as the distance to the
nearest multiple of the threshold (R143). -/

namespace Sys2Proof.Machine

/-- R144: the edges `±T` and `±3T` do not separate dibits. -/
theorem slice_dibit {T : Int} (hT : 0 < T) (v : Int) :
    (slice T v).1 = if 2 * T ≤ v then 1 else if 0 ≤ v then 0 else if -2 * T ≤ v then 2 else 3 := by
  rw [slice]
  split_ifs
  -- A row of R140 inside the boundaries of its dibit agrees; every other pair of a row and a dibit is empty.
  any_goals rfl
  all_goals omega

theorem slice_disc_above {T v : Int} (h : 3 * T ≤ v) : (slice T v).2 = v - 3 * T := by
  rw [slice, if_pos h]

theorem slice_disc_below {T v : Int} (hT : 0 < T) (h : v < -3 * T) : (slice T v).2 = -3 * T - v := by
  rw [slice]
  split_ifs
  case neg => rfl
  all_goals omega

/-- The six bounded rows of R140: the discriminant is the distance to the nearer edge of the value's interval. -/
theorem slice_disc_between {T v : Int} (hlow : -3 * T ≤ v) (hhigh : v < 3 * T) :
    ∃ k : Int, k * T ≤ v ∧ v < (k + 1) * T ∧ (slice T v).2 = min (v - k * T) ((k + 1) * T - v) := by
  rw [slice, if_neg (Int.not_le.mpr hhigh)]
  split_ifs
  · exact ⟨2, by omega⟩
  · exact ⟨1, by omega⟩
  · exact ⟨0, by omega⟩
  · exact ⟨-1, by omega⟩
  · exact ⟨-2, by omega⟩
  · exact ⟨-3, by omega⟩

/-- The nearer edge of `[kT, (k+1)T)` is the nearest multiple of `T`. -/
theorem edge_distance_nearest {T v k : Int} (hT : 0 < T) (hlow : k * T ≤ v) (hhigh : v < (k + 1) * T) :
    (∃ m : Int, |v - m * T| = min (v - k * T) ((k + 1) * T - v)) ∧
      ∀ m : Int, min (v - k * T) ((k + 1) * T - v) ≤ |v - m * T| := by
  constructor
  · rcases min_choice (v - k * T) ((k + 1) * T - v) with h | h
    · exact ⟨k, by rw [h, abs_of_nonneg (by omega)]⟩
    · exact ⟨k + 1, by rw [h, abs_of_neg (by omega), Int.neg_sub]⟩
  · intro m
    rcases lt_or_ge k m with hm | hm
    · have hedge : (k + 1) * T ≤ m * T := Int.mul_le_mul_of_nonneg_right hm hT.le
      have habs := neg_le_abs (v - m * T)
      omega
    · have hedge : m * T ≤ k * T := Int.mul_le_mul_of_nonneg_right hm hT.le
      have habs := le_abs_self (v - m * T)
      omega

/-- The two edges lie `T` apart, so the nearer one is at most half of it away. -/
theorem edge_distance_le_half {T v k : Int} (hlow : k * T ≤ v) (hhigh : v < (k + 1) * T) :
    0 ≤ min (v - k * T) ((k + 1) * T - v) ∧ min (v - k * T) ((k + 1) * T - v) ≤ T / 2 := by
  rw [Int.add_mul, Int.one_mul] at hhigh ⊢
  omega

/-- R141. -/
theorem slice_disc_nonneg {T : Int} (hT : 0 < T) (v : Int) : 0 ≤ (slice T v).2 := by
  rcases lt_or_ge v (-3 * T) with hbelow | hlow
  · rw [slice_disc_below hT hbelow]
    omega
  rcases lt_or_ge v (3 * T) with hhigh | habove
  · obtain ⟨k, hk, hk', hdisc⟩ := slice_disc_between hlow hhigh
    rw [hdisc]
    exact (edge_distance_le_half hk hk').1
  · rw [slice_disc_above habove]
    omega

/-- Settles O38: between `-3T` and `3T` the value lies between two multiples of the threshold, and its discriminant is the
distance to the nearer one. -/
theorem sliceBoundaries : Obligations.SliceBoundaries := by
  intro T v hT
  refine ⟨slice_disc_nonneg hT v, fun hlow hhigh => ?_, slice_disc_above, slice_disc_below hT, ?_⟩
  · obtain ⟨k, hk, hk', hdisc⟩ := slice_disc_between hlow hhigh
    obtain ⟨⟨m, hm⟩, hnearest⟩ := edge_distance_nearest hT hk hk'
    rw [hdisc]
    exact ⟨(edge_distance_le_half hk hk').2, m, hm, hnearest⟩
  · rw [slice_dibit hT]
    refine ⟨fun h => if_pos h, fun h0 h2 => ?_, fun h2 h0 => ?_, fun h => ?_⟩
    · rw [if_neg (by omega), if_pos h0]
    · rw [if_neg (by omega), if_neg (by omega), if_pos h2]
    · rw [if_neg (by omega), if_neg (by omega), if_neg (by omega)]

end Sys2Proof.Machine
end

section
/-! SUPPORT. The sub-operations CORDIC, WRAP, SLICE and COST executed as instructions of their own. -/

namespace Sys2Proof.Machine

theorem exec_cordic (iv qv : Int) (s : State) : exec (.cordic iv qv) s = .next (s.runCordic iv qv) := rfl

theorem exec_wrap (d : Int) (s : State) : exec (.wrap d) s = .next (s.runWrap d) := rfl

theorem exec_slice (v : Int) (s : State) : exec (.slice v) s = .next (s.runSlice v) := rfl

/-- COST where every index has an element (R151). -/
theorem exec_cost_inside {s : State} {c : Int} {dir : Dir} {terms : List Nat}
    (h : ∀ k ∈ terms, 0 ≤ c + dirSign dir * (25 * k) ∧ c + dirSign dir * (25 * k) < s.cfg.nMax) :
    exec (.cost c dir terms) s = .next { s with work := { s.work with costOut := s.costAt c dir terms } } := by
  rw [exec, execCost, cost_inside h]

/-- COST where some index has no element. -/
theorem exec_cost_outside {s : State} {c : Int} {dir : Dir} {terms : List Nat} {k : Nat} (hk : k ∈ terms)
    (h : ¬(0 ≤ c + dirSign dir * (25 * k) ∧ c + dirSign dir * (25 * k) < s.cfg.nMax)) :
    exec (.cost c dir terms) s = .fault .noElement := by
  rw [exec, execCost, cost_outside hk h]

/-- Settles O48: three of the rows latch a function of their operands; COST turns on whether its sum has a value. -/
theorem functionRowsLatchResults : Obligations.FunctionRowsLatchResults := by
  intro s
  refine ⟨fun iv qv => ⟨s.runCordic iv qv, exec_cordic iv qv s, rfl, rfl⟩, fun d => exec_wrap d s, fun v => exec_slice v s,
    fun c dir terms => ⟨exec_cost_inside, ?_⟩⟩
  rintro ⟨k, hk, hout⟩
  exact exec_cost_outside hk hout

end Sys2Proof.Machine
end

section
/-! SUPPORT. Stage ACQUIRE (43_timing_tracker.md R152): its best instant after each offset is the first of least cost so far. -/

namespace Sys2Proof.Machine

/-- `b` is the least index below `n` at which `f` is least. -/
def firstLeast (f : Nat → Int) (n b : Nat) : Prop :=
  b < n ∧ ∀ j, j < n → f b ≤ f j ∧ (j < b → f b < f j)

theorem firstLeast_one (f : Nat → Int) : firstLeast f 1 0 := by
  refine ⟨Nat.one_pos, fun j hj => ?_⟩
  obtain rfl : j = 0 := by omega
  exact ⟨le_rfl, fun h => absurd h (Nat.lt_irrefl 0)⟩

/-- A strictly smaller value at `n` is the first least one. -/
theorem firstLeast_of_lt {f : Nat → Int} {n b : Nat} (h : firstLeast f n b) (hlt : f n < f b) : firstLeast f (n + 1) n := by
  refine ⟨n.lt_succ_self, fun j hj => ?_⟩
  rcases Nat.lt_succ_iff_lt_or_eq.mp hj with hj | rfl
  · have hbj := (h.2 j hj).1
    exact ⟨by omega, fun _ => by omega⟩
  · exact ⟨le_rfl, fun hjj => absurd hjj (Nat.lt_irrefl _)⟩

/-- Any other value at `n` leaves the first least one as it is. -/
theorem firstLeast_of_not_lt {f : Nat → Int} {n b : Nat} (h : firstLeast f n b) (hge : ¬f n < f b) :
    firstLeast f (n + 1) b := by
  obtain ⟨hb, hleast⟩ := h
  refine ⟨by omega, fun j hj => ?_⟩
  rcases Nat.lt_succ_iff_lt_or_eq.mp hj with hj | rfl
  · exact hleast j hj
  · exact ⟨not_lt.mp hge, fun hjb => by omega⟩

/-- The ten-term forward cost of offset `o` (R152). -/
def State.offsetCost (s : State) (o : Nat) : Int := s.costAt (50 + (o : Int)) .forward (List.range 10)

/-- Every index an offset's cost reads has an element. -/
theorem cost_offset (s : State) {o : Nat} (ho : o < 25) :
    s.cost (firstValid + (o : Int)) .forward allTerms = some (s.offsetCost o) := by
  have hmin := s.cfg.nMax_ge
  refine cost_inside fun k hk => ?_
  have hk : k < 10 := List.mem_range.mp hk
  simp only [firstValid, HALF_K, dirSign, N_MIN] at *
  omega

/-- What stage ACQUIRE has done from `s` before offset `i`. -/
structure Acquiring (s : State) (i : Nat) (u : State) : Prop where
  frame : u = { s with work := u.work }
  best : (i = 0 ∧ u.work.bestT = none) ∨
    ∃ b : Nat, firstLeast s.offsetCost i b ∧ u.work.bestT = some (50 + (b : Int)) ∧ u.work.bestS = s.offsetCost b

theorem acquireOffset_next {s u : State} {i : Nat} (h : Acquiring s i u) (hi : i < 25) :
    ∃ v, acquireOffset i u = .next v ∧ Acquiring s (i + 1) v := by
  obtain ⟨hframe, hbest⟩ := h
  have hcost : u.cost (firstValid + (i : Int)) .forward allTerms = some (s.offsetCost i) := by
    rw [cost_offset u hi, hframe]
    rfl
  refine ⟨_, by rw [acquireOffset, hcost], by rw [hframe], .inr ?_⟩
  rcases hbest with ⟨rfl, hnone⟩ | ⟨b, hb, hbt, hbs⟩
  · have hbetter : betterSum u.work (s.offsetCost 0) = true := by simp [betterSum, hnone]
    exact ⟨0, firstLeast_one _, if_pos hbetter, if_pos hbetter⟩
  · have hbetter : betterSum u.work (s.offsetCost i) = true ↔ s.offsetCost i < s.offsetCost b := by
      simp [betterSum, hbt, hbs]
    by_cases hlt : s.offsetCost i < s.offsetCost b
    · exact ⟨i, firstLeast_of_lt hb hlt, if_pos (hbetter.mpr hlt), if_pos (hbetter.mpr hlt)⟩
    · have hnot := mt hbetter.mp hlt
      exact ⟨b, firstLeast_of_not_lt hb hlt, (if_neg hnot).trans hbt, (if_neg hnot).trans hbs⟩

/-- Settles O39: the best instant after all 25 offsets is the first of least cost, and `T0` takes it. -/
theorem acquireFindsFirstMinimum : Obligations.AcquireFindsFirstMinimum := by
  intro s
  obtain ⟨u, hu, hframe, hbest⟩ := forRange_completes (body := acquireOffset) (P := Acquiring s) 25 0
    { s with work := { s.work with bestT := none } }
    (fun i v _ hi hv => acquireOffset_next hv (by omega)) ⟨rfl, .inl ⟨rfl, rfl⟩⟩
  obtain ⟨h0, _⟩ | ⟨b, hb, hbt, _⟩ := hbest
  · omega
  obtain ⟨hb25, hleast⟩ := hb
  refine ⟨{ u with t0 := wordOfInt (u.work.bestT.getD 0) }, ?_, by rw [hframe], b, hb25, ?_, hleast⟩
  · show andThen (forRange acquireOffset 25 0 { s with work := { s.work with bestT := none } }) storeT0 = _
    rw [hu]
    rfl
  · have hword := countOfWord_wordOfInt (v := 50 + (b : Int)) (by omega) (by omega)
    simp only [hbt, Option.getD_some]
    omega

end Sys2Proof.Machine
end

section
/-! SUPPORT. The early/late gate (43_timing_tracker.md R154 to R157) and its term sets (R165). -/

namespace Sys2Proof.Machine

/-- The term set of the step at instant `t` (R156). -/
def State.termSet (s : State) (t : Int) : List Nat := termsFor (countOfWord s.nl) (directionAt t) (candidates t)

theorem termSet_isTermSet (s : State) (t : Int) : s.isTermSet t (s.termSet t) :=
  ⟨termsFor_sorted _ _ _, mem_termsFor s t⟩

theorem termsFor_eq_termSet (s : State) (t : Int) :
    termsFor (countOfWord s.nl) (directionOf t) (candidates t) = s.termSet t := by
  rw [State.termSet, directionAt_eq]

/-- The cost of candidate `c` of the step at instant `t` (R155). -/
def State.candidateCost (s : State) (t c : Int) : Int := s.costAt c (directionOf t) (s.termSet t)

/-- The move of R157 at instant `t`. -/
def State.chosenMove (s : State) (t : Int) : Move :=
  gate (if hasEarly t then some (s.candidateCost t (t - 1)) else none) (s.candidateCost t t) (s.candidateCost t (t + 1))

/-- The working registers SELECT leaves at instant `t`. -/
def State.selectWork (s : State) (t : Int) : Work :=
  { s.work with
    dir := directionOf t
    terms := s.termSet t
    c0 := s.candidateCost t t
    cp := s.candidateCost t (t + 1)
    cm := if hasEarly t then s.candidateCost t (t - 1) else s.work.cm
    c := movedInstant t (s.chosenMove t)
    move := s.chosenMove t }

theorem self_mem_candidates (t : Int) : t ∈ candidates t := by
  unfold candidates
  split <;> simp

theorem late_mem_candidates (t : Int) : t + 1 ∈ candidates t := by
  unfold candidates
  split <;> simp

theorem early_mem_candidates {t : Int} (h : hasEarly t = true) : t - 1 ∈ candidates t := by simp [candidates, h]

/-- Every index a candidate's cost reads has an element (R156). -/
theorem cost_candidate {s : State} {t c : Int} (hn : countOfWord s.nl ≤ s.cfg.nMax) (hc : c ∈ candidates t) :
    s.cost c (directionOf t) (s.termSet t) = some (s.candidateCost t c) := by
  refine cost_inside fun k hk => ?_
  rw [← termsFor_eq_termSet] at hk
  have hvalid := (validIndex_iff s _).mp (List.all_eq_true.mp (List.mem_filter.mp hk).2 c hc)
  obtain ⟨hlow, hhigh⟩ : 50 ≤ c + dirSign (directionOf t) * (25 * (k : Int)) ∧
    c + dirSign (directionOf t) * (25 * (k : Int)) ≤ (countOfWord s.nl : Int) - 51 := hvalid
  omega

/-- SELECT within capacity, whole (R154 to R157). -/
theorem execSelect_eq {s : State} (hn : countOfWord s.nl ≤ s.cfg.nMax) (t : Int) :
    execSelect t s = .next { s with work := s.selectWork t } := by
  have h0 := cost_candidate hn (self_mem_candidates t)
  have hp := cost_candidate hn (late_mem_candidates t)
  simp only [execSelect, directionAt_eq, termsFor_eq_termSet, h0, hp, State.selectWork, State.chosenMove]
  cases he : hasEarly t with
  | true => simp only [cost_candidate hn (early_mem_candidates he), if_true]
  | false => simp only [Bool.false_eq_true, if_false]

theorem selectWork_gateChooses (s : State) (t : Int) :
    s.gateChooses t (s.termSet t) (s.selectWork t).c (s.selectWork t).move := gate_chooses s t (s.termSet t)

/-- Settles O40: SELECT leaves exactly the gate's registers. -/
theorem selectFollowsGate : Obligations.SelectFollowsGate := by
  intro s t hn _ _
  exact ⟨_, execSelect_eq hn t, rfl, rfl, termSet_isTermSet s t, selectWork_gateChooses s t, rfl, rfl,
    fun he => if_pos ((hasEarly_iff t).mpr he)⟩

/-- A term set that holds the indices below `n` is their list. -/
theorem termSet_eq_range {s : State} {t : Int} {n : Nat} (h : ∀ k, s.termAt t k ↔ k < n) : s.termSet t = List.range n := by
  obtain ⟨hsorted, hmem⟩ := termSet_isTermSet s t
  exact hsorted.eq_of_mem_iff List.pairwise_lt_range fun k => by rw [hmem, h, List.mem_range]

theorem directionOf_backward {t : Int} (h : 325 ≤ t) : directionOf t = .backward := if_pos h

theorem directionOf_forward {t : Int} (h : t < 325) : directionOf t = .forward := if_neg (by omega)

/-- Backward, every index is a term (R165). -/
theorem termAt_backward {s : State} {t : Int} (hback : 325 ≤ t) (hlast : t ≤ (countOfWord s.nl : Int) - 52) (k : Nat) :
    s.termAt t k ↔ k < 10 := by
  simp only [State.termAt, directionOf_backward hback, dirSign, State.validAt]
  omega

/-- Forward, the terms are the indices whose late candidate still reads inside the data (R165). -/
theorem termAt_forward {s : State} {t : Int} (hfirst : 50 ≤ t) (hforward : t < 325)
    (hlast : t ≤ (countOfWord s.nl : Int) - 52) (k : Nat) :
    s.termAt t k ↔ k < (min 9 (((countOfWord s.nl : Int) - 52 - t) / 25)).toNat + 1 := by
  simp only [State.termAt, directionOf_forward hforward, dirSign, State.validAt]
  omega

/-- Settles O41: the direction decides which initial segment the terms are. -/
theorem termSetsAreInitialSegments : Obligations.TermSetsAreInitialSegments := by
  intro s t hn hfirst hlast
  refine ⟨_, execSelect_eq hn t, ?_⟩
  show 0 ∈ s.termSet t ∧ (directionOf t = .backward ↔ 325 ≤ t) ∧
    (directionOf t = .backward → s.termSet t = _ ∧ ∀ k ∈ s.termSet t, _) ∧
    (directionOf t = .forward → s.termSet t = _ ∧ ∀ k ∈ s.termSet t, _)
  by_cases hback : 325 ≤ t
  · rw [termSet_eq_range (termAt_backward hback hlast), directionOf_backward hback]
    refine ⟨by decide, by simp [hback], fun _ => ⟨rfl, fun k hk => ?_⟩, nofun⟩
    have := List.mem_range.mp hk
    omega
  · have hforward : t < 325 := not_le.mp hback
    rw [termSet_eq_range (termAt_forward hfirst hforward hlast), directionOf_forward hforward]
    refine ⟨by simp, by simp [hback], nofun, fun _ => ⟨rfl, fun k hk => ?_⟩⟩
    have := List.mem_range.mp hk
    omega

end Sys2Proof.Machine
end

section
/-! SUPPORT. Run tracking (43_timing_tracker.md R161 to R163): the cases of the close, the flush and the update of a run. -/

namespace Sys2Proof.Machine

/-- The close of a longer run (R162). -/
theorem closeRun_longer {s : State} (h : countOfWord (s.runLen.get s.work.curD) < s.work.curLen) :
    s.closeRun = { s with
      runLen := s.runLen.set s.work.curD (wordOfCount s.work.curLen)
      runStart := s.runStart.set s.work.curD (wordOfInt s.work.curStart) } := if_pos h

theorem closeRun_not_longer {s : State} (h : ¬countOfWord (s.runLen.get s.work.curD) < s.work.curLen) : s.closeRun = s :=
  if_neg h

/-- The first dibit opens a run (R161). -/
theorem updateRun_first {s : State} (h : s.work.curValid = false) (d : Dibit) (c : Int) :
    s.updateRun d c = { s with work := { s.work with curValid := true, curD := d, curLen := 1, curStart := c - 12 } } := if_pos h

/-- The open run's own dibit extends it (R161). -/
theorem updateRun_same {s : State} (h : s.work.curValid = true) (c : Int) :
    s.updateRun s.work.curD c = { s with work := { s.work with curLen := s.work.curLen + 1 } } := by
  rw [State.updateRun, if_neg (by simp [h]), if_pos rfl]

/-- Another dibit closes the open run and opens its own (R161). -/
theorem updateRun_other {s : State} {d : Dibit} (h : s.work.curValid = true) (hd : d ≠ s.work.curD) (c : Int) :
    s.updateRun d c = { s.closeRun with work := { s.work with curD := d, curLen := 1, curStart := c - 12 } } := by
  rw [State.updateRun, if_neg (by simp [h]), if_neg hd, closeRun_frame]
  rfl

/-- The flush at the end of the data (R163). -/
theorem execRunFlush_open {s : State} (h : s.work.curValid = true) : execRunFlush s = .next s.closeRun := by
  rw [execRunFlush, if_pos h]

theorem execRunFlush_none {s : State} (h : s.work.curValid = false) : execRunFlush s = .next s := by
  rw [execRunFlush, if_neg (by simp [h])]

/-- Settles O43: one rule for each case of the close, the flush and the update. -/
theorem runTrackingRules : Obligations.RunTrackingRules := by
  intro s
  refine ⟨fun h => congrArg _ (closeRun_longer h), fun h => congrArg _ (closeRun_not_longer h), execRunFlush_open,
    execRunFlush_none, fun d c => ⟨fun h => congrArg _ (updateRun_first h d c), ?_, fun h hd => ?_⟩⟩
  · rintro h rfl
    exact congrArg _ (updateRun_same h c)
  · exact ⟨_, rfl, congrArg _ (updateRun_other h hd c)⟩

end Sys2Proof.Machine
end

section
/-! SUPPORT. The loop of stage TRACK (43_timing_tracker.md R153): one step in full, the stream before each step, and the
instants and the number of steps R166 bounds. -/

namespace Sys2Proof.Machine

/-! One step. -/

theorem selectWork_c_near (s : State) (t : Int) : t - 1 ≤ (s.selectWork t).c ∧ (s.selectWork t).c ≤ t + 1 :=
  movedInstant_bounds t _

/-- The gate never leaves the data at its start: the early instant needs `51 ≤ t` (R155). -/
theorem selectWork_c_ge (s : State) {t : Int} (h : 50 ≤ t) : 50 ≤ (s.selectWork t).c := by
  rcases selectWork_gateChooses s t with ⟨⟨h51, _⟩, hc, _⟩ | ⟨_, _, hc, _⟩ | ⟨_, _, hc, _⟩ <;> omega

/-- The state EMIT leaves inside the data and the stream (R158, R159). -/
def State.emitted (s : State) (c : Int) (m : Move) : State :=
  { s.setElem .dibit (countOfWord s.nsym) (dibitWord c m (s.dibAt c)) with
    nsym := wordOfCount (countOfWord s.nsym + 1)
    work := { s.work with dibitOut := s.dibAt c, discOut := s.discAt c, t := c + BITPRD } }

/-- One step of stage TRACK, whole: the gate's instant is emitted and its dibit updates the runs (R153). -/
theorem trackStep_eq {s : State} (hn : countOfWord s.nl ≤ s.cfg.nMax) (h50 : 50 ≤ s.work.t)
    (hlast : s.work.t ≤ (countOfWord s.nl : Int) - 52) (hroom : countOfWord s.nsym < 16384) :
    let w := s.selectWork s.work.t
    trackStep s = .next (({ s with work := w }.emitted w.c w.move).updateRun (s.dibAt w.c) w.c) := by
  intro w
  have hnear : _ ∧ w.c ≤ s.work.t + 1 := selectWork_c_near s s.work.t
  have hge : 50 ≤ w.c := selectWork_c_ge s h50
  have hemit : execEmit w.c w.move { s with work := w } = .next ({ s with work := w }.emitted w.c w.move) :=
    execEmit_inside w.move (by omega) (show w.c < s.cfg.nMax by omega) hroom
  rw [trackStep, execSelect_eq hn, andThen_next, hemit]
  rfl

/-- The entry a step adds to the stream, and the instant it goes on to (R158, R159). -/
theorem trackStep_entry {s : State} (hn : countOfWord s.nl ≤ s.cfg.nMax) (h50 : 50 ≤ s.work.t)
    (hlast : s.work.t ≤ (countOfWord s.nl : Int) - 52) (hroom : countOfWord s.nsym < 16384) :
    let w := s.selectWork s.work.t
    ∃ v, trackStep s = .next v ∧ v.work.t = w.c + 25 ∧
      v.stored .dibit (countOfWord s.nsym) = some (dibitWord w.c w.move (s.dibAt w.c)) := by
  intro w
  refine ⟨_, trackStep_eq hn h50 hlast hroom, ?_, ?_⟩
  · rw [updateRun_frame]
    rfl
  · rw [updateRun_frame]
    exact stored_setElem_same s _ _ _

/-! The stream. -/

theorem instantOf_of_stored {s : State} {n : Nat} {c : Int} {m : Move} {d : Dibit} (h0 : 0 ≤ c) (h1 : c < 16384)
    (h : s.stored .dibit n = some (dibitWord c m d)) : (s.instantOf n : Int) = c := by
  have hword := dibitWord_toNat m d h0 h1
  have hm : moveCode m < 4 := by cases m <;> decide
  have hd := d.isLt
  rw [State.instantOf, elem_of_stored h]
  omega

theorem instantOf_congr {s t : State} {n : Nat} (he : t.epoch = s.epoch) (h : t.stored .dibit n = s.stored .dibit n) :
    t.instantOf n = s.instantOf n := by
  simp only [State.instantOf, State.elem, h, he]

/-- Two stores in a row to neighbouring ranges of a window. -/
theorem sameBytesBut_trans {w : Window} {lo mid hi : Nat} {s t u : State} (h1 : lo ≤ mid) (h2 : mid ≤ hi)
    (hst : sameBytesBut w lo mid s t) (htu : sameBytesBut w mid hi t u) : sameBytesBut w lo hi s u := by
  intro a ha
  simp only [Window.addr] at ha
  rw [htu a (by simp only [Window.addr]; omega), hst a (by simp only [Window.addr]; omega)]

/-- A store beyond an element leaves it alone. -/
theorem stored_of_sameBytesBut {w : Window} {lo hi k : Nat} {s t : State} (h : sameBytesBut w lo hi s t) (hk : k < lo) :
    t.stored w k = s.stored w k :=
  stored_eq_of_bytes fun a _ ha => h a (by simp only [Window.addr] at *; omega)

/-- The instant the loop was at before step `n`, by the entries emitted so far (R153, R159). -/
def State.loopInstant (s : State) (first n : Nat) : Nat := if n = 0 then first else s.instantOf (n - 1) + 25

theorem loopInstant_succ (s : State) (first n : Nat) : s.loopInstant first (n + 1) = s.instantOf n + 25 := rfl

theorem loopInstant_congr {s t : State} {n : Nat} (first : Nat) (h : ∀ k, k < n → t.instantOf k = s.instantOf k) :
    t.loopInstant first n = s.loopInstant first n := by
  cases n with
  | zero => rfl
  | succ n => rw [loopInstant_succ, loopInstant_succ, h n n.lt_succ_self]

/-- What holds of the stream entry `n` (R166): it is written, lies in the valid range, and is within 1 of the loop's instant. -/
def State.goodEntry (s : State) (nl first n : Nat) : Prop :=
  s.written .dibit n = true ∧ 50 ≤ s.instantOf n ∧ s.instantOf n + 51 ≤ nl ∧
    s.loopInstant first n ≤ s.instantOf n + 1 ∧ s.instantOf n ≤ s.loopInstant first n + 1

theorem goodEntry_congr {s t : State} {n : Nat} (nl first : Nat) (he : t.epoch = s.epoch)
    (h : ∀ k, k ≤ n → t.stored .dibit k = s.stored .dibit k) (hs : s.goodEntry nl first n) : t.goodEntry nl first n := by
  have hinst : ∀ k, k ≤ n → t.instantOf k = s.instantOf k := fun k hk => instantOf_congr he (h k hk)
  unfold State.goodEntry at *
  rwa [State.written, h n le_rfl, hinst n le_rfl, loopInstant_congr first fun k hk => hinst k hk.le]

/-- What the loop of stage TRACK has done since `s`, from the instant `first`, and the bounds its instant keeps (R166). -/
structure Tracked (first : Nat) (s u : State) : Prop where
  frame : u = { s with mem := u.mem, nsym := u.nsym, runLen := u.runLen, runStart := u.runStart, work := u.work }
  bytes : sameBytesBut .dibit 0 (countOfWord u.nsym) s u
  entries : ∀ n, n < countOfWord u.nsym → u.goodEntry (countOfWord s.nl) first n
  instant : u.work.t = u.loopInstant first (countOfWord u.nsym)
  slowest : u.work.t ≤ first + 26 * (countOfWord u.nsym : Int)
  fastest : first + 24 * (countOfWord u.nsym : Int) ≤ u.work.t
  /-- the step before this one began inside the loop's range -/
  inRange : first + 24 * (countOfWord u.nsym : Int) ≤ (countOfWord s.nl : Int) - 28

theorem Tracked.start {s : State} {first : Nat} (h : first + 28 ≤ countOfWord s.nl) (wk : Work) (ht : wk.t = first) :
    Tracked first s { s with nsym := 0, work := wk } where
  frame := rfl
  bytes := fun _ _ => rfl
  entries := fun n hn => absurd hn n.not_lt_zero
  instant := ht
  slowest := by
    show wk.t ≤ first + 26 * 0
    omega
  fastest := by
    show (first : Int) + 24 * 0 ≤ wk.t
    omega
  inRange := by
    show (first : Int) + 24 * 0 ≤ _
    omega

/-- A step inside the loop's range goes on, and keeps what holds of the stream. -/
theorem Tracked.next {first : Nat} {s u : State} (h : Tracked first s u) (hfirst : 50 ≤ first)
    (hn : countOfWord s.nl ≤ s.cfg.nMax) (hlast : u.work.t ≤ (countOfWord u.nl : Int) - 52) :
    ∃ v, trackStep u = .next v ∧ Tracked first s v := by
  obtain ⟨hframe, hbytes, hentries, hinstant, hslow, hfast, hrange⟩ := h
  have hmax := s.cfg.nMax_le
  have hnl : u.nl = s.nl := by rw [hframe]
  have hcfg : u.cfg = s.cfg := by rw [hframe]
  rw [hnl] at hlast
  obtain ⟨v, hv, ht, hstored⟩ := trackStep_entry (s := u) (by rwa [hnl, hcfg]) (by omega) (by rwa [hnl]) (by omega)
  obtain ⟨hvframe, hadv24, hadv26, _, hnsym, hvbytes, hwritten⟩ := trackStep_next hv
  have hepoch : v.epoch = u.epoch := by rw [hvframe]
  have hnear := selectWork_c_near u u.work.t
  have hge := selectWork_c_ge u (t := u.work.t) (by omega)
  have hcount : countOfWord v.nsym = countOfWord u.nsym + 1 := by rw [hnsym, countOfWord_wordOfCount (by omega)]
  have hold : ∀ k, k < countOfWord u.nsym → v.stored .dibit k = u.stored .dibit k := fun k hk =>
    stored_of_sameBytesBut hvbytes hk
  have hinst := instantOf_of_stored (by omega) (by omega) hstored
  have hloop := loopInstant_congr first fun k hk => instantOf_congr hepoch (hold k hk)
  refine ⟨v, hv, {
    frame := by rw [hvframe, hframe]
    bytes := ?_
    entries := ?_
    instant := ?_
    slowest := by omega
    fastest := by omega
    inRange := by omega }⟩
  · rw [hcount]
    exact sameBytesBut_trans (Nat.zero_le _) (Nat.le_succ _) hbytes hvbytes
  · intro n hlt
    rcases Nat.lt_succ_iff_lt_or_eq.mp (hcount ▸ hlt) with hlt | rfl
    · exact goodEntry_congr _ first hepoch (fun k hk => hold k (by omega)) (hentries n hlt)
    · exact ⟨hwritten, by omega, by omega, by omega, by omega⟩
  · rw [hcount, loopInstant_succ, ht]
    omega

/-- RUN_FLUSH changes the run registers only (R163). -/
theorem execRunFlush_eq (s : State) : ∃ len start, execRunFlush s = .next { s with runLen := len, runStart := start } := by
  cases hv : s.work.curValid with
  | false => exact ⟨s.runLen, s.runStart, execRunFlush_none hv⟩
  | true => exact ⟨s.closeRun.runLen, s.closeRun.runStart, by rw [execRunFlush_open hv, ← closeRun_frame]⟩

/-- The flush keeps what holds of the stream. -/
theorem Tracked.runs {first : Nat} {s u : State} (h : Tracked first s u) (len start : PerDibit Word) :
    Tracked first s { u with runLen := len, runStart := start } where
  frame := by rw [h.frame]
  bytes := h.bytes
  entries := h.entries
  instant := h.instant
  slowest := h.slowest
  fastest := h.fastest
  inRange := h.inRange

/-- Stage TRACK from every state stage ACQUIRE can leave: its loop, run to its end (R153, R160). -/
theorem execTrack_tracked {s : State} (h359 : 359 ≤ countOfWord s.nl) (hn : countOfWord s.nl ≤ s.cfg.nMax)
    (h50 : 50 ≤ countOfWord s.t0) (h74 : countOfWord s.t0 ≤ 74) :
    ∃ t, execTrack s = .next t ∧ Tracked (countOfWord s.t0) s t ∧ (countOfWord s.nl : Int) - 52 < t.work.t := by
  let start : State := { s with nsym := 0, work := { s.work with t := countOfWord s.t0, curValid := false } }
  obtain ⟨u, hu, htracked⟩ := trackLoop_completes (P := Tracked (countOfWord s.t0) s)
    (fun v hv hlast => hv.next h50 hn hlast) (countOfWord s.nl) start (Tracked.start (by omega) _ rfl)
  have hend := trackLoop_end (countOfWord s.nl) start u
    (show (countOfWord s.nl : Int) - 52 < countOfWord s.t0 + 24 * countOfWord s.nl by omega) hu
  have hnl : u.nl = s.nl := by rw [htracked.frame]
  obtain ⟨len, st, hflush⟩ := execRunFlush_eq u
  exact ⟨_, by rw [execTrack, hu, andThen_next, hflush], htracked.runs len st, by rwa [hnl] at hend⟩

/-- Settles O44: the steps' instants, and the time of the whole loop over the time of one step. -/
theorem trackInstantSequence : Obligations.TrackInstantSequence := by
  intro s h359 hn h50 h74
  obtain ⟨t, ht, ⟨hframe, hbytes, hentries, _, hslow, hfast, hrange⟩, hend⟩ := execTrack_tracked h359 hn h50 h74
  have hmax := s.cfg.nMax_le
  refine ⟨t, ht, hframe, hbytes, fun n hlt => ?_, fun n hlt => ?_, ?_, by omega, by omega, by omega⟩
  · obtain ⟨hwritten, hlow, hhigh, _⟩ := hentries n hlt
    exact ⟨hwritten, hlow, hhigh⟩
  · obtain ⟨_, _, _, hlow, hhigh⟩ := hentries (n + 1) hlt
    rw [loopInstant_succ] at hlow hhigh
    omega
  · obtain ⟨_, _, _, hlow, hhigh⟩ := hentries 0 (by omega)
    exact ⟨hlow, hhigh⟩

end Sys2Proof.Machine
end

section
/-! SUPPORT. Stage EXTRACT dibit value by dibit value (44_segment_extractor.md R180, R181): the lengths reported so far and the
samples laid out so far. -/

namespace Sys2Proof.Machine

/-! The clipped span in the words of R180. -/

theorem spanCount_eq_clipped {s : State} (d : Dibit) (h : s.work.used ≤ countOfWord s.ml) :
    (s.spanCount d : Int) = min (max 0 (s.clippedEnd d - s.clippedStart d)) (countOfWord s.ml - s.work.used) := by
  simp only [State.spanCount, State.spanLen, State.clippedEnd, State.clippedStart, BITPRD]
  omega

/-- The state with the write pointer at `used`. -/
def State.atUsed (s : State) (used : Nat) : State := { s with work := { s.work with used := used } }

/-- A span depends only on the registers stage EXTRACT leaves alone, and on the write pointer. -/
theorem spanCount_congr {s u : State} (h : u = { s with mem := u.mem, segLen := u.segLen, work := u.work }) (d : Dibit) :
    u.spanCount d = (s.atUsed u.work.used).spanCount d := by
  rw [h]
  rfl

theorem countOfWord_spanCount (s : State) (d : Dibit) : countOfWord (wordOfCount (s.spanCount d)) = s.spanCount d :=
  countOfWord_wordOfCount (Nat.lt_of_le_of_lt (spanCount_le s d) (countOfWord_lt s.ml))

/-! The positions of the segments (R181). -/

/-- Where the segments of the first `k` dibit values end. -/
def segsEnd (lens : PerDibit Word) (k : Nat) : Nat := if h : k < 4 then segStart lens ⟨k, h⟩ else segTotal lens

theorem segsEnd_val (lens : PerDibit Word) (d : Dibit) : segsEnd lens d.val = segStart lens d := dif_pos d.isLt

theorem segsEnd_succ (lens : PerDibit Word) (d : Dibit) :
    segsEnd lens (d.val + 1) = segStart lens d + countOfWord (lens.get d) := by
  fin_cases d <;> simp [segsEnd, segStart, segTotal, PerDibit.get]

theorem segStart_le_segTotal (lens : PerDibit Word) (d : Dibit) : segStart lens d ≤ segTotal lens := by
  fin_cases d <;> simp only [segStart, segTotal] <;> omega

/-- A segment ends before those of greater dibit values. -/
theorem segStart_add_le (lens : PerDibit Word) {e d : Dibit} (h : e.val < d.val) :
    segStart lens e + countOfWord (lens.get e) ≤ segStart lens d := by
  fin_cases d <;> fin_cases e <;> simp only [segStart, PerDibit.get] at h ⊢ <;> omega

/-- A segment's start does not depend on its own length or on those of greater dibit values. -/
theorem segStart_set (lens : PerDibit Word) (w : Word) {e d : Dibit} (h : e ≤ d) :
    segStart (lens.set d w) e = segStart lens e := by
  fin_cases d <;> fin_cases e <;> simp [segStart, PerDibit.set] at h ⊢

/-! Bytes outside the segment memories. -/

/-- The input memories lie below all others (10_state.md R41). -/
theorem Window.addr_input_lt {w : Window} {k : Nat} (hw : w.isInput = true) (hk : k < 16384) : w.addr k + 4 ≤ 0x30000 := by
  cases w <;> simp only [Window.isInput, Window.addr, Window.base, Bool.false_eq_true] at hw ⊢ <;> omega

/-- Every byte outside elements `lo` to `hi - 1` of the two segment memories is in `t` what it is in `s`. -/
def sameBytesButSegs (lo hi : Nat) (s t : State) : Prop :=
  ∀ a : Nat, ¬(Window.segI.addr lo ≤ a ∧ a < Window.segI.addr hi) →
    ¬(Window.segQ.addr lo ≤ a ∧ a < Window.segQ.addr hi) → t.byteAt a = s.byteAt a

namespace sameBytesButSegs

variable {lo mid hi : Nat} {s t u : State}

theorem trans (h1 : sameBytesButSegs lo mid s t) (h2 : sameBytesButSegs mid hi t u) (hlo : lo ≤ mid) (hhi : mid ≤ hi) :
    sameBytesButSegs lo hi s u := fun a hI hQ => by
  simp only [Window.addr] at hI hQ
  rw [h2 a (by simp only [Window.addr]; omega) (by simp only [Window.addr]; omega),
    h1 a (by simp only [Window.addr]; omega) (by simp only [Window.addr]; omega)]

/-- The input elements are unchanged. -/
theorem stored_input (h : sameBytesButSegs lo hi s t) {w : Window} (hw : w.isInput = true) {k : Nat} (hk : k < 16384)
    (hhi : hi ≤ 16384) : t.stored w k = s.stored w k := by
  have hlow := Window.addr_input_lt hw hk
  refine stored_eq_of_bytes fun a _ hb => h a ?_ ?_ <;> simp only [Window.addr, Window.base] at * <;> omega

/-- The segment elements below `lo` are unchanged. -/
theorem stored_below (h : sameBytesButSegs lo hi s t) (hhi : hi ≤ 16384) {w : Window} {k : Nat} (hk : k < lo)
    (hlo : lo ≤ 16384) : t.stored w k = s.stored w k := by
  refine stored_eq_of_bytes fun a ha hb => h a ?_ ?_ <;> cases w <;> simp only [Window.addr, Window.base] at * <;> omega

end sameBytesButSegs

/-- The `count` elements of `t`'s segment memories from `start` on are the first sample pairs of `s`'s clipped span of `d`
(R180, R186). -/
def holdsSpan (s : State) (d : Dibit) (start count : Nat) (t : State) : Prop :=
  ∀ m : Nat, m < count → ∃ iv qv, s.sample .inI (s.spanLo d + m) = some iv ∧ s.sample .inQ (s.spanLo d + m) = some qv ∧
    t.stored .segI (start + m) = some (wordOfInt iv) ∧ t.stored .segQ (start + m) = some (wordOfInt qv)

/-! The lengths. -/

/-- What stage EXTRACT from state `s` has reported before dibit value `k`: the length of each segment before it. -/
structure Measured (s : State) (k : Nat) (u : State) : Prop where
  frame : u = { s with mem := u.mem, segLen := u.segLen, work := u.work }
  pointer : u.work.used = segsEnd u.segLen k
  capacity : u.work.used ≤ countOfWord s.ml
  lengths : ∀ d : Dibit, d.val < k → countOfWord (u.segLen.get d) = (s.atUsed (segStart u.segLen d)).spanCount d

theorem Measured.start (s : State) : Measured s 0 (s.atUsed 0) where
  frame := rfl
  pointer := rfl
  capacity := Nat.zero_le _
  lengths := fun _ hd => absurd hd (Nat.not_lt_zero _)

/-- The copy of one more dibit value reports its length and moves the write pointer to its end. -/
theorem Measured.next {s u v : State} {d : Dibit} (h : Measured s d.val u) (hv : execSegCopy d u = .next v) :
    Measured s (d.val + 1) v := by
  obtain ⟨hframe, _⟩ := execSegCopy_next hv
  have hlen : v.segLen = u.segLen.set d (wordOfCount (u.spanCount d)) := by rw [hframe]
  have hused : v.work.used = u.work.used + u.spanCount d := by rw [hframe]
  have hml : u.ml = s.ml := by rw [h.frame]
  have hpointer : u.work.used = segStart u.segLen d := by rw [h.pointer, segsEnd_val]
  refine ⟨?_, ?_, ?_, fun e he => ?_⟩
  · rw [hframe, h.frame]
  · rw [hused, hpointer, segsEnd_succ, hlen, segStart_set _ _ le_rfl, PerDibit.get_set_same, countOfWord_spanCount]
  · rw [hused, ← hml]
    exact used_add_spanCount d (by rw [hml]; exact h.capacity)
  · rw [hlen, segStart_set _ _ (show e ≤ d from Nat.lt_succ_iff.mp he)]
    by_cases hed : e = d
    · rw [hed, PerDibit.get_set_same, countOfWord_spanCount, spanCount_congr h.frame, hpointer]
    · rw [PerDibit.get_set_other _ _ hed]
      exact h.lengths e (lt_of_le_of_ne (Nat.lt_succ_iff.mp he) (Fin.val_ne_of_ne hed))

theorem val_dibitOfIndex {k : Nat} (h : k < 4) : (dibitOfIndex k).val = k := Nat.mod_eq_of_lt h

/-- Stage EXTRACT, from any state, has reported all four lengths when it goes on. -/
theorem execExtract_measured {s t : State} (h : execExtract s = .next t) : Measured s 4 t := by
  refine forRange_keeps (P := Measured s) 4 0 (s.atUsed 0) t (fun k u v _ hk hu hv => ?_) (Measured.start s) h
  have hval : (dibitOfIndex k).val = k := val_dibitOfIndex (by omega)
  rw [← hval] at hu ⊢
  exact hu.next hv

/-- Settles O51: the capacity and the span bound each reported length. -/
theorem extractKeepsCapacity : Obligations.ExtractKeepsCapacity := by
  intro s t h
  obtain ⟨_, hpointer, hcapacity, hlengths⟩ := execExtract_measured h
  have htotal : t.work.used = segTotal t.segLen := hpointer
  refine ⟨htotal ▸ hcapacity, htotal, fun d => ?_⟩
  rw [hlengths d d.isLt]
  exact spanCount_le_span _ d

/-! The samples. -/

/-- Settles O49: SEG_COPY's own law, its count in the words of R180. -/
theorem segCopyCopiesClippedSpan : Obligations.SegCopyCopiesClippedSpan := by
  intro s d hn hm hI hQ hused
  obtain ⟨t, ht⟩ := execSegCopy_inside d hn hm hI hQ hused
  obtain ⟨hframe, hcopied⟩ := execSegCopy_next ht
  exact ⟨t, s.spanCount d, ht, spanCount_eq_clipped d hused, hframe, hcopied.bytes, hcopied.values⟩

/-- What stage EXTRACT from state `s` has laid out before dibit value `k`: each segment before it, and no other byte. -/
structure LaidOut (s : State) (k : Nat) (u : State) : Prop extends Measured s k u where
  samples : ∀ d : Dibit, d.val < k → holdsSpan s d (segStart u.segLen d) (countOfWord (u.segLen.get d)) u
  bytes : sameBytesButSegs 0 (segsEnd u.segLen k) s u

namespace LaidOut

variable {s u v : State} {k : Nat} {d : Dibit}

theorem start (s : State) : LaidOut s 0 (s.atUsed 0) where
  toMeasured := Measured.start s
  samples := fun _ hd => absurd hd (Nat.not_lt_zero _)
  bytes := fun _ _ _ => rfl

/-- The segments so far lie inside the memories. -/
theorem segsEnd_le (h : LaidOut s k u) (hm : countOfWord s.ml ≤ s.cfg.segMax) : segsEnd u.segLen k ≤ 16384 := by
  have := s.cfg.segMax_le
  have := h.capacity
  rw [← h.pointer]
  omega

/-- The input is what it was. -/
theorem stored_input (h : LaidOut s k u) (hm : countOfWord s.ml ≤ s.cfg.segMax) {w : Window} (hw : w.isInput = true)
    {j : Nat} (hj : j < 16384) : u.stored w j = s.stored w j :=
  h.bytes.stored_input hw hj (h.segsEnd_le hm)

theorem filled_input (h : LaidOut s k u) (hn : countOfWord s.nl ≤ s.cfg.nMax) (hm : countOfWord s.ml ≤ s.cfg.segMax)
    {w : Window} (hw : w.isInput = true) (hfilled : s.filled w) : u.filled w := by
  intro j hj
  have hnl : u.nl = s.nl := by rw [h.frame]
  rw [hnl] at hj
  have := s.cfg.nMax_le
  rw [State.written, h.stored_input hm hw (by omega)]
  exact hfilled j hj

theorem spanLo_eq (h : LaidOut s k u) (d : Dibit) : u.spanLo d = s.spanLo d := by
  rw [h.frame]
  rfl

theorem sample_eq (h : LaidOut s k u) (hm : countOfWord s.ml ≤ s.cfg.segMax) {w : Window} (hw : w.isInput = true) (j : Nat) :
    u.sample w j = s.sample w j := by
  have hcfg : u.cfg = s.cfg := by rw [h.frame]
  by_cases hj : j < 16384
  · exact sample_congr hcfg (h.stored_input hm hw hj)
  · have hcount := Window.count_le s.cfg w
    simp only [State.sample, hcfg, show ¬j < w.count s.cfg by omega, if_false]

/-- The copy of one more dibit value lays its segment after those so far. -/
theorem next (h : LaidOut s d.val u) (hm : countOfWord s.ml ≤ s.cfg.segMax) (hv : execSegCopy d u = .next v) :
    LaidOut s (d.val + 1) v := by
  have hmeasured := h.toMeasured.next hv
  obtain ⟨hframe, hcopied⟩ := execSegCopy_next hv
  have hlen : v.segLen = u.segLen.set d (wordOfCount (u.spanCount d)) := by rw [hframe]
  have hcount : countOfWord (v.segLen.get d) = u.spanCount d := by
    rw [hlen, PerDibit.get_set_same, countOfWord_spanCount]
  have hstart : ∀ e, e ≤ d → segStart v.segLen e = segStart u.segLen e := fun e he => by rw [hlen, segStart_set _ _ he]
  have hpointer : u.work.used = segStart u.segLen d := by rw [h.pointer, segsEnd_val]
  have hend : u.work.used + u.spanCount d = segsEnd v.segLen (d.val + 1) := by
    rw [segsEnd_succ, hcount, hstart d le_rfl, hpointer]
  have hcopy : sameBytesButSegs u.work.used (segsEnd v.segLen (d.val + 1)) u v := hend ▸ hcopied.bytes
  have hinside : segsEnd v.segLen (d.val + 1) ≤ 16384 := by
    have := s.cfg.segMax_le
    have := hmeasured.capacity
    rw [← hmeasured.pointer]
    omega
  refine ⟨hmeasured, fun e he m hlt => ?_, (h.pointer ▸ h.bytes).trans hcopy (Nat.zero_le _) (by omega)⟩
  by_cases hed : e = d
  · subst hed
    rw [hcount] at hlt
    obtain ⟨iv, qv, hI, hQ, hvI, hvQ⟩ := hcopied.values m hlt
    rw [h.sample_eq hm rfl, h.spanLo_eq] at hI hQ
    rw [hstart e le_rfl, ← hpointer]
    exact ⟨iv, qv, hI, hQ, hvI, hvQ⟩
  · have hbefore : e < d := lt_of_le_of_ne (Nat.lt_succ_iff.mp he) hed
    rw [hlen, PerDibit.get_set_other _ _ hed] at hlt
    obtain ⟨iv, qv, hI, hQ, huI, huQ⟩ := h.samples e hbefore m hlt
    have hbelow : segStart u.segLen e + m < u.work.used := by
      have := segStart_add_le u.segLen hbefore
      omega
    rw [hstart e hbefore.le]
    refine ⟨iv, qv, hI, hQ, ?_, ?_⟩
    · rw [hcopy.stored_below hinside hbelow (by omega), huI]
    · rw [hcopy.stored_below hinside hbelow (by omega), huQ]

/-- The copy of one more dibit value goes on. -/
theorem segCopy_next (h : LaidOut s k u) (hn : countOfWord s.nl ≤ s.cfg.nMax) (hm : countOfWord s.ml ≤ s.cfg.segMax)
    (hI : s.filled .inI) (hQ : s.filled .inQ) (d : Dibit) : ∃ v, execSegCopy d u = .next v := by
  have hcfg : u.cfg = s.cfg := by rw [h.frame]
  have hnl : u.nl = s.nl := by rw [h.frame]
  have hml : u.ml = s.ml := by rw [h.frame]
  refine execSegCopy_inside d ?_ ?_ (h.filled_input hn hm rfl hI) (h.filled_input hn hm rfl hQ) ?_
  · rwa [hnl, hcfg]
  · rwa [hml, hcfg]
  · rw [hml]
    exact h.capacity

end LaidOut

/-- Stage EXTRACT over written inputs and within capacity lays out all four segments. -/
theorem execExtract_laidOut {s : State} (hn : countOfWord s.nl ≤ s.cfg.nMax) (hm : countOfWord s.ml ≤ s.cfg.segMax)
    (hI : s.filled .inI) (hQ : s.filled .inQ) : ∃ t, execExtract s = .next t ∧ LaidOut s 4 t := by
  refine forRange_completes (P := LaidOut s) 4 0 (s.atUsed 0) (fun k u _ hk hu => ?_) (LaidOut.start s)
  have hval : (dibitOfIndex k).val = k := val_dibitOfIndex (by omega)
  obtain ⟨v, hv⟩ := hu.segCopy_next hn hm hI hQ (dibitOfIndex k)
  rw [← hval] at hu
  exact ⟨v, hv, hval ▸ hu.next hm hv⟩

/-- Settles O50: what the loop over the four dibit values has laid out at its end. -/
theorem extractLaysOutSegments : Obligations.ExtractLaysOutSegments := by
  intro s hn hm hI hQ
  obtain ⟨t, ht, ⟨hframe, hpointer, hcapacity, hlengths⟩, hsamples, hbytes⟩ := execExtract_laidOut hn hm hI hQ
  have htotal : t.work.used = segTotal t.segLen := hpointer
  refine ⟨t, ht, hframe, hbytes, fun d => ⟨?_, hsamples d d.isLt⟩⟩
  have hstart := segStart_le_segTotal t.segLen d
  rw [hlengths d d.isLt]
  exact spanCount_eq_clipped (s := s.atUsed (segStart t.segLen d)) d
    (show segStart t.segLen d ≤ countOfWord s.ml by omega)

end Sys2Proof.Machine
end

section
/-! SUPPORT. The host commands (45_host_commands.md R190 to R198): what each does idle, busy and beyond capacity. -/

namespace Sys2Proof.Machine

/-- A write to `CMD` leaves what its command leaves, whatever inputs are still to come. -/
theorem writes_cmd {s t : State} {v : Word}
    (h : ∀ rest, exec (decodeCmd v) { s with inputs := rest } = .next { t with inputs := rest }) : s.writes 0x000 v t :=
  fun rest => (step_write_cmd s v rest).trans (h rest)

theorem exec_nop (s : State) : exec .nop s = .next s := rfl

/-- Settles O16: the word 0 is NOP. -/
theorem nopChangesNothing : Obligations.NopChangesNothing :=
  fun s => ⟨exec_nop s, writes_cmd fun _ => exec_nop _⟩

theorem execAnalyze_idle {s : State} (hidle : s.busy = false) (hn : countOfWord s.n ≤ s.cfg.nMax)
    (hm : countOfWord s.maxlen ≤ s.cfg.segMax) : execAnalyze s = .next s.accept := by
  rcases execAnalyze_cases s with ⟨hbusy, _⟩ | ⟨_, hbeyond, _⟩ | ⟨_, _, _, he⟩
  · rw [hidle] at hbusy
    cases hbusy
  · omega
  · exact he

theorem execAnalyze_beyond {s : State} (hidle : s.busy = false)
    (hbeyond : s.cfg.nMax < countOfWord s.n ∨ s.cfg.segMax < countOfWord s.maxlen) :
    execAnalyze s = .next (s.raise .parerr) := by
  rcases execAnalyze_cases s with ⟨hbusy, _⟩ | ⟨_, _, he⟩ | ⟨_, hn, hm, _⟩
  · rw [hidle] at hbusy
    cases hbusy
  · exact he
  · omega

theorem execAnalyze_busy {s : State} (hbusy : s.busy = true) : execAnalyze s = .next (s.raise .cmderr) := if_pos hbusy

theorem execAck_busy {s : State} (hbusy : s.busy = true) : execAck s = .next (s.raise .cmderr) := if_pos hbusy

theorem execAck_idle {s : State} (hidle : s.busy = false) : execAck s = .next s.acknowledge := if_neg (by simp [hidle])

/-- Settles O17: what acceptance leaves is `State.accept`. -/
theorem analyzeIsAccepted : Obligations.AnalyzeIsAccepted :=
  fun _ hidle hn hm => execAnalyze_idle hidle hn hm

/-- Settles O18: the capacity test comes after the one for BUSY, which an idle block passes. -/
theorem analyzeBeyondCapacityRefused : Obligations.AnalyzeBeyondCapacityRefused :=
  fun _ hidle hbeyond => execAnalyze_beyond hidle hbeyond

/-- Settles O19: both commands test BUSY first. -/
theorem commandWhileBusyRefused : Obligations.CommandWhileBusyRefused :=
  fun _ hbusy => ⟨execAnalyze_busy hbusy, execAck_busy hbusy⟩

/-- After the acknowledgement neither source of the interrupt is left (60_exceptions.md R214, R215). -/
@[simp] theorem irq_acknowledge (s : State) : s.acknowledge.irq = false := by simp [State.irq]

/-- Settles O20: an idle ACK is the acknowledgement. -/
theorem ackClearsReportedBits : Obligations.AckClearsReportedBits :=
  fun s hidle => ⟨s.acknowledge, execAck_idle hidle, irq_acknowledge s, rfl⟩

/-- A word other than the three commands is reserved (R197). -/
theorem exec_command_reserved {w : Word} (h0 : w ≠ 0) (h1 : w ≠ 1) (h2 : w ≠ 2) (s : State) :
    exec (decodeCmd w) s = .next (s.raise .cmderr) := by
  rcases exec_command w s with ⟨h, _⟩ | ⟨h, _⟩ | ⟨h, _⟩ | ⟨_, _, _, he⟩
  · exact absurd h h0
  · exact absurd h h1
  · exact absurd h h2
  · exact he

/-- Settles O22: reserved words by what they decode to, each reserved row by its own meaning. -/
theorem reservedWordsSetCmdErr : Obligations.ReservedWordsSetCmdErr := by
  refine fun s => ⟨fun w h0 h1 h2 => writes_cmd fun _ => exec_command_reserved h0 h1 h2 _, ?_, fun _ _ => rfl⟩
  simp only [List.forall_mem_cons]
  exact ⟨rfl, rfl, rfl, rfl, rfl, rfl, rfl, rfl, rfl, rfl, rfl, rfl, rfl, nofun⟩

end Sys2Proof.Machine
end

section
/-! SUPPORT. Two results side by side: both go on, to related states (45_host_commands.md R201). -/

namespace Sys2Proof.Machine

/-- Both results go on, to states that `R` relates. -/
def Both (r r' : Result) (R : State → State → Prop) : Prop := ∃ t t', r = .next t ∧ r' = .next t' ∧ R t t'

theorem Both.mono {r r' : Result} {P Q : State → State → Prop} (h : Both r r' P) (hPQ : ∀ t t', P t t' → Q t t') :
    Both r r' Q := by
  obtain ⟨t, t', hr, hr', hP⟩ := h
  exact ⟨t, t', hr, hr', hPQ t t' hP⟩

theorem Both.andThen {r r' : Result} {f f' : State → Result} {P Q : State → State → Prop} (h : Both r r' P)
    (hf : ∀ t t', P t t' → Both (f t) (f' t') Q) : Both (andThen r f) (andThen r' f') Q := by
  obtain ⟨t, t', rfl, rfl, hP⟩ := h
  exact hf t t' hP

/-- Two loops of stage TRACK that stay at the same instant, with the same end, and whose steps go on and keep a relation. -/
theorem Both.trackLoop {R : State → State → Prop} (hsame : ∀ u u', R u u' → u'.work.t = u.work.t ∧ u'.nl = u.nl)
    (hstep : ∀ u u', R u u' → u.work.t ≤ (countOfWord u.nl : Int) - 52 → Both (trackStep u) (trackStep u') R)
    (fuel : Nat) {s s' : State} (h : R s s') : Both (trackLoop fuel s) (trackLoop fuel s') R := by
  induction fuel generalizing s s' with
  | zero => exact ⟨s, s', rfl, rfl, h⟩
  | succ fuel ih =>
    obtain ⟨ht, hnl⟩ := hsame s s' h
    rw [trackLoop_succ, trackLoop_succ, ht, hnl]
    split
    · next hlast => exact (hstep s s' h hlast).andThen fun u u' hu => ih hu
    · exact ⟨s, s', rfl, rfl, h⟩

/-- The run of `k` steps (Host/Core.lean), as one more result. -/
def State.run (k : Nat) (s : State) : Result := Host.Core.run Sys2Proof.core k s

@[simp] theorem run_zero (s : State) : s.run 0 = .next s := rfl

/-- A run is its first step and the run of the steps after it. -/
theorem run_first (k : Nat) (s : State) : s.run (k + 1) = andThen (step s) (State.run k) := by
  simp only [State.run, Host.Core.run, show Sys2Proof.core.step s = step s from rfl]
  rcases step s with _ | _ | _ <;> rfl

/-- A run is the run of the steps before its last, and that step. -/
theorem run_last (k : Nat) (s : State) : s.run (k + 1) = andThen (s.run k) step := by
  induction k generalizing s with
  | zero =>
    rw [run_first, run_zero, andThen_next]
    rcases step s with _ | _ | _ <;> rfl
  | succ k ih => rw [run_first (k + 1), run_first k, andThen_assoc, funext ih]

end Sys2Proof.Machine
end

section
/-! SUPPORT. What the tracker takes from the filtered phase: two states that agree on it over the valid range have the same
costs, the same choices of the gate and the same dibits (43_timing_tracker.md R150 to R157, R164). -/

namespace Sys2Proof.Machine

/-- A term of a step reads a valid index for every candidate (R156). -/
theorem validAt_of_mem_termSet {s : State} {t c : Int} {k : Nat} (hc : c ∈ candidates t) (hk : k ∈ s.termSet t) :
    s.validAt (c + dirSign (directionOf t) * (25 * (k : Int))) := by
  rw [← termsFor_eq_termSet] at hk
  exact (validIndex_iff s _).mp (List.all_eq_true.mp (List.mem_filter.mp hk).2 c hc)

/-- The two states have the same filtered phase, threshold and length, as far as the tracker reads them: over the valid range
`50..Nl-51` (R164). -/
structure SameFilter (s s' : State) : Prop where
  nl : s'.nl = s.nl
  quadT : s'.cfg.quadT = s.cfg.quadT
  values : ∀ k : Nat, 50 ≤ k → k + 51 ≤ countOfWord s.nl → s'.elem .filt k = s.elem .filt k

namespace SameFilter

variable {s s' : State}

theorem filtValue (h : SameFilter s s') {x : Int} (hx : s.validAt x) : s'.filtValue x = s.filtValue x := by
  obtain ⟨hlow, hhigh⟩ := hx
  rw [State.filtValue, State.filtValue, h.values x.toNat (by omega) (by omega)]

theorem discAt (h : SameFilter s s') {x : Int} (hx : s.validAt x) : s'.discAt x = s.discAt x := by
  rw [State.discAt, State.discAt, h.quadT, h.filtValue hx]

theorem dibAt (h : SameFilter s s') {x : Int} (hx : s.validAt x) : s'.dibAt x = s.dibAt x := by
  rw [State.dibAt, State.dibAt, h.quadT, h.filtValue hx]

/-- A cost whose every term reads a valid index (R151). -/
theorem costAt (h : SameFilter s s') {c : Int} {dir : Dir} {terms : List Nat}
    (hvalid : ∀ k ∈ terms, s.validAt (c + dirSign dir * (25 * (k : Int)))) : s'.costAt c dir terms = s.costAt c dir terms :=
  congrArg List.sum (List.map_congr_left fun k hk => h.discAt (hvalid k hk))

theorem termSet (h : SameFilter s s') (t : Int) : s'.termSet t = s.termSet t := by
  rw [State.termSet, State.termSet, h.nl]

theorem candidateCost (h : SameFilter s s') {t c : Int} (hc : c ∈ candidates t) :
    s'.candidateCost t c = s.candidateCost t c := by
  rw [State.candidateCost, State.candidateCost, h.termSet]
  exact h.costAt fun k hk => validAt_of_mem_termSet hc hk

theorem chosenMove (h : SameFilter s s') (t : Int) : s'.chosenMove t = s.chosenMove t := by
  have hearly : (if hasEarly t then some (s'.candidateCost t (t - 1)) else none) =
      if hasEarly t then some (s.candidateCost t (t - 1)) else none :=
    if_ctx_congr Iff.rfl (fun he => congrArg some (h.candidateCost (early_mem_candidates he))) fun _ => rfl
  rw [State.chosenMove, State.chosenMove, hearly, h.candidateCost (self_mem_candidates t),
    h.candidateCost (late_mem_candidates t)]

/-- The costs of stage ACQUIRE read indices 50 to 299 (R152). -/
theorem offsetCost (h : SameFilter s s') (hmin : 359 ≤ countOfWord s.nl) {o : Nat} (ho : o < 25) :
    s'.offsetCost o = s.offsetCost o := by
  refine h.costAt fun k hk => ?_
  have hk : k < 10 := List.mem_range.mp hk
  simp only [State.validAt, dirSign]
  omega

end SameFilter

/-- There is only one first least index. -/
theorem firstLeast_unique {f g : Nat → Int} {n a b : Nat} (hfg : ∀ j, j < n → g j = f j) (ha : firstLeast f n a)
    (hb : firstLeast g n b) : b = a := by
  obtain ⟨han, hfa⟩ := ha
  obtain ⟨hbn, hgb⟩ := hb
  have hab := hfa b hbn
  have hba := hgb a han
  rw [hfg a han, hfg b hbn] at hba
  by_contra hne
  rcases Nat.lt_or_gt_of_ne hne with hlt | hlt
  · have := hab.2 hlt
    omega
  · have := hba.2 hlt
    omega

/-- Stage ACQUIRE finds the same instant in both (R152, R164). -/
theorem SameFilter.execAcquire {s s' : State} (h : SameFilter s s') (hmin : 359 ≤ countOfWord s.nl) :
    Both (execAcquire s) (execAcquire s') fun t t' =>
      t = { s with t0 := t.t0, work := t.work } ∧ t' = { s' with t0 := t'.t0, work := t'.work } ∧ t'.t0 = t.t0 ∧
        50 ≤ countOfWord t.t0 ∧ countOfWord t.t0 ≤ 74 := by
  obtain ⟨t, ht, hframe, o, ho, hword, hleast⟩ := acquireFindsFirstMinimum s
  obtain ⟨t', ht', hframe', o', ho', hword', hleast'⟩ := acquireFindsFirstMinimum s'
  have hsame : o' = o := firstLeast_unique (fun _ hj => h.offsetCost hmin hj) ⟨ho, hleast⟩ ⟨ho', hleast'⟩
  exact ⟨t, t', ht, ht', hframe, hframe', BitVec.eq_of_toNat_eq (hword'.trans (by rw [hsame, ← hword]; rfl)), by omega,
    by omega⟩

end Sys2Proof.Machine
end

section
/-! SUPPORT. Stage TRACK over the same filtered phase in two states (43_timing_tracker.md R153, R164): step by step the same
instants, dibits and runs. -/

namespace Sys2Proof.Machine

/-! Runs. -/

/-- The two states have recorded the same runs, and the same run is open in both. -/
structure SameRuns (s s' : State) : Prop where
  recorded : s'.runLen = s.runLen ∧ s'.runStart = s.runStart
  curValid : s'.work.curValid = s.work.curValid
  current : s.work.curValid = true →
    s'.work.curD = s.work.curD ∧ s'.work.curLen = s.work.curLen ∧ s'.work.curStart = s.work.curStart

namespace SameRuns

variable {s s' : State}

theorem closeRun (h : SameRuns s s') (hv : s.work.curValid = true) :
    s'.closeRun.runLen = s.closeRun.runLen ∧ s'.closeRun.runStart = s.closeRun.runStart := by
  obtain ⟨hlen, hstart⟩ := h.recorded
  obtain ⟨hd, hl, hs⟩ := h.current hv
  by_cases hlonger : countOfWord (s.runLen.get s.work.curD) < s.work.curLen
  · rw [closeRun_longer hlonger, closeRun_longer (s := s') (by rwa [hlen, hd, hl])]
    simp only [hlen, hstart, hd, hl, hs, and_self]
  · rw [closeRun_not_longer hlonger, closeRun_not_longer (s := s') (by rwa [hlen, hd, hl])]
    exact h.recorded

/-- SELECT and EMIT leave the runs alone. -/
theorem emitted (h : SameRuns s s') {t t' c c' : Int} {m m' : Move} :
    SameRuns ({ s with work := s.selectWork t }.emitted c m) ({ s' with work := s'.selectWork t' }.emitted c' m') :=
  ⟨h.recorded, h.curValid, h.current⟩

theorem updateRun (h : SameRuns s s') (d : Dibit) (c : Int) : SameRuns (s.updateRun d c) (s'.updateRun d c) := by
  cases hv : s.work.curValid with
  | false =>
    rw [updateRun_first hv, updateRun_first (h.curValid.trans hv)]
    exact ⟨h.recorded, rfl, fun _ => ⟨rfl, rfl, rfl⟩⟩
  | true =>
    have hv' : s'.work.curValid = true := h.curValid.trans hv
    obtain ⟨hd, hl, hs⟩ := h.current hv
    by_cases hsame : d = s.work.curD
    · subst hsame
      have hupdate := updateRun_same hv' c
      rw [hd] at hupdate
      rw [updateRun_same hv, hupdate]
      exact ⟨h.recorded, h.curValid, fun _ => ⟨hd, congrArg (· + 1) hl, hs⟩⟩
    · rw [updateRun_other hv hsame, updateRun_other hv' (by rwa [hd])]
      exact ⟨h.closeRun hv, h.curValid, fun _ => ⟨rfl, rfl, rfl⟩⟩

/-- The flush leaves the same runs recorded, and changes nothing else (R163). -/
theorem execRunFlush (h : SameRuns s s') : Both (execRunFlush s) (execRunFlush s') fun t t' =>
    t = { s with runLen := t.runLen, runStart := t.runStart } ∧
      t' = { s' with runLen := t.runLen, runStart := t.runStart } := by
  cases hv : s.work.curValid with
  | false =>
    refine ⟨s, s', execRunFlush_none hv, execRunFlush_none (h.curValid.trans hv), rfl, ?_⟩
    rw [← h.recorded.1, ← h.recorded.2]
  | true =>
    refine ⟨_, _, execRunFlush_open hv, execRunFlush_open (h.curValid.trans hv), closeRun_frame s, ?_⟩
    rw [← (h.closeRun hv).1, ← (h.closeRun hv).2]
    exact closeRun_frame s'

end SameRuns

/-! The loop. -/

/-- The state the loop of stage TRACK starts in, at instant `first` (R153). -/
def State.trackStart (s : State) (first : Nat) : State :=
  { s with nsym := 0, work := { s.work with t := first, curValid := false } }

theorem execTrack_eq (s : State) : execTrack s =
    andThen (trackLoop (countOfWord s.nl) (s.trackStart (countOfWord s.t0))) execRunFlush := rfl

/-- The two states hold the same word in each of the first `n` elements of a window. -/
def sharesElems (w : Window) (n : Nat) (s s' : State) : Prop :=
  ∀ k : Nat, k < n → ∃ v, s.stored w k = some v ∧ s'.stored w k = some v

/-- Two runs of stage TRACK, from `s` and `s'`, that are at the same step of its loop. -/
structure InStep (first : Nat) (s s' u u' : State) : Prop where
  tracked : Tracked first s u
  tracked' : Tracked first s' u'
  instant : u'.work.t = u.work.t
  nsym : u'.nsym = u.nsym
  runs : SameRuns u u'
  dibits : sharesElems .dibit (countOfWord u.nsym) u u'

/-- A store inside one window leaves the elements of the others alone. -/
theorem stored_of_sameBytesBut_other {w w' : Window} {lo hi k : Nat} {s t : State} (h : sameBytesBut w lo hi s t)
    (hw : w' ≠ w) (hhi : hi ≤ 16384) (hk : k < 16384) : t.stored w' k = s.stored w' k := by
  refine stored_eq_of_bytes fun a hlow hhigh => h a fun hin => ?_
  simp only [Window.addr] at hlow hhigh hin
  have hapart := Window.addr_apart (w := w) (w' := w') (k := (a - w.base) / 4) (by omega) hk (.inl hw.symm)
  simp only [Window.addr] at hapart
  omega

/-- The loop of stage TRACK leaves the filtered phase alone. -/
theorem Tracked.elem_filt {first : Nat} {s u : State} (h : Tracked first s u) {k : Nat} (hk : k < 16384)
    (hroom : countOfWord u.nsym ≤ 16384) : u.elem .filt k = s.elem .filt k := by
  have hepoch : u.epoch = s.epoch := by rw [h.frame]
  rw [State.elem, State.elem, stored_of_sameBytesBut_other h.bytes (by decide) hroom hk, hepoch]

/-- The room and the range a step of the loop needs (R166). -/
theorem Tracked.bounds {first : Nat} {s u : State} (h : Tracked first s u) (hfirst : 50 ≤ first)
    (hn : countOfWord s.nl ≤ s.cfg.nMax) :
    countOfWord u.nl ≤ u.cfg.nMax ∧ 50 ≤ u.work.t ∧ countOfWord u.nsym < 16384 := by
  have hnl : u.nl = s.nl := by rw [h.frame]
  have hcfg : u.cfg = s.cfg := by rw [h.frame]
  have hmax := s.cfg.nMax_le
  have hfast := h.fastest
  have hrange := h.inRange
  exact ⟨by rwa [hnl, hcfg], by omega, by omega⟩

/-- Everything a step of the loop adds, given where it stands: its entry of the stream, the instant it goes on to, and the
update of the runs by the emitted dibit (R153). -/
theorem Tracked.emits {first : Nat} {s u : State} (h : Tracked first s u) (hfirst : 50 ≤ first)
    (hn : countOfWord s.nl ≤ s.cfg.nMax) (hlast : u.work.t ≤ (countOfWord u.nl : Int) - 52) :
    let w := u.selectWork u.work.t
    ∃ v, trackStep u = .next v ∧ Tracked first s v ∧ v.nsym = wordOfCount (countOfWord u.nsym + 1) ∧
      countOfWord v.nsym = countOfWord u.nsym + 1 ∧
      (∀ k, k < countOfWord u.nsym → v.stored .dibit k = u.stored .dibit k) ∧ v.work.t = w.c + 25 ∧
      v.stored .dibit (countOfWord u.nsym) = some (dibitWord w.c w.move (u.dibAt w.c)) ∧
      v = ({ u with work := w }.emitted w.c w.move).updateRun (u.dibAt w.c) w.c := by
  intro w
  obtain ⟨hfits, h50, hroom⟩ := h.bounds hfirst hn
  obtain ⟨v, hv, htracked⟩ := h.next hfirst hn hlast
  obtain ⟨v₁, hv₁, ht, hentry⟩ := trackStep_entry hfits h50 hlast hroom
  obtain rfl : v₁ = v := Host.Outcome.next.inj (hv₁.symm.trans hv)
  obtain ⟨_, _, _, _, hnsym, hbytes, _⟩ := trackStep_next hv
  exact ⟨v₁, hv, htracked, hnsym, by rw [hnsym, countOfWord_wordOfCount (by omega)],
    fun k hk => stored_of_sameBytesBut hbytes hk, ht, hentry,
    Host.Outcome.next.inj (hv.symm.trans (trackStep_eq hfits h50 hlast hroom))⟩

/-- The gate chooses the same instant by the same move, and the dibit there is the same. -/
theorem SameFilter.selectWork {u u' : State} {t : Int} (h : SameFilter u u') (h50 : 50 ≤ t)
    (hlast : t ≤ (countOfWord u.nl : Int) - 52) :
    let w := u.selectWork t
    (u'.selectWork t).c = w.c ∧ (u'.selectWork t).move = w.move ∧ u'.dibAt w.c = u.dibAt w.c := by
  intro w
  have hnear : _ ∧ w.c ≤ t + 1 := selectWork_c_near u t
  exact ⟨congrArg (movedInstant t) (h.chosenMove t), h.chosenMove t,
    h.dibAt ⟨selectWork_c_ge u h50, show w.c ≤ (countOfWord u.nl : Int) - 51 by omega⟩⟩

namespace InStep

variable {first : Nat} {s s' u u' : State}

/-- The two runs still read the filtered phase they began with. -/
theorem sameFilter (h : InStep first s s' u u') (hfirst : 50 ≤ first) (hn : countOfWord s.nl ≤ s.cfg.nMax)
    (hn' : countOfWord s'.nl ≤ s'.cfg.nMax) (hfilter : SameFilter s s') : SameFilter u u' := by
  have hnl : u.nl = s.nl := by rw [h.tracked.frame]
  have hmax := s.cfg.nMax_le
  obtain ⟨_, _, hroom⟩ := h.tracked.bounds hfirst hn
  obtain ⟨_, _, hroom'⟩ := h.tracked'.bounds hfirst hn'
  refine ⟨?_, ?_, fun k hlow hhigh => ?_⟩
  · rw [h.tracked.frame, h.tracked'.frame]
    exact hfilter.nl
  · rw [h.tracked.frame, h.tracked'.frame]
    exact hfilter.quadT
  · rw [hnl] at hhigh
    rw [h.tracked.elem_filt (by omega) hroom.le, h.tracked'.elem_filt (by omega) hroom'.le, hfilter.values k hlow hhigh]

/-- A step of both loops takes the same choice (R154 to R157) and emits the same dibit (R158), so they stay in step. -/
theorem trackStep (h : InStep first s s' u u') (hfirst : 50 ≤ first) (hn : countOfWord s.nl ≤ s.cfg.nMax)
    (hn' : countOfWord s'.nl ≤ s'.cfg.nMax) (hfilter : SameFilter s s')
    (hlast : u.work.t ≤ (countOfWord u.nl : Int) - 52) :
    Both (trackStep u) (trackStep u') (InStep first s s') := by
  have hsame := h.sameFilter hfirst hn hn' hfilter
  obtain ⟨v, hv, htracked, hnsym, hcount, hold, ht, hentry, hruns⟩ := h.tracked.emits hfirst hn hlast
  obtain ⟨v', hv', htracked', hnsym', _, hold', ht', hentry', hruns'⟩ :=
    h.tracked'.emits hfirst hn' (by rwa [h.instant, hsame.nl])
  obtain ⟨hc, hm, hd⟩ := hsame.selectWork (h.tracked.bounds hfirst hn).2.1 hlast
  rw [h.instant, hc] at ht' hruns' hentry'
  rw [hm, hd, h.nsym] at hentry'
  rw [hd] at hruns'
  refine ⟨v, v', hv, hv', htracked, htracked', by rw [ht, ht'], by rw [hnsym, hnsym', h.nsym], ?_, fun k hk => ?_⟩
  · rw [hruns, hruns']
    exact h.runs.emitted.updateRun _ _
  · rcases Nat.lt_succ_iff_lt_or_eq.mp (hcount ▸ hk) with hk | rfl
    · rw [hold k hk, hold' k (by rwa [h.nsym])]
      exact h.dibits k hk
    · exact ⟨_, hentry, hentry'⟩

/-- Two runs of stage TRACK begin in step. -/
theorem start (h359 : first + 28 ≤ countOfWord s.nl) (hnl : s'.nl = s.nl)
    (hruns : s'.runLen = s.runLen ∧ s'.runStart = s.runStart) :
    InStep first s s' (s.trackStart first) (s'.trackStart first) where
  tracked := Tracked.start h359 _ rfl
  tracked' := Tracked.start (by rwa [hnl]) _ rfl
  instant := rfl
  nsym := rfl
  runs := ⟨hruns, rfl, nofun⟩
  dibits := fun k hk => absurd hk k.not_lt_zero

end InStep

/-- Stage TRACK, from the instant stage ACQUIRE leaves in both, gives the same stream and the same runs (R153, R164). -/
theorem SameFilter.execTrack {s s' : State} (h : SameFilter s s') (h359 : 359 ≤ countOfWord s.nl)
    (hn : countOfWord s.nl ≤ s.cfg.nMax) (hn' : countOfWord s'.nl ≤ s'.cfg.nMax) (ht0 : s'.t0 = s.t0)
    (h50 : 50 ≤ countOfWord s.t0) (h74 : countOfWord s.t0 ≤ 74)
    (hruns : s'.runLen = s.runLen ∧ s'.runStart = s.runStart) :
    Both (execTrack s) (execTrack s') fun t t' =>
      Tracked (countOfWord s.t0) s t ∧ Tracked (countOfWord s.t0) s' t' ∧ t'.nsym = t.nsym ∧ t'.runLen = t.runLen ∧
        t'.runStart = t.runStart ∧ sharesElems .dibit (countOfWord t.nsym) t t' := by
  have hloop := Both.trackLoop (R := InStep (countOfWord s.t0) s s')
    (fun u u' hu => ⟨hu.instant, (hu.sameFilter h50 hn hn' h).nl⟩)
    (fun u u' hu hlast => hu.trackStep h50 hn hn' h hlast) (countOfWord s.nl) (InStep.start (by omega) h.nl hruns)
  rw [execTrack_eq, execTrack_eq, h.nl, ht0]
  refine hloop.andThen fun u u' hu => hu.runs.execRunFlush.mono fun t t' ⟨ht, ht'⟩ => ?_
  rw [ht, ht']
  exact ⟨hu.tracked.runs _ _, hu.tracked'.runs _ _, hu.nsym, rfl, rfl, hu.dibits⟩

end Sys2Proof.Machine
end

section
/-! SUPPORT. Stage EXTRACT over the same input and the same runs in two states (44_segment_extractor.md R180, R181): the same
lengths and the same segments. -/

namespace Sys2Proof.Machine

/-- The two states have what stage EXTRACT takes: the latched parameters, the runs, and the samples below `Nl`, all written. -/
structure SameSpans (s s' : State) : Prop where
  nl : s'.nl = s.nl
  ml : s'.ml = s.ml
  runs : s'.runLen = s.runLen ∧ s'.runStart = s.runStart
  samples : ∀ w : Window, w.isInput = true → ∀ k : Nat, k < countOfWord s.nl →
    ∃ v, s.sample w k = some v ∧ s'.sample w k = some v

/-- A segment's start depends on the lengths before it only. -/
theorem segStart_congr {lens lens' : PerDibit Word} {d : Dibit} (h : ∀ e, e < d → lens'.get e = lens.get e) :
    segStart lens' d = segStart lens d := by
  have h0 := h 0
  have h1 := h 1
  have h2 := h 2
  simp only [PerDibit.get] at h0 h1 h2
  fin_cases d <;> simp_all [segStart]

/-- Every element below the total length lies in one segment. -/
theorem exists_segment {lens : PerDibit Word} {k : Nat} (h : k < segTotal lens) :
    ∃ (d : Dibit) (m : Nat), m < countOfWord (lens.get d) ∧ k = segStart lens d + m := by
  obtain ⟨a, b, c, d⟩ := lens
  simp only [segTotal] at h
  by_cases h0 : k < countOfWord a
  · exact ⟨0, k, h0, (Nat.zero_add k).symm⟩
  by_cases h1 : k < countOfWord a + countOfWord b
  · exact ⟨1, k - countOfWord a, by simp only [PerDibit.get]; omega, by simp only [segStart]; omega⟩
  by_cases h2 : k < countOfWord a + countOfWord b + countOfWord c
  · exact ⟨2, k - (countOfWord a + countOfWord b), by simp only [PerDibit.get]; omega, by simp only [segStart]; omega⟩
  · exact ⟨3, k - (countOfWord a + countOfWord b + countOfWord c), by simp only [PerDibit.get]; omega,
      by simp only [segStart]; omega⟩

namespace SameSpans

variable {s s' t t' : State}

theorem spanLo (h : SameSpans s s') (d : Dibit) : s'.spanLo d = s.spanLo d := by
  rw [State.spanLo, State.spanLo, h.runs.2]

theorem spanCount (h : SameSpans s s') (used : Nat) (d : Dibit) :
    (s'.atUsed used).spanCount d = (s.atUsed used).spanCount d := by
  simp only [State.spanCount, State.spanLen, State.atUsed, h.nl, h.ml, h.runs]

/-- The reported lengths agree: each is the span clipped to what those before it left of the capacity. -/
theorem segLen (h : SameSpans s s') (ht : Measured s 4 t) (ht' : Measured s' 4 t') : t'.segLen = t.segLen := by
  refine PerDibit.ext_get fun d => ?_
  induction d using WellFoundedLT.induction with
  | ind d ih =>
    have hlen := ht.lengths d d.isLt
    have hlen' := ht'.lengths d d.isLt
    rw [segStart_congr ih, h.spanCount] at hlen'
    exact BitVec.eq_of_toNat_eq (hlen'.trans hlen.symm)

/-- The segments agree: each is the head of its span. -/
theorem segments (h : SameSpans s s') (ht : LaidOut s 4 t) (ht' : LaidOut s' 4 t') :
    sharesElems .segI (segTotal t.segLen) t t' ∧ sharesElems .segQ (segTotal t.segLen) t t' := by
  have hlens := h.segLen ht.toMeasured ht'.toMeasured
  have hshared : ∀ k, k < segTotal t.segLen → (∃ v, t.stored .segI k = some v ∧ t'.stored .segI k = some v) ∧
      ∃ v, t.stored .segQ k = some v ∧ t'.stored .segQ k = some v := by
    intro k hk
    obtain ⟨d, m, hm, rfl⟩ := exists_segment hk
    obtain ⟨iv, qv, hI, hQ, htI, htQ⟩ := ht.samples d d.isLt m hm
    obtain ⟨iv', qv', hI', hQ', htI', htQ'⟩ := ht'.samples d d.isLt m (by rwa [hlens])
    have hinside : s.spanLo d + m < countOfWord s.nl :=
      spanLo_add_lt (s := s.atUsed (segStart t.segLen d)) (ht.lengths d d.isLt ▸ hm)
    have hsame : ∀ {w : Window} {v v' : Int}, w.isInput = true → s.sample w (s.spanLo d + m) = some v →
        s'.sample w (s'.spanLo d + m) = some v' → v' = v := by
      intro w v v' hw hv hv'
      obtain ⟨x, hx, hx'⟩ := h.samples w hw _ hinside
      rw [h.spanLo] at hv'
      exact Option.some.inj (hv'.symm.trans (hx'.trans (hx.symm.trans hv)))
    rw [hlens, hsame rfl hI hI'] at htI'
    rw [hlens, hsame rfl hQ hQ'] at htQ'
    exact ⟨⟨_, htI, htI'⟩, ⟨_, htQ, htQ'⟩⟩
  exact ⟨fun k hk => (hshared k hk).1, fun k hk => (hshared k hk).2⟩

end SameSpans

end Sys2Proof.Machine
end

section
/-! SUPPORT. Two analyses of the same inputs (45_host_commands.md R201): turn by turn of the engine the same registers and the
same elements, whatever else the two states hold. -/

namespace Sys2Proof.Machine

/-! One analysis under way. -/

/-- An analysis of `N = n` that fits the memories is in stage `c`, with no input listed. -/
structure Running (c : BitVec 3) (n : Word) (s : State) : Prop where
  busy : s.busy = true
  stage : s.stage = c
  inputs : s.inputs = []
  nl : s.nl = n
  fitsInput : countOfWord n ≤ s.cfg.nMax
  fitsSegs : countOfWord s.ml ≤ s.cfg.segMax

/-- All that a stage changes: result registers, memory and working registers. -/
def stageFrame (s t : State) : Prop :=
  t = { s with
    t0 := t.t0, nsym := t.nsym, runLen := t.runLen, runStart := t.runStart, segLen := t.segLen, mem := t.mem, work := t.work }

theorem advance_next {s : State} (h : s.stage ≠ 6) : s.advance = { s.leaveStage with stage := s.stage + 1 } := if_neg h

theorem advance_last {s : State} (h : s.stage = 6) : s.advance = s.leaveStage.complete := if_pos h

namespace Running

variable {c : BitVec 3} {n : Word} {s t : State}

theorem le_count (h : Running c n s) : countOfWord n ≤ 16384 := h.fitsInput.trans s.cfg.nMax_le

theorem nl_le (h : Running c n s) : countOfWord s.nl ≤ s.cfg.nMax := by
  rw [h.nl]
  exact h.fitsInput

/-- A turn in a stage runs its instruction (R194). -/
theorem step_eq (h : Running c n s) {i : Instr} (hi : decode (.stage c) = .ok i) :
    step s = andThen (exec i s) fun t => .next t.advance := by
  have hc : c ≠ 0 := by
    rintro rfl
    cases hi
  rw [step_empty h.inputs, engineStep, if_neg (by simp [h.busy]), h.stage, if_neg hc, hi]

/-- From acceptance, with enough data, a turn enters stage 1 (R194). -/
theorem enter (h : Running 0 n s) (hmin : 359 ≤ countOfWord n) : step s = .next { s with stage := 1 } := by
  have henough : ¬countOfWord s.nl < N_MIN := by
    rw [h.nl]
    exact Nat.not_lt.mpr hmin
  rw [step_empty h.inputs, engineStep, if_neg (by simp [h.busy]), if_pos h.stage, if_neg henough]

theorem of_frame (h : Running c n s) (hframe : stageFrame s t) : Running c n t := by
  rw [hframe]
  exact ⟨h.busy, h.stage, h.inputs, h.nl, h.fitsInput, h.fitsSegs⟩

theorem advance (h : Running c n s) (hc : c ≠ 6) : Running (c + 1) n s.advance := by
  rw [advance_next (by rwa [h.stage])]
  exact ⟨h.busy, congrArg (· + 1) h.stage, h.inputs, h.nl, h.fitsInput, h.fitsSegs⟩

end Running

/-! Two analyses. -/

/-- The two states hold the same result registers. -/
def sameRegisters (s s' : State) : Prop :=
  s'.t0 = s.t0 ∧ s'.nsym = s.nsym ∧ (s'.runLen = s.runLen ∧ s'.runStart = s.runStart) ∧ s'.segLen = s.segLen

/-- Two analyses of the same inputs are in stage `c`, and the stages so far have given both the same results: the registers,
and of each window in `done` the given number of elements. -/
structure Twins (c : BitVec 3) (n : Word) (done : List (Window × Nat)) (s s' : State) : Prop where
  left : Running c n s
  right : Running c n s'
  enough : 359 ≤ countOfWord n
  kernel : s'.cfg.kernel = s.cfg.kernel
  gain : s'.cfg.gain = s.cfg.gain
  quadT : s'.cfg.quadT = s.cfg.quadT
  ml : s'.ml = s.ml
  samples : ∀ w : Window, w.isInput = true → ∀ k : Nat, k < countOfWord n →
    ∃ v, s.sample w k = some v ∧ s'.sample w k = some v
  registers : sameRegisters s s'
  shared : ∀ p ∈ done, p.2 ≤ 16384 ∧ sharesElems p.1 p.2 s s'

/-- Every element of a window outside `ws` is in `t` what it is in `s`. -/
def keepsBut (ws : List Window) (s t : State) : Prop := ∀ w, w ∉ ws → ∀ k : Nat, k < 16384 → t.stored w k = s.stored w k

theorem sameBytesBut.keepsBut {w : Window} {lo hi : Nat} {s t : State} (h : sameBytesBut w lo hi s t) (hhi : hi ≤ 16384) :
    keepsBut [w] s t := fun _ hw _ hk => stored_of_sameBytesBut_other h (List.ne_of_not_mem_cons hw) hhi hk

/-- The segment memories lie above all others (10_state.md R41). -/
theorem sameBytesButSegs.keepsBut {lo hi : Nat} {s t : State} (h : sameBytesButSegs lo hi s t) :
    keepsBut [.segI, .segQ] s t := by
  intro w hw k hk
  have hbelow : w.addr k + 4 ≤ 0x70000 := by
    cases w <;> simp only [Window.addr, Window.base] <;> first | omega | simp at hw
  refine stored_eq_of_bytes fun a _ hb => h a ?_ ?_ <;> simp only [Window.addr, Window.base] at * <;> omega

theorem Swept.stageFrame {w : Window} {f : Nat → Word} {s u : State} {i : Nat} (h : Swept w f s i u) : stageFrame s u := by
  rw [Machine.stageFrame, h.frame]

namespace Twins

variable {c : BitVec 3} {n : Word} {done : List (Window × Nat)} {s s' t t' : State}

/-- The words of a shared element agree, drawn or not. -/
theorem elem_eq (h : Twins c n done s s') {w : Window} {m k : Nat} (hw : (w, m) ∈ done) (hk : k < m) :
    s'.elem w k = s.elem w k := by
  obtain ⟨v, hv, hv'⟩ := (h.shared _ hw).2 k hk
  rw [elem_of_stored hv, elem_of_stored hv']

theorem filled (h : Twins c n done s s') {w : Window} (hw : w.isInput = true) : s.filled w ∧ s'.filled w := by
  constructor <;> intro k hk
  · obtain ⟨_, hv, _⟩ := h.samples w hw k (by rwa [h.left.nl] at hk)
    exact (sample_eq_some hv).2
  · obtain ⟨_, _, hv⟩ := h.samples w hw k (by rwa [h.right.nl] at hk)
    exact (sample_eq_some hv).2

theorem sameFilter (h : Twins c n done s s') (hfilt : (.filt, countOfWord n) ∈ done) : SameFilter s s' where
  nl := h.right.nl.trans h.left.nl.symm
  quadT := h.quadT
  values := fun k _ hk => h.elem_eq hfilt (by rw [h.left.nl] at hk; omega)

theorem sameSpans (h : Twins c n done s s') : SameSpans s s' where
  nl := h.right.nl.trans h.left.nl.symm
  ml := h.ml
  runs := by
    obtain ⟨_, _, hruns, _⟩ := h.registers
    exact hruns
  samples := by
    rw [h.left.nl]
    exact h.samples

/-- A stage of both that keeps to its frame, reports the same, and writes the same elements to windows of its own. -/
theorem after (h : Twins c n done s s') {written : List (Window × Nat)} (hframe : stageFrame s t) (hframe' : stageFrame s' t')
    (hkept : keepsBut (written.map Prod.fst) s t) (hkept' : keepsBut (written.map Prod.fst) s' t')
    (hown : ∀ w ∈ written.map Prod.fst, w.isInput = false ∧ w ∉ done.map Prod.fst) (hregs : sameRegisters t t')
    (hnew : ∀ p ∈ written, p.2 ≤ 16384 ∧ sharesElems p.1 p.2 t t') : Twins c n (written ++ done) t t' where
  left := h.left.of_frame hframe
  right := h.right.of_frame hframe'
  enough := h.enough
  kernel := by rw [hframe, hframe']; exact h.kernel
  gain := by rw [hframe, hframe']; exact h.gain
  quadT := by rw [hframe, hframe']; exact h.quadT
  ml := by rw [hframe, hframe']; exact h.ml
  samples := fun w hw k hk => by
    have hn := h.left.le_count
    have hnot : w ∉ written.map Prod.fst := fun hmem => by
      rw [(hown w hmem).1] at hw
      cases hw
    have hcfg : t.cfg = s.cfg := by rw [hframe]
    have hcfg' : t'.cfg = s'.cfg := by rw [hframe']
    rw [sample_congr hcfg (hkept w hnot k (by omega)), sample_congr hcfg' (hkept' w hnot k (by omega))]
    exact h.samples w hw k hk
  registers := hregs
  shared := fun p hp => by
    rcases List.mem_append.mp hp with hp | hp
    · exact hnew p hp
    · obtain ⟨hle, hshared⟩ := h.shared p hp
      have hnot : p.1 ∉ written.map Prod.fst := fun hmem => (hown _ hmem).2 (List.mem_map_of_mem hp)
      refine ⟨hle, fun k hk => ?_⟩
      rw [hkept _ hnot k (by omega), hkept' _ hnot k (by omega)]
      exact hshared k hk

/-- The sequencer's advance leaves the results alone. -/
theorem advance (h : Twins c n done s s') (hc : c ≠ 6) : Twins (c + 1) n done s.advance s'.advance := by
  have hleft := h.left.advance hc
  have hright := h.right.advance hc
  rw [advance_next (by rwa [h.left.stage])] at hleft ⊢
  rw [advance_next (by rwa [h.right.stage])] at hright ⊢
  exact ⟨hleft, hright, h.enough, h.kernel, h.gain, h.quadT, h.ml, h.samples, h.registers, h.shared⟩

/-- A turn of both engines runs the instruction of the stage, and advances. -/
theorem turn (h : Twins c n done s s') {i : Instr} (hi : decode (.stage c) = .ok i) {P Q : State → State → Prop}
    (hrun : Both (exec i s) (exec i s') P) (hadvance : ∀ t t', P t t' → Q t.advance t'.advance) :
    Both (step s) (step s') Q := by
  rw [h.left.step_eq hi, h.right.step_eq hi]
  exact hrun.andThen fun t t' ht => ⟨_, _, rfl, rfl, hadvance t t' ht⟩

/-- A sweep of both that writes the same values to a window of its own. -/
theorem sweep (h : Twins c n done s s') {w : Window} {f f' : Nat → Word} (hw : w.isInput = false)
    (hown : w ∉ done.map Prod.fst) (ht : Swept w f s (countOfWord s.nl) t) (ht' : Swept w f' s' (countOfWord s'.nl) t')
    (hf : ∀ k, k < countOfWord n → f' k = f k) : Twins c n ((w, countOfWord n) :: done) t t' := by
  have hn := h.left.le_count
  rw [h.left.nl] at ht
  rw [h.right.nl] at ht'
  refine h.after (written := [(w, countOfWord n)]) ht.stageFrame ht'.stageFrame (ht.bytes.keepsBut hn) (ht'.bytes.keepsBut hn)
    ?_ ?_ ?_
  · rintro _ hmem
    obtain rfl := List.mem_singleton.mp hmem
    exact ⟨hw, hown⟩
  · rw [ht.frame, ht'.frame]
    exact h.registers
  · rintro _ hmem
    obtain rfl := List.mem_singleton.mp hmem
    exact ⟨hn, fun k hk => ⟨f k, ht.values k hk, hf k hk ▸ ht'.values k hk⟩⟩

/-! The stages. -/

/-- Stage PHASE computes the same phases: they are a function of the samples (40_phase_estimator.md R104). -/
theorem phase (h : Twins 1 n [] s s') : Both (step s) (step s') (Twins 2 n [(.phase, countOfWord n)]) := by
  obtain ⟨hI, hI'⟩ := h.filled (w := .inI) rfl
  obtain ⟨hQ, hQ'⟩ := h.filled (w := .inQ) rfl
  obtain ⟨t, ht, hswept⟩ := execPhase_filled h.left.nl_le hI hQ
  obtain ⟨t', ht', hswept'⟩ := execPhase_filled h.right.nl_le hI' hQ'
  have hvalues : ∀ k, k < countOfWord n → wordOfInt (s'.phaseValue k) = wordOfInt (s.phaseValue k) := by
    intro k hk
    obtain ⟨iv, hiv, hiv'⟩ := h.samples .inI rfl k hk
    obtain ⟨qv, hqv, hqv'⟩ := h.samples .inQ rfl k hk
    rw [phaseValue_of_samples hiv hqv, phaseValue_of_samples hiv' hqv']
  exact h.turn (i := .phase) rfl ⟨t, t', ht, ht', h.sweep rfl (by simp) hswept hswept' hvalues⟩
    fun _ _ ht => ht.advance (by decide)

/-- Stage DIFF computes the same differences: they are a function of the phases (41_differential_filter.md R121). -/
theorem diff (h : Twins 2 n [(.phase, countOfWord n)] s s') :
    Both (step s) (step s') (Twins 3 n [(.diff, countOfWord n), (.phase, countOfWord n)]) := by
  obtain ⟨t, ht, hswept⟩ := execDiff_inside h.left.nl_le
  obtain ⟨t', ht', hswept'⟩ := execDiff_inside h.right.nl_le
  have hvalues : ∀ k, k < countOfWord n → wordOfInt (s'.diffValue k) = wordOfInt (s.diffValue k) := by
    intro k hk
    have hphase : ∀ j, j ≤ k → s'.elem .phase j = s.elem .phase j := fun j hj =>
      h.elem_eq (List.mem_singleton.mpr rfl) (by omega)
    rw [State.diffValue, State.diffValue, hphase _ (Nat.sub_le k LAG), hphase k le_rfl]
  exact h.turn (i := .diff) rfl ⟨t, t', ht, ht', h.sweep rfl (by simp) hswept hswept' hvalues⟩
    fun _ _ ht => ht.advance (by decide)

/-- Stage FILTER computes the same filtered phase: it is a function of the differences and of the kernel and gain (R122). -/
theorem filter (h : Twins 3 n [(.diff, countOfWord n), (.phase, countOfWord n)] s s') :
    Both (step s) (step s')
      (Twins 4 n [(.filt, countOfWord n), (.diff, countOfWord n), (.phase, countOfWord n)]) := by
  obtain ⟨t, ht, hswept⟩ := execFilter_inside h.left.nl_le
  obtain ⟨t', ht', hswept'⟩ := execFilter_inside h.right.nl_le
  have hvalues : ∀ k, k < countOfWord n → wordOfInt (s'.filterValue k) = wordOfInt (s.filterValue k) := by
    intro k _
    rw [State.filterValue, State.filterValue, h.left.nl, h.right.nl, h.kernel, h.gain]
    refine congrArg wordOfInt (if_ctx_congr Iff.rfl (fun hvalid => ?_) fun _ => rfl)
    refine congrArg (fun l => tdiv (List.sum l) _) (List.map_congr_left fun j hj => ?_)
    have hj : j < 101 := List.mem_range.mp hj
    rw [h.elem_eq (w := .diff) (m := countOfWord n) (by simp) (by simp only [HALF_K] at hvalid ⊢; omega)]
  exact h.turn (i := .filter) rfl ⟨t, t', ht, ht', h.sweep rfl (by simp) hswept hswept' hvalues⟩
    fun _ _ ht => ht.advance (by decide)

/-- Stage ACQUIRE finds the same instant (43_timing_tracker.md R152). -/
theorem acquire (h : Twins 4 n done s s') (hfilt : (.filt, countOfWord n) ∈ done) :
    Both (step s) (step s') fun t t' => Twins 5 n done t t' ∧ 50 ≤ countOfWord t.t0 ∧ countOfWord t.t0 ≤ 74 := by
  have hacquire := (h.sameFilter hfilt).execAcquire (by rw [h.left.nl]; exact h.enough)
  refine h.turn (i := .acquire) rfl hacquire fun t t' ⟨hf, hf', ht0, h50, h74⟩ => ⟨?_, ?_⟩
  · have hregs : sameRegisters t t' := by
      obtain ⟨_, hnsym, hruns, hseg⟩ := h.registers
      refine ⟨ht0, ?_⟩
      rw [hf, hf']
      exact ⟨hnsym, hruns, hseg⟩
    refine (h.after (written := []) ?_ ?_ ?_ ?_ nofun hregs nofun).advance (by decide)
    · rw [stageFrame, hf]
    · rw [stageFrame, hf']
    · intro w _ k _
      rw [hf]
      rfl
    · intro w _ k _
      rw [hf']
      rfl
  · rw [advance_frame]
    exact ⟨h50, h74⟩

/-- Stage TRACK emits the same dibits and records the same runs (R153). -/
theorem track (h : Twins 5 n done s s') (h50 : 50 ≤ countOfWord s.t0) (h74 : countOfWord s.t0 ≤ 74)
    (hfilt : (.filt, countOfWord n) ∈ done) (hown : .dibit ∉ done.map Prod.fst) :
    Both (step s) (step s') fun t t' => Twins 6 n ((.dibit, countOfWord t.nsym) :: done) t t' := by
  obtain ⟨ht0, _, hruns, hseg⟩ := h.registers
  have htrack := (h.sameFilter hfilt).execTrack (by rw [h.left.nl]; exact h.enough) h.left.nl_le h.right.nl_le ht0 h50 h74
    hruns
  refine h.turn (i := .track) rfl htrack fun t t' ⟨htracked, htracked', hnsym, hlen, hstart, hdibits⟩ => ?_
  have hroom : countOfWord t.nsym ≤ 16384 := (htracked.bounds h50 h.left.nl_le).2.2.le
  have hregs : sameRegisters t t' := by
    refine ⟨?_, hnsym, ⟨hlen, hstart⟩, ?_⟩
    · rw [htracked.frame, htracked'.frame]
      exact ht0
    · rw [htracked.frame, htracked'.frame]
      exact hseg
  have hafter : Twins 5 n ([(.dibit, countOfWord t.nsym)] ++ done) t t' := by
    refine h.after ?_ ?_ (htracked.bytes.keepsBut hroom) (htracked'.bytes.keepsBut (by rwa [hnsym])) ?_ hregs ?_
    · rw [stageFrame, htracked.frame]
    · rw [stageFrame, htracked'.frame]
    · exact List.forall_mem_singleton.mpr ⟨rfl, hown⟩
    · exact List.forall_mem_singleton.mpr ⟨hroom, hdibits⟩
  have hadvanced := hafter.advance (by decide)
  have hcount : t.advance.nsym = t.nsym := by rw [advance_frame]
  rw [hcount]
  exact hadvanced

/-- Stage EXTRACT copies the same segments (44_segment_extractor.md R180). -/
theorem extract (h : Twins 6 n done s s') (hI : .segI ∉ done.map Prod.fst) (hQ : .segQ ∉ done.map Prod.fst) :
    Both (exec .extract s) (exec .extract s') fun t t' => t.nsym = s.nsym ∧
      Twins 6 n ([(.segI, segTotal t.segLen), (.segQ, segTotal t.segLen)] ++ done) t t' := by
  obtain ⟨hfI, hfI'⟩ := h.filled (w := .inI) rfl
  obtain ⟨hfQ, hfQ'⟩ := h.filled (w := .inQ) rfl
  obtain ⟨t, ht, hlaid⟩ := execExtract_laidOut h.left.nl_le h.left.fitsSegs hfI hfQ
  obtain ⟨t', ht', hlaid'⟩ := execExtract_laidOut h.right.nl_le h.right.fitsSegs hfI' hfQ'
  have hroom : segTotal t.segLen ≤ 16384 := hlaid.segsEnd_le h.left.fitsSegs
  obtain ⟨hsegI, hsegQ⟩ := h.sameSpans.segments hlaid hlaid'
  refine ⟨t, t', ht, ht', by rw [hlaid.frame], h.after ?_ ?_ hlaid.bytes.keepsBut hlaid'.bytes.keepsBut ?_ ?_ ?_⟩
  · rw [stageFrame, hlaid.frame]
  · rw [stageFrame, hlaid'.frame]
  · exact List.forall_mem_cons.mpr ⟨⟨rfl, hI⟩, List.forall_mem_singleton.mpr ⟨rfl, hQ⟩⟩
  · obtain ⟨ht0, hnsym, hruns, _⟩ := h.registers
    refine ⟨?_, ?_, ?_, h.sameSpans.segLen hlaid.toMeasured hlaid'.toMeasured⟩
    · rw [hlaid.frame, hlaid'.frame]
      exact ht0
    · rw [hlaid.frame, hlaid'.frame]
      exact hnsym
    · rw [hlaid.frame, hlaid'.frame]
      exact hruns
  · exact List.forall_mem_cons.mpr ⟨⟨hroom, hsegI⟩, List.forall_mem_singleton.mpr ⟨hroom, hsegQ⟩⟩

/-- What an analysis has given in all when its last stage ends. -/
def results (n : Word) (s : State) : List (Window × Nat) :=
  [(.segI, segTotal s.segLen), (.segQ, segTotal s.segLen), (.dibit, countOfWord s.nsym), (.filt, countOfWord n),
    (.diff, countOfWord n), (.phase, countOfWord n)]

/-- Both analyses of `n` samples came to completion, with the same results. -/
def completed (n : Nat) (t t' : State) : Prop :=
  (t.inputs = [] ∧ t'.inputs = []) ∧ (t.busy = false ∧ t'.busy = false) ∧ SameResults n t t'

/-- Completion after the last stage leaves all the results in place (R195). -/
theorem complete (h : Twins 6 n (results n s) s s') : completed (countOfWord n) s.advance s'.advance := by
  have hstored : ∀ {w : Window} {m k : Nat}, (w, m) ∈ results n s → k < m → s'.stored w k = s.stored w k := by
    intro w m k hmem hk
    obtain ⟨v, hv, hv'⟩ := (h.shared _ hmem).2 k hk
    rw [hv, hv']
  obtain ⟨ht0, hnsym, hruns, hseg⟩ := h.registers
  rw [advance_last h.left.stage, advance_last h.right.stage]
  refine ⟨⟨h.left.inputs, h.right.inputs⟩, ⟨rfl, rfl⟩, ht0, hnsym, hruns, hseg, fun k hk => ⟨?_, ?_, ?_⟩, fun k hk => ?_,
    fun k hk => ⟨?_, ?_⟩⟩
  · exact hstored (w := .phase) (by simp [results]) hk
  · exact hstored (w := .diff) (by simp [results]) hk
  · exact hstored (w := .filt) (by simp [results]) hk
  · exact hstored (w := .dibit) (by simp [results]) hk
  · exact hstored (w := .segI) (by simp [results]) hk
  · exact hstored (w := .segQ) (by simp [results]) hk

/-- From acceptance both engines enter stage PHASE (R194). -/
theorem enter (h : Twins 0 n [] s s') : Both (step s) (step s') (Twins 1 n []) := by
  refine ⟨_, _, h.left.enter h.enough, h.right.enter h.enough, ?_⟩
  exact ⟨⟨h.left.busy, rfl, h.left.inputs, h.left.nl, h.left.fitsInput, h.left.fitsSegs⟩,
    ⟨h.right.busy, rfl, h.right.inputs, h.right.nl, h.right.fitsInput, h.right.fitsSegs⟩, h.enough, h.kernel, h.gain,
    h.quadT, h.ml, h.samples, h.registers, nofun⟩

end Twins

/-! From the command to completion. -/

/-- The write of ANALYZE that `withAnalyze` lists is accepted while idle and within capacity (R191). -/
theorem step_withAnalyze {s : State} (hidle : s.busy = false) (hn : countOfWord s.n ≤ s.cfg.nMax)
    (hm : countOfWord s.maxlen ≤ s.cfg.segMax) : step s.withAnalyze = .next { s with inputs := [] }.accept :=
  (step_write_cmd s 1 []).trans (execAnalyze_idle (s := { s with inputs := [] }) hidle hn hm)

/-- Two accepted analyses of the same inputs begin alike: acceptance clears the result registers (R191). -/
theorem SameAnalysis.accept {s s' : State} (h : SameAnalysis s s') (hstage : s.stage = 0) (hstage' : s'.stage = 0)
    (hmin : 359 ≤ countOfWord s.n) (hn : countOfWord s.n ≤ s.cfg.nMax) (hn' : countOfWord s.n ≤ s'.cfg.nMax)
    (hm : countOfWord s.maxlen ≤ s.cfg.segMax) (hm' : countOfWord s.maxlen ≤ s'.cfg.segMax)
    (hwritten : ∀ k : Nat, k < countOfWord s.n → s.written .inI k = true ∧ s.written .inQ k = true) :
    Twins 0 s.n [] { s with inputs := [] }.accept { s' with inputs := [] }.accept where
  left := ⟨rfl, hstage, rfl, rfl, hn, hm⟩
  right := ⟨rfl, hstage', rfl, h.n, hn', by rw [← h.maxlen] at hm'; exact hm'⟩
  enough := hmin
  kernel := h.kernel
  gain := h.gain
  quadT := h.quadT
  ml := h.maxlen
  samples := fun w hw k hk => by
    have hboth : s.written w k = true ∧ s'.sample w k = s.sample w k := by
      cases w with
      | inI => exact ⟨(hwritten k hk).1, (h.samples k hk).1⟩
      | inQ => exact ⟨(hwritten k hk).2, (h.samples k hk).2⟩
      | phase | diff | filt | dibit | segI | segQ => cases hw
    obtain ⟨v, hv⟩ := sample_of_written (by rw [Window.count_input _ hw]; omega) hboth.1
    exact ⟨v, hv, hboth.2.trans hv⟩
  registers := ⟨rfl, rfl, ⟨rfl, rfl⟩, rfl⟩
  shared := nofun

theorem Both.run_next {k : Nat} {s s' : State} {P Q : State → State → Prop} (h : Both (s.run k) (s'.run k) P)
    (hstep : ∀ t t', P t t' → Both (step t) (step t') Q) : Both (s.run (k + 1)) (s'.run (k + 1)) Q := by
  rw [run_last, run_last]
  exact h.andThen hstep

/-- Settles O56: the two runs are twins from acceptance to completion, each stage adding what it computes to what they
share. -/
theorem analysisIsPureFunction : Obligations.AnalysisIsPureFunction := by
  intro s s' hinv hinv' hidle hidle' hsame hmin hn hn' hm hm' hwritten
  have hstart : Both (s.withAnalyze.run 0) (s'.withAnalyze.run 0) fun t t' => t = s.withAnalyze ∧ t' = s'.withAnalyze :=
    ⟨_, _, rfl, rfl, rfl, rfl⟩
  have haccept := hstart.run_next (Q := Twins 0 s.n []) fun t t' ⟨ht, ht'⟩ => by
    rw [ht, ht']
    exact ⟨_, _, step_withAnalyze hidle hn hm, step_withAnalyze hidle' (by rwa [hsame.n]) (by rwa [hsame.maxlen]),
      hsame.accept (hinv.idleStage hidle) (hinv'.idleStage hidle') hmin hn hn' hm hm' hwritten⟩
  have hacquire := (((haccept.run_next fun _ _ => Twins.enter).run_next fun _ _ => Twins.phase).run_next
    fun _ _ => Twins.diff).run_next fun _ _ => Twins.filter
  have htrack := (hacquire.run_next fun _ _ h => h.acquire (by simp)).run_next
    fun _ _ ⟨h, h50, h74⟩ => h.track h50 h74 (by simp) (by simp)
  have hcomplete := htrack.run_next (Q := Twins.completed (countOfWord s.n)) fun _ _ h =>
    h.turn (i := .extract) rfl (h.extract (by simp) (by simp)) fun _ _ ⟨hnsym, ht⟩ => by
      rw [← hnsym] at ht
      exact ht.complete
  obtain ⟨t, t', ht, ht', ⟨hin, hin'⟩, ⟨hbusy, hbusy'⟩, hresults⟩ := hcomplete
  exact ⟨8, t, t', ht, ht', hin, hin', hbusy, hbusy', hresults⟩

end Sys2Proof.Machine
end

section
/-! SUPPORT. The interrupt output (60_exceptions.md R215): a level over STATUS and IRQEN. -/

namespace Sys2Proof.Machine

/-- The level of R215, each source with its enable bit of IRQEN. -/
theorem irq_iff (s : State) :
    s.irq = true ↔ (s.done = true ∧ s.irqen.getLsbD 0 = true) ∨
      ((s.cmderr = true ∨ s.parerr = true ∨ s.werr = true) ∧ s.irqen.getLsbD 1 = true) := by
  simp only [State.irq, State.doneIe, State.errIe, Bool.or_eq_true, Bool.and_eq_true, or_assoc]

/-- IRQEN alone masks the output: with both enable bits clear no status bit asserts it. -/
theorem irq_of_irqen_zero {s : State} (h : s.irqen = 0) : s.irq = false := by
  rw [Bool.eq_false_iff, Ne, irq_iff, h]
  simp

/-- Settles O21: the output's expression, the idle ACK that clears its sources, the write of 0 that masks them, the
invariant's clause on `INSUFF`, and the table of the reset state. -/
theorem interruptFollowsStatus : Obligations.InterruptFollowsStatus :=
  ⟨fun s => ⟨irq_iff s,
    fun hidle => ⟨s.acknowledge, execAck_idle hidle, irq_acknowledge s⟩,
    ⟨_, writes_irqen s 0, irq_of_irqen_zero rfl⟩,
    fun hinv => hinv.insuffDone⟩,
  (resetOf_atReset builtConfig).irq⟩

end Sys2Proof.Machine
end

section
/-! SUPPORT. What every step but a reset keeps of memory (10_state.md R41, 70_reset_and_hazards.md R231, R237): its canonical
form, that it lists element bytes only, which elements were written, and the input or the result memories whole. -/

namespace Sys2Proof.Machine

/-- The memory of `t` is that of `s` after some stores of elements, all in the input memories or all in the result memories,
in a block with the same constants. -/
structure Grown (input : Bool) (s t : State) : Prop where
  cfg : t.cfg = s.cfg
  wf : Memory.wf s.mem → Memory.wf t.mem
  places : (∀ p ∈ s.mem, elementOffset s.cfg p.1 = true) → ∀ p ∈ t.mem, elementOffset t.cfg p.1 = true
  written : ∀ (w : Window) (k : Nat), k < 16384 → s.written w k = true → t.written w k = true
  kept : ∀ w : Window, w.isInput ≠ input → ∀ k : Nat, k < 16384 → t.stored w k = s.stored w k

namespace Grown

variable {input : Bool} {s t u : State}

theorem of_mem (hcfg : t.cfg = s.cfg) (hmem : t.mem = s.mem) : Grown input s t where
  cfg := hcfg
  wf := by rw [hmem]; exact id
  places := by rw [hmem, hcfg]; exact id
  written := fun w k _ h => by rwa [State.written, State.stored, hmem]
  kept := fun w _ k _ => by rw [State.stored, State.stored, hmem]

theorem refl (input : Bool) (s : State) : Grown input s s := of_mem rfl rfl

theorem trans (hst : Grown input s t) (htu : Grown input t u) : Grown input s u where
  cfg := htu.cfg.trans hst.cfg
  wf := htu.wf ∘ hst.wf
  places := htu.places ∘ hst.places
  written := fun w k hk h => htu.written w k hk (hst.written w k hk h)
  kept := fun w hw k hk => (htu.kept w hw k hk).trans (hst.kept w hw k hk)

theorem setElem {w : Window} {k : Nat} (hw : w.isInput = input) (hk : k < w.count s.cfg) (v : Word) :
    Grown input s (s.setElem w k v) where
  cfg := rfl
  wf := fun h => setElem_wf h w k v
  places := fun h => setElem_places h hk v
  written := fun _ _ hk' h => written_setElem v (hk.trans_le (Window.count_le s.cfg w)) hk' h
  kept := fun _ hw' _ hk' =>
    stored_setElem_other s v (hk.trans_le (Window.count_le s.cfg w)) hk' (.inl fun h => hw' (h ▸ hw))

/-- A store after a change of working registers. -/
theorem setElem_work {w : Window} {k : Nat} (hw : w.isInput = input) (hk : k < w.count s.cfg) (wk : Work) (v : Word) :
    Grown input s ({ s with work := wk }.setElem w k v) := by
  have hwork : Grown input s { s with work := wk } := of_mem rfl rfl
  exact hwork.trans (setElem (s := { s with work := wk }) hw hk v)

theorem filled (h : Grown input s t) (hnl : t.nl = s.nl) (hn : countOfWord s.nl ≤ 16384) {w : Window} (hw : s.filled w) :
    t.filled w := fun k hk => by
  rw [hnl] at hk
  exact h.written w k (by omega) (hw k hk)

theorem forRange {body : Nat → State → Result} (hbody : ∀ i u v, body i u = .next v → Grown input u v) {count start : Nat}
    (h : forRange body count start s = .next t) : Grown input s t :=
  forRange_keeps (P := fun _ u => Grown input s u) count start s t (fun i u v _ _ hu hv => hu.trans (hbody i u v hv))
    (refl input s) h

end Grown

/-! The stages. -/

theorem phaseSample_grown {i : Nat} {s t : State} (h : phaseSample i s = .next t) : Grown false s t := by
  rcases phaseSample_cases i s with ⟨iv, qv, wk, hI, _, he⟩ | ⟨_, he⟩ <;> rw [he] at h <;> cases h
  exact Grown.setElem_work (w := .phase) rfl (sample_eq_some hI).1 wk _

theorem diffSample_grown {i : Nat} {s t : State} (h : diffSample i s = .next t) : Grown false s t := by
  have hi := diffSample_next_inside h
  obtain ⟨wk, he⟩ := diffSample_inside hi
  rw [he] at h
  cases h
  exact Grown.setElem_work (w := .diff) rfl hi wk _

theorem filterSample_grown {i : Nat} {s t : State} (h : filterSample i s = .next t) : Grown false s t := by
  have hwrite : ∀ {wk : Work} {v : Word}, writeElem .filt i v { s with work := wk } = .next t → Grown false s t := by
    intro wk v hw
    obtain ⟨hi, rfl⟩ := writeElem_eq_next.mp hw
    exact Grown.setElem_work (s := s) (w := .filt) rfl hi _ _
  unfold filterSample at h
  simp only at h
  split at h
  · split at h
    · exact hwrite h
    · cases h
  · exact hwrite h

theorem copySample_grown {lo used m : Nat} {s t : State} (h : copySample lo used m s = .next t) : Grown false s t := by
  obtain ⟨iv, qv, _, _, hk, rfl⟩ := copySample_eq_next.mp h
  let s1 := s.setElem .segI (used + m) (wordOfInt iv)
  have hI : Grown false s s1 := Grown.setElem (w := .segI) rfl hk _
  exact hI.trans (Grown.setElem (s := s1) (w := .segQ) rfl hk _)

theorem execSegCopy_grown {d : Dibit} {s t : State} (h : execSegCopy d s = .next t) : Grown false s t := by
  simp only [execSegCopy, andThen_eq_next] at h
  obtain ⟨u, hu, h⟩ := h
  cases h
  exact (Grown.forRange (fun _ _ _ => copySample_grown) hu).trans (Grown.of_mem rfl rfl)

theorem execAcquire_grown {s t : State} (h : execAcquire s = .next t) : Grown false s t := by
  obtain ⟨u, hu, hframe, _⟩ := execAcquire_frame s
  obtain rfl : u = t := Host.Outcome.next.inj (hu.symm.trans h)
  exact Grown.of_mem (by rw [hframe]) (by rw [hframe])

theorem trackStep_grown {s t : State} (h : trackStep s = .next t) : Grown false s t := by
  simp only [trackStep, andThen_eq_next] at h
  obtain ⟨s1, hselect, s2, hemit, hupdate⟩ := h
  obtain ⟨hf1, _⟩ := execSelect_frame hselect
  have h1 : Grown false s s1 := Grown.of_mem (by rw [hf1]) (by rw [hf1])
  obtain ⟨v, _, hroom, hs2⟩ := execEmit_eq_next hemit
  have h2 : Grown false s1 s2 := by
    rw [hs2]
    exact (Grown.setElem (w := .dibit) rfl hroom _).trans (Grown.of_mem rfl rfl)
  cases hupdate
  exact (h1.trans h2).trans (Grown.of_mem (by rw [updateRun_frame]) (by rw [updateRun_frame]))

theorem execTrack_grown {s t : State} (h : execTrack s = .next t) : Grown false s t := by
  rw [execTrack_eq, andThen_eq_next] at h
  obtain ⟨u, hu, hflush⟩ := h
  have hloop : Grown false s u := trackLoop_keeps (P := Grown false s)
    (fun _ _ hv _ hstep => hv.trans (trackStep_grown hstep)) _ (s.trackStart _) u (Grown.of_mem rfl rfl) hu
  obtain ⟨len, start, hrun⟩ := execRunFlush_eq u
  rw [hrun] at hflush
  cases hflush
  exact hloop.trans (Grown.of_mem rfl rfl)

/-- The stage that runs in a turn of the engine from `s` (10_state.md R31). -/
def State.inStage (s : State) (run : State → Result) : Prop :=
  (s.stage = 1 ∧ run = execPhase) ∨ (s.stage = 2 ∧ run = execDiff) ∨ (s.stage = 3 ∧ run = execFilter) ∨
    (s.stage = 4 ∧ run = execAcquire) ∨ (s.stage = 5 ∧ run = execTrack) ∨ (s.stage = 6 ∧ run = execExtract)

theorem State.inStage.grown {s u : State} {run : State → Result} (h : s.inStage run) (hu : run s = .next u) :
    Grown false s u := by
  rcases h with ⟨_, rfl⟩ | ⟨_, rfl⟩ | ⟨_, rfl⟩ | ⟨_, rfl⟩ | ⟨_, rfl⟩ | ⟨_, rfl⟩
  · exact Grown.forRange (fun _ _ _ => phaseSample_grown) hu
  · exact Grown.forRange (fun _ _ _ => diffSample_grown) hu
  · exact Grown.forRange (fun _ _ _ => filterSample_grown) hu
  · exact execAcquire_grown hu
  · exact execTrack_grown hu
  · have hpointer : Grown false s (s.atUsed 0) := Grown.of_mem rfl rfl
    exact hpointer.trans (Grown.forRange (fun _ _ _ => execSegCopy_grown) hu)

theorem State.inStage.frame {s u : State} {run : State → Result} (h : s.inStage run) (hu : run s = .next u) :
    stageFrame s u := by
  unfold stageFrame
  rcases h with ⟨_, rfl⟩ | ⟨_, rfl⟩ | ⟨_, rfl⟩ | ⟨_, rfl⟩ | ⟨_, rfl⟩ | ⟨_, rfl⟩
  · rw [forRange_frame (fun _ _ _ => phaseSample_frame) hu]
  · rw [forRange_frame (fun _ _ _ => diffSample_frame) hu]
  · rw [forRange_frame (fun _ _ _ => filterSample_frame) hu]
  · obtain ⟨v, hv, hframe, _⟩ := execAcquire_frame s
    obtain rfl : v = u := Host.Outcome.next.inj (hv.symm.trans hu)
    rw [hframe]
  · rw [execTrack_frame hu]
  · rw [execExtract_frame hu]

/-- Everything a turn of the engine that goes on can be (45_host_commands.md R193 to R195). -/
theorem engineStep_eq_next {s t : State} (h : engineStep s = .next t) :
    (s.busy = false ∧ t = s) ∨
    (s.busy = true ∧ s.stage = 0 ∧ countOfWord s.nl < 359 ∧ t = { s with insuff := true }.complete) ∨
    (s.busy = true ∧ s.stage = 0 ∧ 359 ≤ countOfWord s.nl ∧ t = { s with stage := 1 }) ∨
    (s.busy = true ∧ ∃ run u, s.inStage run ∧ run s = .next u ∧ t = u.advance) := by
  rcases engineStep_cases s with ⟨hb, he⟩ | ⟨hb, h0, hn, he⟩ | ⟨hb, h0, hn, he⟩ | ⟨hb, run, hrun, he⟩ | ⟨_, _, he⟩ <;>
    rw [he] at h
  · cases h
    exact .inl ⟨hb, rfl⟩
  · cases h
    exact .inr (.inl ⟨hb, h0, hn, rfl⟩)
  · cases h
    exact .inr (.inr (.inl ⟨hb, h0, hn, rfl⟩))
  · obtain ⟨u, hu, ht⟩ := andThen_eq_next.mp h
    cases ht
    exact .inr (.inr (.inr ⟨hb, run, u, hrun, hu, rfl⟩))
  · cases h

theorem engineStep_grown {s t : State} (h : engineStep s = .next t) : Grown false s t := by
  rcases engineStep_eq_next h with ⟨_, rfl⟩ | ⟨_, _, _, rfl⟩ | ⟨_, _, _, rfl⟩ | ⟨_, run, u, hrun, hu, rfl⟩
  · exact Grown.refl _ _
  · exact Grown.of_mem rfl rfl
  · exact Grown.of_mem rfl rfl
  · exact (hrun.grown hu).trans (Grown.of_mem (by rw [advance_frame]) (by rw [advance_frame]))

/-! Host accesses. -/

/-- A command leaves memory and the constants alone. -/
theorem exec_command_mem {s t : State} {w : Word} (h : exec (decodeCmd w) s = .next t) : t.cfg = s.cfg ∧ t.mem = s.mem := by
  rcases exec_command w s with ⟨_, he⟩ | ⟨_, he⟩ | ⟨_, he⟩ | ⟨_, _, _, he⟩ <;> rw [he] at h
  · cases h
    exact ⟨rfl, rfl⟩
  · rcases execAnalyze_cases s with ⟨_, he⟩ | ⟨_, _, he⟩ | ⟨_, _, _, he⟩ <;> rw [he] at h <;> cases h <;> exact ⟨rfl, rfl⟩
  · rcases execAck_cases s with ⟨_, he⟩ | ⟨_, he⟩ <;> rw [he] at h <;> cases h <;> exact ⟨rfl, rfl⟩
  · cases h
    exact ⟨rfl, rfl⟩

/-- A host write leaves memory alone, or stores an input element while idle. -/
theorem hostWrite_mem (s : State) (target : Target) (v : Word) :
    (s.hostWrite target v).mem = s.mem ∨
      ∃ w k, target = .elem w k ∧ w.isInput = true ∧ s.busy = false ∧
        s.hostWrite target v = s.setElem w k (sampleStored s.cfg.sampleBits v) := by
  cases target with
  | n | maxlen =>
    left
    simp only [State.hostWrite, State.inputWrite]
    split <;> rfl
  | elem w k =>
    rcases hin : w.isInput with _ | _
    · exact .inl (by simp [State.hostWrite, hin])
    · rcases hb : s.busy with _ | _
      · exact .inr ⟨w, k, rfl, hin, rfl, by simp [State.hostWrite, hin, hb]⟩
      · exact .inl (by simp [State.hostWrite, hin, hb])
  | irqen | cmd | status | t0 | nsym | runLen | runStart | segLen | reserved => exact .inl rfl

theorem accessStep_grown {a : Access} {s t : State} (h : accessStep a s = .next t) : Grown true s t := by
  rcases accessStep_eq_next h with ⟨_, _, hread⟩ | ⟨_, _, hexec⟩ | ⟨off, v, _, _, rfl⟩
  · exact Grown.of_mem (by rw [hread]) (by rw [hread])
  · obtain ⟨hcfg, hmem⟩ := exec_command_mem hexec
    exact Grown.of_mem hcfg hmem
  · have hcfg : (s.hostWrite (targetOf s.cfg off.toNat) v).cfg = s.cfg := by rw [hostWrite_frame]
    rcases hostWrite_mem s (targetOf s.cfg off.toNat) v with hmem | ⟨w, k, htarget, hw, _, hstore⟩
    · exact Grown.of_mem hcfg hmem
    · rw [hstore]
      exact Grown.setElem hw (lt_count_of_targetOf htarget) _

/-- Everything a step that goes on can be: a reset, or a host access or a turn of the engine, which only store elements. -/
theorem step_eq_next {s t : State} (h : step s = .next t) :
    (∃ rest, s.inputs = .reset :: rest ∧ t = { s with inputs := rest }.onReset) ∨
    (∃ a rest, s.inputs = .access a :: rest ∧ accessStep a { s with inputs := rest } = .next t) ∨
    ((∀ a rest, s.inputs ≠ .access a :: rest) ∧ engineStep { s with inputs := s.inputs.tail } = .next t) := by
  rcases step_cases s with ⟨a, rest, hin, he⟩ | ⟨rest, hin, he⟩ | ⟨_, hno, he⟩ <;> rw [he] at h
  · exact .inr (.inl ⟨a, rest, hin, h⟩)
  · cases h
    exact .inl ⟨rest, hin, rfl⟩
  · exact .inr (.inr ⟨hno, h⟩)

/-- Settles O4: a reset keeps the constants by its own definition, and every other step only stores elements. -/
theorem configurationNeverChanges : Obligations.ConfigurationNeverChanges := by
  intro s t h
  rcases step_eq_next h with ⟨_, _, rfl⟩ | ⟨_, _, _, haccess⟩ | ⟨_, hturn⟩
  · rfl
  · exact (accessStep_grown haccess).cfg
  · exact (engineStep_grown hturn).cfg

end Sys2Proof.Machine
end

section
/-! SUPPORT. The legal states (10_state.md R26, R31, R48; 60_exceptions.md R215): a reset, a host access and a turn of
the engine keep them. -/

namespace Sys2Proof.Machine

/-! The reset state. -/

theorem resetOf_inv (cfg : Config) : (State.resetOf cfg).Inv where
  memory := (resetOf_memory cfg).2
  places := nofun
  stageCode := Nat.zero_le 6
  idleStage := fun _ => rfl
  handshake := nofun
  insuffDone := nofun
  capacity := nofun
  sufficient := fun h => absurd rfl h

/-- Before its second stage an analysis has nothing to rely on. -/
theorem ready_of_stage_le_one {s : State} (h : s.stage.toNat ≤ 1) : s.Ready where
  input := fun _ => by omega
  phase := fun _ => by omega
  diff := fun _ => by omega
  filt := fun _ => by omega
  instant := fun _ => by omega

/-- Settles O52: the reset state of any configuration is legal. -/
theorem legalAtReset : Obligations.LegalAtReset := ⟨resetOf_inv builtConfig, ready_of_stage_le_one (Nat.zero_le 1)⟩

/-- The inputs still to come are no part of what makes a state legal. -/
theorem State.Inv.with_inputs {s : State} (h : s.Inv) (inputs : List Input) : ({ s with inputs := inputs } : State).Inv :=
  ⟨h.memory, h.places, h.stageCode, h.idleStage, h.handshake, h.insuffDone, h.capacity, h.sufficient⟩

theorem State.Ready.with_inputs {s : State} (h : s.Ready) (inputs : List Input) :
    ({ s with inputs := inputs } : State).Ready := ⟨h.input, h.phase, h.diff, h.filt, h.instant⟩

theorem onReset_legal (s : State) : s.onReset.Inv ∧ s.onReset.Ready := by
  have h := resetOf_inv s.cfg
  exact ⟨⟨h.memory, h.places, h.stageCode, h.idleStage, h.handshake, h.insuffDone, h.capacity, h.sufficient⟩,
    ready_of_stage_le_one (Nat.zero_le 1)⟩

/-! Steps that leave the sequencer and the handshake alone. -/

/-- The engine is where it was, in the same analysis. -/
structure SameEngine (s t : State) : Prop where
  busy : t.busy = s.busy
  done : t.done = s.done
  insuff : t.insuff = s.insuff
  stage : t.stage = s.stage
  nl : t.nl = s.nl
  ml : t.ml = s.ml

/-- A state in a stage is busy, with its analysis inside the memories. -/
theorem State.Inv.nl_le {s : State} (h : s.Inv) (hstage : s.stage ≠ 0) : countOfWord s.nl ≤ s.cfg.nMax := by
  have hbusy : s.busy = true := Bool.eq_true_of_not_eq_false (mt h.idleStage hstage)
  exact (h.capacity hbusy).1

theorem State.Inv.of_sameEngine {input : Bool} {s t : State} (h : s.Inv) (hg : Grown input s t) (he : SameEngine s t) :
    t.Inv where
  memory := hg.wf h.memory
  places := hg.places h.places
  stageCode := by rw [he.stage]; exact h.stageCode
  idleStage := by rw [he.stage, he.busy]; exact h.idleStage
  handshake := by rw [he.busy, he.done]; exact h.handshake
  insuffDone := by rw [he.insuff, he.done]; exact h.insuffDone
  capacity := by rw [he.busy, he.nl, he.ml, hg.cfg]; exact h.capacity
  sufficient := by rw [he.stage, he.nl]; exact h.sufficient

/-- What earlier stages left stays while memory only grows. -/
theorem State.Inv.filled_of_grown {input : Bool} {s t : State} (h : s.Inv) (hg : Grown input s t) (hnl : t.nl = s.nl)
    (hstage : s.stage ≠ 0) {w : Window} (hw : s.filled w) : t.filled w :=
  hg.filled hnl ((h.nl_le hstage).trans s.cfg.nMax_le) hw

theorem State.Ready.of_sameEngine {input : Bool} {s t : State} (h : s.Ready) (hinv : s.Inv) (hg : Grown input s t)
    (he : SameEngine s t) (ht0 : t.t0 = s.t0) : t.Ready := by
  have hkept : ∀ {c : Nat} {w : Window}, 2 ≤ c → c ≤ s.stage.toNat → s.filled w → t.filled w := fun h2 hc hw =>
    hinv.filled_of_grown hg he.nl (fun h0 => by rw [h0] at hc; exact absurd (h2.trans hc) (by decide)) hw
  constructor <;> rw [he.stage]
  · exact fun hc => ⟨hkept (Nat.le_refl 2) hc (h.input hc).1, hkept (Nat.le_refl 2) hc (h.input hc).2⟩
  · exact fun hc => hkept (Nat.le_refl 2) hc (h.phase hc)
  · exact fun hc => hkept (by decide) hc (h.diff hc)
  · exact fun hc => hkept (by decide) hc (h.filt hc)
  · rw [ht0]
    exact h.instant

/-! Host accesses. -/

theorem hostWrite_sameEngine (s : State) (target : Target) (v : Word) : SameEngine s (s.hostWrite target v) := by
  constructor <;> rw [hostWrite_frame]

theorem raise_sameEngine (s : State) (e : ErrorBit) : SameEngine s (s.raise e) := by
  constructor <;> simp

/-- A command that goes on sets an error bit or nothing; ANALYZE accepts; or ACK acknowledges (45_host_commands.md R190 to
R198). -/
theorem exec_command_eq_next {w : Word} {s t : State} (h : exec (decodeCmd w) s = .next t) :
    t = s ∨ (∃ e, t = s.raise e) ∨
    (w = 1 ∧ s.busy = false ∧ countOfWord s.n ≤ s.cfg.nMax ∧ countOfWord s.maxlen ≤ s.cfg.segMax ∧ t = s.accept) ∨
    (w = 2 ∧ s.busy = false ∧ t = s.acknowledge) := by
  rcases exec_command w s with ⟨_, he⟩ | ⟨hw, he⟩ | ⟨hw, he⟩ | ⟨_, _, _, he⟩ <;> rw [he] at h
  · cases h
    exact .inl rfl
  · rcases execAnalyze_cases s with ⟨_, he⟩ | ⟨_, _, he⟩ | ⟨hb, hn, hm, he⟩ <;> rw [he] at h <;> cases h
    · exact .inr (.inl ⟨_, rfl⟩)
    · exact .inr (.inl ⟨_, rfl⟩)
    · exact .inr (.inr (.inl ⟨hw, hb, hn, hm, rfl⟩))
  · rcases execAck_cases s with ⟨_, he⟩ | ⟨hb, he⟩ <;> rw [he] at h <;> cases h
    · exact .inr (.inl ⟨_, rfl⟩)
    · exact .inr (.inr (.inr ⟨hw, hb, rfl⟩))
  · cases h
    exact .inr (.inl ⟨_, rfl⟩)

theorem accept_inv {s : State} (h : s.Inv) (hidle : s.busy = false) (hn : countOfWord s.n ≤ s.cfg.nMax)
    (hm : countOfWord s.maxlen ≤ s.cfg.segMax) : s.accept.Inv where
  memory := h.memory
  places := h.places
  stageCode := h.stageCode
  idleStage := nofun
  handshake := nofun
  insuffDone := nofun
  capacity := fun _ => ⟨hn, hm⟩
  sufficient := fun hstage => absurd (h.idleStage hidle) hstage

theorem acknowledge_inv {s : State} (h : s.Inv) : s.acknowledge.Inv :=
  ⟨h.memory, h.places, h.stageCode, h.idleStage, nofun, nofun, h.capacity, h.sufficient⟩

/-- An idle engine is before its stages. -/
theorem State.Inv.stage_le_one {s : State} (h : s.Inv) (hidle : s.busy = false) : s.stage.toNat ≤ 1 := by
  rw [h.idleStage hidle]
  decide

theorem accessStep_legal {a : Access} {s t : State} (hinv : s.Inv) (hready : s.Ready) (h : accessStep a s = .next t) :
    t.Inv ∧ t.Ready := by
  have hg : Grown true s t := accessStep_grown h
  have hsame : SameEngine s t → t.t0 = s.t0 → t.Inv ∧ t.Ready := fun he ht0 =>
    ⟨hinv.of_sameEngine hg he, hready.of_sameEngine hinv hg he ht0⟩
  rcases accessStep_eq_next h with ⟨_, _, hread⟩ | ⟨_, _, hexec⟩ | ⟨_, _, _, _, rfl⟩
  · exact hsame (by constructor <;> rw [hread]) (by rw [hread])
  · rcases exec_command_eq_next hexec with rfl | ⟨e, rfl⟩ | ⟨_, hidle, hn, hm, rfl⟩ | ⟨_, hidle, rfl⟩
    · exact ⟨hinv, hready⟩
    · exact hsame (raise_sameEngine s e) (raise_t0 s e)
    · exact ⟨accept_inv hinv hidle hn hm, ready_of_stage_le_one (hinv.stage_le_one hidle)⟩
    · exact ⟨acknowledge_inv hinv, ready_of_stage_le_one (hinv.stage_le_one hidle)⟩
  · exact hsame (hostWrite_sameEngine s _ _) (by rw [hostWrite_frame])

/-! Turns of the engine. -/

/-- A completed analysis is a legal state, with or without INSUFF (45_host_commands.md R193, R195). -/
theorem complete_inv {s : State} (h : s.Inv) : s.complete.Inv where
  memory := h.memory
  places := h.places
  stageCode := Nat.zero_le 6
  idleStage := fun _ => rfl
  handshake := nofun
  insuffDone := fun _ => rfl
  capacity := nofun
  sufficient := fun hstage => absurd rfl hstage

/-- A stage runs with a nonzero code. -/
theorem State.inStage.code {s : State} {run : State → Result} (h : s.inStage run) :
    1 ≤ s.stage.toNat ∧ s.stage.toNat ≤ 6 := by
  rcases h with ⟨h, _⟩ | ⟨h, _⟩ | ⟨h, _⟩ | ⟨h, _⟩ | ⟨h, _⟩ | ⟨h, _⟩ <;> rw [h] <;> decide

theorem State.inStage.stage_ne_zero {s : State} {run : State → Result} (h : s.inStage run) : s.stage ≠ 0 := fun h0 => by
  have hcode := h.code.1
  rw [h0] at hcode
  exact absurd hcode (by decide)

theorem stageFrame.sameEngine {s u : State} (h : stageFrame s u) : SameEngine s u := by
  constructor <;> rw [h]

/-- The sequencer and the handshake after a stage that is not the last (R194). -/
theorem advance_sequencer {s : State} (h5 : s.stage.toNat ≤ 5) :
    s.advance.stage.toNat = s.stage.toNat + 1 ∧ s.advance.busy = s.busy ∧ s.advance.done = s.done := by
  have hne6 : s.stage ≠ 6 := fun h6 => by simp [h6] at h5
  rw [advance_next hne6]
  refine ⟨?_, rfl, rfl⟩
  show (s.stage + 1).toNat = s.stage.toNat + 1
  rw [BitVec.toNat_add]
  exact Nat.mod_eq_of_lt (show s.stage.toNat + 1 < 8 by omega)

/-- The next stage of a legal analysis. -/
theorem advance_inv {s : State} (h : s.Inv) (hne0 : s.stage ≠ 0) (h5 : s.stage.toNat ≤ 5) : s.advance.Inv := by
  obtain ⟨hcode, hbusy, hdone⟩ := advance_sequencer h5
  have hstages : s.busy = true := Bool.eq_true_of_not_eq_false (mt h.idleStage hne0)
  refine ⟨?_, ?_, by omega, fun hidle => ?_, ?_, ?_, ?_, fun _ => ?_⟩
  · rw [advance_frame]
    exact h.memory
  · rw [advance_frame]
    exact h.places
  · rw [hbusy, hstages] at hidle
    cases hidle
  · rw [hbusy, hdone]
    exact h.handshake
  · rw [hdone, advance_frame]
    exact h.insuffDone
  · rw [hbusy, advance_frame]
    exact h.capacity
  · rw [advance_frame]
    exact h.sufficient hne0

/-- Completion after the last stage (R195). -/
theorem advance_last_inv {s : State} (h : s.Inv) (h6 : s.stage = 6) : s.advance.Inv := by
  have hleft : s.leaveStage.Inv :=
    ⟨h.memory, h.places, h.stageCode, h.idleStage, h.handshake, h.insuffDone, h.capacity, h.sufficient⟩
  rw [advance_last h6]
  exact complete_inv hleft

/-- What the stage just run leaves, on top of what was there, is what the next one needs. -/
theorem State.Ready.succ {s t : State} (h : s.Ready) (hnext : t.stage.toNat = s.stage.toNat + 1)
    (hkept : ∀ w, s.filled w → t.filled w)
    (hphase : s.stage.toNat = 1 → t.filled .inI ∧ t.filled .inQ ∧ t.filled .phase)
    (hdiff : s.stage.toNat = 2 → t.filled .diff) (hfilt : s.stage.toNat = 3 → t.filled .filt)
    (ht0 : 4 ≤ s.stage.toNat → 50 ≤ countOfWord t.t0 ∧ countOfWord t.t0 ≤ 74) : t.Ready where
  input := fun hc => by
    by_cases h1 : s.stage.toNat = 1
    · exact ⟨(hphase h1).1, (hphase h1).2.1⟩
    · obtain ⟨hI, hQ⟩ := h.input (by omega)
      exact ⟨hkept _ hI, hkept _ hQ⟩
  phase := fun hc => by
    by_cases h1 : s.stage.toNat = 1
    · exact (hphase h1).2.2
    · exact hkept _ (h.phase (by omega))
  diff := fun hc => by
    by_cases h2 : s.stage.toNat = 2
    · exact hdiff h2
    · exact hkept _ (h.diff (by omega))
  filt := fun hc => by
    by_cases h3 : s.stage.toNat = 3
    · exact hfilt h3
    · exact hkept _ (h.filt (by omega))
  instant := fun hc => ht0 (by omega)

theorem Swept.filled {w : Window} {f : Nat → Word} {s u : State} (h : Swept w f s (countOfWord s.nl) u) : u.filled w := by
  intro k hk
  rw [h.nl] at hk
  exact written_iff.mpr ⟨_, h.values k hk⟩

/-- What each stage leaves for those after it (70_reset_and_hazards.md R235, 43_timing_tracker.md R152). -/
theorem State.inStage.leaves {s u : State} {run : State → Result} (h : s.inStage run) (hn : countOfWord s.nl ≤ s.cfg.nMax)
    (hready : s.Ready) (hu : run s = .next u) :
    (s.stage.toNat = 1 → s.filled .inI ∧ s.filled .inQ ∧ u.filled .phase) ∧ (s.stage.toNat = 2 → u.filled .diff) ∧
      (s.stage.toNat = 3 → u.filled .filt) ∧
      (4 ≤ s.stage.toNat → 50 ≤ countOfWord u.t0 ∧ countOfWord u.t0 ≤ 74) := by
  rcases h with ⟨hc, rfl⟩ | ⟨hc, rfl⟩ | ⟨hc, rfl⟩ | ⟨hc, rfl⟩ | ⟨hc, rfl⟩ | ⟨hc, rfl⟩
  · obtain ⟨⟨_, hswept⟩, hI, hQ⟩ := execPhase_next hn hu
    simp [hc, hI, hQ, hswept.filled]
  · obtain ⟨v, hv, hswept⟩ := execDiff_inside hn
    obtain rfl : v = u := Host.Outcome.next.inj (hv.symm.trans hu)
    simp [hc, hswept.filled]
  · obtain ⟨v, hv, hswept⟩ := execFilter_inside hn
    obtain rfl : v = u := Host.Outcome.next.inj (hv.symm.trans hu)
    simp [hc, hswept.filled]
  · obtain ⟨v, hv, _, h50, h74⟩ := execAcquire_frame s
    obtain rfl : v = u := Host.Outcome.next.inj (hv.symm.trans hu)
    simp [hc, h50, h74]
  · have hinstant := hready.instant (by simp [hc])
    rw [execTrack_frame hu]
    simp [hc, hinstant]
  · have hinstant := hready.instant (by simp [hc])
    rw [execExtract_frame hu]
    simp [hc, hinstant]

/-- A stage that ran from a legal state leaves one. -/
theorem State.inStage.legal {s u : State} {run : State → Result} (h : s.inStage run) (hinv : s.Inv) (hready : s.Ready)
    (hu : run s = .next u) : u.advance.Inv ∧ u.advance.Ready := by
  have hg := h.grown hu
  have hframe := h.frame hu
  have huinv : u.Inv := hinv.of_sameEngine hg hframe.sameEngine
  have hstage : u.stage = s.stage := hframe.sameEngine.stage
  have hn : countOfWord s.nl ≤ s.cfg.nMax := hinv.nl_le h.stage_ne_zero
  obtain ⟨h1, h6⟩ := h.code
  by_cases hlast : s.stage = 6
  · refine ⟨advance_last_inv huinv (hstage.trans hlast), ready_of_stage_le_one ?_⟩
    rw [advance_last (hstage.trans hlast)]
    exact Nat.zero_le 1
  · have h5 : s.stage.toNat ≤ 5 := by
      have : s.stage.toNat ≠ 6 := fun he => hlast (BitVec.eq_of_toNat_eq he)
      omega
    have hnext : u.advance.Inv := advance_inv huinv (by rw [hstage]; exact h.stage_ne_zero) (by rwa [hstage])
    have hcode : u.advance.stage.toNat = s.stage.toNat + 1 := hstage ▸ (advance_sequencer (by rwa [hstage])).1
    have hkept : ∀ w, s.filled w → u.filled w := fun _ hw =>
      hg.filled hframe.sameEngine.nl (hn.trans s.cfg.nMax_le) hw
    have hadvance : ∀ w, u.filled w → u.advance.filled w := by
      rw [advance_frame]
      exact fun _ hw => hw
    have ht0 : u.advance.t0 = u.t0 := by rw [advance_frame]
    obtain ⟨hphase, hdiff, hfilt, hinstant⟩ := h.leaves hn hready hu
    refine ⟨hnext, hready.succ hcode (fun w hw => hadvance w (hkept w hw)) (fun hc => ?_)
      (fun hc => hadvance _ (hdiff hc)) (fun hc => hadvance _ (hfilt hc)) (by rwa [ht0])⟩
    obtain ⟨hI, hQ, hfilled⟩ := hphase hc
    exact ⟨hadvance _ (hkept _ hI), hadvance _ (hkept _ hQ), hadvance _ hfilled⟩

theorem engineStep_legal {s t : State} (hinv : s.Inv) (hready : s.Ready) (h : engineStep s = .next t) : t.Inv ∧ t.Ready := by
  rcases engineStep_eq_next h with ⟨_, rfl⟩ | ⟨_, _, _, rfl⟩ | ⟨hbusy, h0, hmin, rfl⟩ | ⟨_, run, u, hrun, hu, rfl⟩
  · exact ⟨hinv, hready⟩
  · have hcomplete := complete_inv hinv
    exact ⟨⟨hinv.memory, hinv.places, hcomplete.stageCode, hcomplete.idleStage, hcomplete.handshake, fun _ => rfl,
      nofun, hcomplete.sufficient⟩, ready_of_stage_le_one (Nat.zero_le 1)⟩
  · refine ⟨⟨hinv.memory, hinv.places, show (1 : BitVec 3).toNat ≤ 6 by decide, fun hidle => ?_, hinv.handshake,
      hinv.insuffDone, hinv.capacity, fun _ => hmin⟩, ready_of_stage_le_one (Nat.le_refl 1)⟩
    rw [hidle] at hbusy
    cases hbusy
  · exact hrun.legal hinv hready hu

/-- Settles O53: a reset, a host access and a turn of the engine each keep the legal states. -/
theorem everyStepKeepsLegality : Obligations.EveryStepKeepsLegality := by
  intro s t hinv hready h
  rcases step_eq_next h with ⟨rest, _, rfl⟩ | ⟨_, rest, _, haccess⟩ | ⟨_, hturn⟩
  · exact onReset_legal _
  · exact accessStep_legal (hinv.with_inputs rest) (hready.with_inputs rest) haccess
  · exact engineStep_legal (hinv.with_inputs _) (hready.with_inputs _) hturn

end Sys2Proof.Machine
end

section
/-! SUPPORT. The codes of the instructions (30_encoding.md R81 to R83, R91): decoder and encoder undo each other. -/

namespace Sys2Proof.Machine

/-! The two fields of a command word (R81). -/

@[simp] theorem cmdMbz_cmdWord (mbz : BitVec 28) (op : BitVec 4) : cmdMbz (cmdWord mbz op) = mbz := by
  apply BitVec.eq_of_getLsbD_eq
  intro i hi
  rw [cmdMbz, cmdWord, BitVec.getLsbD_extractLsb', BitVec.getLsbD_append]
  simp [hi]

@[simp] theorem cmdOp_cmdWord (mbz : BitVec 28) (op : BitVec 4) : cmdOp (cmdWord mbz op) = op := by
  apply BitVec.eq_of_getLsbD_eq
  intro i hi
  rw [cmdOp, cmdWord, BitVec.getLsbD_extractLsb', BitVec.getLsbD_append]
  simp [hi]

/-- A command word is its two fields. -/
theorem cmdWord_fields (w : Word) : cmdWord (cmdMbz w) (cmdOp w) = w := by
  apply BitVec.eq_of_getLsbD_eq
  intro i hi
  simp only [cmdWord, cmdMbz, cmdOp, BitVec.getLsbD_append, BitVec.getLsbD_extractLsb']
  by_cases hop : i < 4
  · simp [hop]
  · simp [hop, show i - 4 < 28 by omega, show 4 + (i - 4) = i by omega]

/-! Decoding. -/

theorem decodeCmd_cmdWord_zero (op : BitVec 4) : decodeCmd (cmdWord 0 op) = decodeOp op := by simp [decodeCmd]

theorem decodeCmd_cmdWord_mbz {mbz : BitVec 28} (h : mbz ≠ 0) (op : BitVec 4) :
    decodeCmd (cmdWord mbz op) = .reservedMbz mbz op := by
  rw [decodeCmd, cmdMbz_cmdWord, cmdOp_cmdWord, if_neg h]

/-- The opcode map of R82, read back: sixteen opcodes. -/
theorem encode_decodeOp (op : BitVec 4) : encode (decodeOp op) = some (.cmd (cmdWord 0 op)) := by
  revert op
  decide

theorem decodeOp_wf (op : BitVec 4) : (decodeOp op).wf = true := by
  revert op
  decide

/-- Every command word decodes to a well-formed instruction. -/
theorem decodeCmd_wf (w : Word) : (decodeCmd w).wf = true := by
  unfold decodeCmd
  split
  · exact decodeOp_wf _
  · next hmbz => exact bne_iff_ne.mpr hmbz

theorem encode_decodeCmd (w : Word) : encode (decodeCmd w) = some (.cmd w) := by
  have hfields := cmdWord_fields w
  unfold decodeCmd
  split
  · next hmbz =>
    rw [hmbz] at hfields
    rw [encode_decodeOp, hfields]
  · rw [encode, hfields]

/-- A code read back is the instruction it was made from. -/
theorem decode_of_encode {i : Instr} {c : Code} (hwf : i.wf = true) (h : encode i = some c) : decode c = .ok i := by
  cases i with
  | reservedMbz mbz op =>
    cases h
    exact congrArg Except.ok (decodeCmd_cmdWord_mbz (bne_iff_ne.mp hwf) op)
  | nop | analyze | ack | reservedOp3 | reservedOp4 | reservedOp5 | reservedOp6 | reservedOp7 | reservedOp8 | reservedOp9
  | reservedOpA | reservedOpB | reservedOpC | reservedOpD | reservedOpE | reservedOpF =>
    cases h
    exact congrArg Except.ok (decodeCmd_cmdWord_zero _)
  | phase | diff | filter | acquire | track | extract =>
    cases h
    rfl
  | cordic | wrap | slice | cost | select | emit | runUpdate | runClose | runFlush | segCopy => cases h

/-- Settles O57: each row's code is read back; the rows without one are those the encoder answers none for. -/
theorem decodeInvertsEncode : Obligations.DecodeInvertsEncode := by
  refine fun i hwf => ⟨fun c hc => decode_of_encode hwf hc, ?_⟩
  cases i with
  | cordic | wrap | slice | cost | select | emit | runUpdate | runClose | runFlush | segCopy => simp [encode]
  | nop | analyze | ack | reservedOp3 | reservedOp4 | reservedOp5 | reservedOp6 | reservedOp7 | reservedOp8 | reservedOp9
  | reservedOpA | reservedOpB | reservedOpC | reservedOpD | reservedOpE | reservedOpF | reservedMbz | phase | diff | filter
  | acquire | track | extract => simp [encode]

/-- A command word is read as `i` exactly if it is the code of `i`. -/
theorem decodeCmd_eq_iff {w v : Word} {i : Instr} (hi : decodeCmd v = i) : decodeCmd w = i ↔ w = v := by
  constructor
  · intro hw
    have hcode : encode (decodeCmd w) = encode (decodeCmd v) := by rw [hw, hi]
    rw [encode_decodeCmd, encode_decodeCmd] at hcode
    exact Code.cmd.inj (Option.some.inj hcode)
  · rintro rfl
    exact hi

/-- Settles O58: the decoded instruction encodes back, so no two words share one. -/
theorem everyCommandWordHasOneMeaning : Obligations.EveryCommandWordHasOneMeaning :=
  fun w => ⟨decodeCmd w, rfl, decodeCmd_wf w, encode_decodeCmd w, decodeCmd_eq_iff rfl, decodeCmd_eq_iff rfl,
    decodeCmd_eq_iff rfl⟩

/-- Settles O59: the decoder run on each written-out word. -/
theorem sampleWordsDecode : Obligations.SampleWordsDecode := ⟨rfl, rfl, rfl, rfl, rfl, rfl, rfl, rfl, rfl⟩

end Sys2Proof.Machine
end

section
/-! SUPPORT. The reset input (70_reset_and_hazards.md R230), the block's window on the bus (20_memory.md R60), and the fetch
(10_state.md R23, 45_host_commands.md R194). -/

namespace Sys2Proof.Machine

/-- Settles O1: the table, for the configuration the block is built with. -/
theorem resetStateFollowsTable : Obligations.ResetStateFollowsTable := ⟨resetOf_atReset builtConfig, rfl⟩

/-- The reset input leaves R230's table: it is the reset state but for fields the table does not name. -/
theorem onReset_atReset (s : State) : s.onReset.AtReset := by
  obtain ⟨hstatus, hbusy, hstage, hparams, hresults, hlatched, _, hirq⟩ := resetOf_atReset s.cfg
  exact ⟨hstatus, hbusy, hstage, hparams, hresults, hlatched, written_of_mem_nil rfl, hirq⟩

/-- Settles O2: the step of a reset at the head of the inputs is `onReset`, whatever the state. -/
theorem resetInputGivesResetState : Obligations.ResetInputGivesResetState :=
  fun _ _ hin => ⟨_, step_reset hin, onReset_atReset _, rfl, rfl⟩

/-- Settles O5: inside the window the offset is below 2^20, so none of it is lost. -/
theorem windowSelectsOffset : Obligations.WindowSelectsOffset := by
  refine fun c a => ⟨fun hin => ⟨_, if_pos hin, ?_⟩, fun hout => if_neg hout⟩
  rw [toNat_ofNat_offset (by omega)]
  omega

/-- A turn of a busy engine in a stage runs the stage's instruction and advances. -/
theorem engineStep_of_decode {s : State} {i : Instr} (hbusy : s.busy = true) (hstage : s.stage ≠ 0)
    (hi : decode (.stage s.stage) = .ok i) : engineStep s = andThen (exec i s) fun t => .next t.advance := by
  rw [engineStep, if_neg (by simp [hbusy]), if_neg hstage, hi]

/-- A code is fetched from a command write at the head of the inputs, or from the sequencer of a busy engine whose turn it
is. -/
theorem fetched_cases {s : State} {c : Code} (h : s.fetched = some c) :
    (∃ w rest, c = .cmd w ∧ s.inputs = .access (.write 0 4 w) :: rest) ∨
    (c = .stage s.stage ∧ s.busy = true ∧ s.stage ≠ 0 ∧ step s = engineStep { s with inputs := s.inputs.tail }) := by
  rcases hin : s.inputs with _ | ⟨(⟨off, bytes⟩ | ⟨off, bytes, w⟩) | _ | _, rest⟩ <;>
    simp only [State.fetched, hin, Option.ite_none_right_eq_some, Option.some.injEq, reduceCtorEq] at h
  · obtain ⟨⟨hbusy, hstage⟩, rfl⟩ := h
    exact .inr ⟨rfl, hbusy, hstage, by rw [step_empty hin, List.tail_nil, ← hin]⟩
  · obtain ⟨⟨rfl, rfl⟩, rfl⟩ := h
    exact .inl ⟨w, rest, rfl, rfl⟩
  · obtain ⟨⟨hbusy, hstage⟩, rfl⟩ := h
    exact .inr ⟨rfl, hbusy, hstage, step_engine hin⟩

/-- Settles O24: where a code is fetched from decides what the step runs. -/
theorem stepRunsFetchedInstruction : Obligations.StepRunsFetchedInstruction := by
  intro s c i hfetched hi
  rcases fetched_cases hfetched with ⟨w, rest, rfl, hin⟩ | ⟨rfl, hbusy, hstage, hturn⟩
  · obtain rfl : decodeCmd w = i := Except.ok.inj hi
    have hs : s = { s with inputs := .access (.write 0 4 w) :: rest } := by rw [← hin]
    rw [hs]
    exact step_write_cmd s w rest
  · exact hturn.trans (engineStep_of_decode (s := { s with inputs := s.inputs.tail }) hbusy hstage hi)

end Sys2Proof.Machine
end

section
/-! SUPPORT. What a host reads, busy and idle (20_memory.md R64, R67, R68; 30_encoding.md R84), and how an element's word
lies in memory (20_memory.md R62). -/

namespace Sys2Proof.Machine

/-! Reads. -/

/-- A register whose offset is known reads as its target says. -/
theorem reads_register (s : State) {off : Nat} {target : Target} (h : off < 0x10000) (h4 : off % 4 = 0)
    (ht : registerAt off = target) : s.reads off (s.hostRead target) := by
  have hread := reads_targetOf s (show off < 0x100000 by omega) h4
  rwa [targetOf_register s.cfg h, ht] at hread

/-- The four registers of a bank, from offset `base` on (10_state.md R22). -/
theorem reads_bank (s : State) {base : Nat} {target : Dibit → Target} (h : base ≤ 0x040) (h4 : base % 4 = 0)
    (ht : ∀ d : Dibit, registerAt (base + 4 * d.val) = target d) (d : Dibit) :
    s.reads (base + 4 * d.val) (s.hostRead (target d)) :=
  reads_register s (by omega) (by omega) (ht d)

theorem registerAt_runLen : ∀ d : Dibit, registerAt (0x020 + 4 * d.val) = .runLen d := by decide
theorem registerAt_runStart : ∀ d : Dibit, registerAt (0x030 + 4 * d.val) = .runStart d := by decide
theorem registerAt_segLen : ∀ d : Dibit, registerAt (0x040 + 4 * d.val) = .segLen d := by decide

theorem Window.addr_mod_four (w : Window) (k : Nat) : w.addr k % 4 = 0 := by
  cases w <;> simp only [Window.addr, Window.base] <;> omega

theorem reads_elem (s : State) {w : Window} {k : Nat} (hk : k < w.count s.cfg) :
    s.reads (w.addr k) (s.hostRead (.elem w k)) := by
  have hk' : k < 16384 := hk.trans_le (Window.count_le s.cfg w)
  have hbounds := Window.addr_bounds (w := w) hk'
  have hread := reads_targetOf s (show w.addr k < 0x100000 by omega) (Window.addr_mod_four w k)
  rwa [targetOf_addr s.cfg hk', if_pos hk] at hread

@[simp] theorem hidden_busy {s : State} (h : s.busy = true) (v : Word) : s.hidden v = 0 := if_pos h

@[simp] theorem hidden_idle {s : State} (h : s.busy = false) (v : Word) : s.hidden v = v := if_neg (by simp [h])

/-- A written input element reads as its sample, sign-extended (R84). -/
theorem hostRead_input_stored {s : State} {w : Window} {k : Nat} {v : Word} (hw : w.isInput = true)
    (h : s.stored w k = some v) : s.hostRead (.elem w k) = BitVec.ofInt 32 (sext s.cfg.sampleBits v) := by
  rw [State.hostRead, if_pos hw, State.inputWord, h]
  rfl

/-- An input element nothing has written reads as its free value (R68). -/
theorem hostRead_input_unwritten {s : State} {w : Window} {k : Nat} (hw : w.isInput = true) (h : s.stored w k = none) :
    s.hostRead (.elem w k) = drawWord s.epoch (w.addr k) := by
  rw [State.hostRead, if_pos hw, State.inputWord, h]

theorem hostRead_result {s : State} {w : Window} (hw : w.isInput = false) (k : Nat) :
    s.hostRead (.elem w k) = s.hidden (s.elem w k) := if_neg (by simp [hw])

/-- Settles O8: inputs and control read as they do while idle, and every result is hidden. -/
theorem busyReadsHideResults : Obligations.BusyReadsHideResults := by
  intro s hbusy
  have hhides : ∀ {off : Nat} {v : Word}, s.reads off (s.hidden v) → s.reads off 0 := fun h => by
    rwa [hidden_busy hbusy] at h
  refine ⟨⟨reads_register s (by decide) rfl rfl, reads_register s (by decide) rfl rfl,
    reads_register s (by decide) rfl rfl, reads_register s (by decide) rfl rfl, reads_register s (by decide) rfl rfl⟩,
    fun w hw k hk => ?_, ⟨hhides (reads_register s (by decide) rfl rfl), hhides (reads_register s (by decide) rfl rfl)⟩,
    fun d => ⟨hhides (reads_bank s (by decide) rfl registerAt_runLen d),
      hhides (reads_bank s (by decide) rfl registerAt_runStart d),
      hhides (reads_bank s (by decide) rfl registerAt_segLen d)⟩, fun w hw k hk => ?_⟩
  · have hread := reads_elem s (w := w) (k := k) (by rwa [Window.count_input s.cfg hw])
    exact ⟨fun v hv => hostRead_input_stored hw hv ▸ hread, fun hnone => hostRead_input_unwritten hw hnone ▸ hread⟩
  · have hread := reads_elem s hk
    rw [hostRead_result hw] at hread
    exact hhides hread

/-- Settles O9: while idle nothing is hidden. -/
theorem idleReadsReturnStoredWords : Obligations.IdleReadsReturnStoredWords := by
  intro s hidle
  have hshows : ∀ {off : Nat} {v : Word}, s.reads off (s.hidden v) → s.reads off v := fun h => by
    rwa [hidden_idle hidle] at h
  refine ⟨⟨reads_register s (by decide) rfl rfl, reads_register s (by decide) rfl rfl,
    reads_register s (by decide) rfl rfl, reads_register s (by decide) rfl rfl, reads_register s (by decide) rfl rfl,
    hshows (reads_register s (by decide) rfl rfl), hshows (reads_register s (by decide) rfl rfl)⟩,
    fun d => ⟨hshows (reads_bank s (by decide) rfl registerAt_runLen d),
      hshows (reads_bank s (by decide) rfl registerAt_runStart d),
      hshows (reads_bank s (by decide) rfl registerAt_segLen d)⟩, fun w k v hk hv => ?_, fun w k hk hnone => ?_⟩ <;>
    have hread := reads_elem s hk <;> rcases hw : w.isInput with _ | _
  · rw [hostRead_result hw, elem_of_stored hv] at hread
    exact hshows hread
  · rwa [hostRead_input_stored hw hv] at hread
  · rw [hostRead_result hw, State.elem, hnone] at hread
    exact hshows hread
  · rwa [hostRead_input_unwritten hw hnone] at hread

/-! Stored words. -/

/-- The value of a stored sample is its low bits as a signed integer (R84). -/
theorem sext_sampleStored {bits : Nat} (h2 : 2 ≤ bits) (h24 : bits ≤ 24) (v : Word) :
    sext bits (sampleStored bits v) = (v.setWidth bits).toInt := by
  have hpow : 2 ^ bits ≤ 2 ^ 24 := Nat.pow_le_pow_right (by decide) h24
  have hhalf : 2 ^ bits = 2 * 2 ^ (bits - 1) := by
    rw [← Nat.pow_succ']
    congr 1
    omega
  have hlow : v.toNat % 2 ^ bits < 2 ^ bits := Nat.mod_lt _ (Nat.two_pow_pos bits)
  have hstored : (sampleStored bits v).toNat % 2 ^ bits = v.toNat % 2 ^ bits := by
    rw [sampleStored, BitVec.toNat_ofNat, Nat.mod_eq_of_lt (show v.toNat % 2 ^ bits < 2 ^ 32 by omega), Nat.mod_mod]
  simp only [sext, hstored, BitVec.toInt_eq_toNat_cond, BitVec.toNat_setWidth]
  refine if_ctx_congr (by omega) (fun _ => rfl) fun _ => by push_cast; rfl

/-- Settles O14: the store is idle, and both reads give the value of the stored bits. -/
theorem sampleReadsBackSignExtended : Obligations.SampleReadsBackSignExtended := by
  intro s w k v hidle hw hk
  have hwrite := writes_input s v hw hk
  rw [inputWrite_idle hidle] at hwrite
  have hcount : k < w.count s.cfg := by rwa [Window.count_input s.cfg hw]
  have hstored := stored_setElem_same s w k (sampleStored s.cfg.sampleBits v)
  have hvalue := sext_sampleStored s.cfg.sampleBits_ge s.cfg.sampleBits_le v
  have hread := reads_elem (s.setElem w k (sampleStored s.cfg.sampleBits v)) (w := w) (k := k) hcount
  rw [hostRead_input_stored hw hstored, setElem_cfg, hvalue] at hread
  refine ⟨_, hwrite, hread, ?_⟩
  rw [State.sample, setElem_cfg, if_pos hcount, hstored, Option.map_some, hvalue]

/-- Settles O15: the byte rules of a stored word, at the element's offset. -/
theorem elementsAreLittleEndian : Obligations.ElementsAreLittleEndian := by
  refine fun s w k v => ⟨fun i hi => ?_, sameBytesBut_setElem s w k v, stored_setElem_same s w k v,
    fun h => setElem_wf h w k v⟩
  obtain ⟨h0, h1, h2, h3⟩ := memGet_memSetWord_byte s.mem (w.addr k) v
  match i, hi with
  | 0, _ => exact h0
  | 1, _ => exact h1
  | 2, _ => exact h2
  | 3, _ => exact h3

end Sys2Proof.Machine
end

section
/-! SUPPORT. What the host and the engine leave of each other's registers and memories (20_memory.md R66, R73;
45_host_commands.md R196; 60_exceptions.md R211, R223; 70_reset_and_hazards.md R237, R238). -/

namespace Sys2Proof.Machine

/-- While busy an access changes two error bits, the interrupt enables and the read data only. -/
theorem accessStep_busy_frame {a : Access} {s t : State} (hbusy : s.busy = true) (h : accessStep a s = .next t) :
    t = { s with rdata := t.rdata, irqen := t.irqen, cmderr := t.cmderr, werr := t.werr } := by
  rcases accessStep_eq_next h with ⟨_, _, hread⟩ | ⟨w, _, hexec⟩ | ⟨off, v, _, _, rfl⟩
  · rw [hread]
  · rw [exec_command_busy hbusy] at hexec
    cases hexec
    split <;> rfl
  · rw [hostWrite_busy hbusy]

/-- Settles O28: the frame of an access while busy; a busy engine refuses the ACK that would clear an error bit. -/
theorem accessesNeverDisturbAnalysis : Obligations.AccessesNeverDisturbAnalysis := by
  intro s t a rest hbusy hin hstep
  have herrors : s.errorBitsStep t := errorBits_of_step hstep fun _ hreset => by rw [hin] at hreset; cases hreset
  have hnoack : ¬(s.commanded 2 ∧ s.busy = false) := fun ⟨_, hidle⟩ => by rw [hbusy] at hidle; cases hidle
  refine ⟨?_, errorBit_sticky herrors hnoack .cmderr, errorBit_sticky herrors hnoack .werr⟩
  rw [step_access hin] at hstep
  exact accessStep_busy_frame (s := { s with inputs := rest }) hbusy hstep

/-- Settles O29: a turn of the engine changes no parameter and stores results only; a busy access stores nothing. -/
theorem runningInputsAreFrozen : Obligations.RunningInputsAreFrozen := by
  intro s t hstep hbusy hreset
  rcases step_eq_next hstep with ⟨rest, hin, _⟩ | ⟨a, rest, _, haccess⟩ | ⟨_, hturn⟩
  · exact absurd hin (hreset rest)
  · rw [accessStep_busy_frame (s := { s with inputs := rest }) hbusy haccess]
    exact ⟨rfl, rfl, rfl, rfl, fun _ _ _ _ => rfl⟩
  · have hkept := (engineStep_grown hturn).kept
    refine ⟨?_, ?_, ?_, ?_, fun w hw k hk => hkept w (by simp [hw]) k (hk.trans_le s.cfg.nMax_le)⟩ <;>
      rw [engineStep_frame hturn]

/-- No access but an accepted ANALYZE changes a result register. -/
theorem accessStep_results {a : Access} {s t : State} (h : accessStep a s = .next t) :
    sameRegisters s t ∨ (s.busy = false ∧ t = s.accept) := by
  rcases accessStep_eq_next h with ⟨_, _, hread⟩ | ⟨_, _, hexec⟩ | ⟨off, v, _, _, rfl⟩
  · rw [hread]
    exact .inl ⟨rfl, rfl, ⟨rfl, rfl⟩, rfl⟩
  · rcases exec_command_eq_next hexec with rfl | ⟨e, rfl⟩ | ⟨_, hidle, _, _, rfl⟩ | ⟨_, _, rfl⟩
    · exact .inl ⟨rfl, rfl, ⟨rfl, rfl⟩, rfl⟩
    · exact .inl (by simp [sameRegisters])
    · exact .inr ⟨hidle, rfl⟩
    · exact .inl ⟨rfl, rfl, ⟨rfl, rfl⟩, rfl⟩
  · rw [hostWrite_frame]
    exact .inl ⟨rfl, rfl, ⟨rfl, rfl⟩, rfl⟩

/-- Settles O30: an access stores inputs only, and of the accesses only an accepted ANALYZE, which leaves the engine busy,
touches a result register; an idle engine's turn does nothing. -/
theorem resultsStayWhileIdle : Obligations.ResultsStayWhileIdle := by
  intro s t hstep hidle hreset
  rcases step_eq_next hstep with ⟨rest, hin, _⟩ | ⟨a, rest, _, haccess⟩ | ⟨_, hturn⟩
  · exact absurd hin (hreset rest)
  · refine ⟨fun hstill => ?_, fun w hw k hk => ?_⟩
    · rcases accessStep_results haccess with ⟨ht0, hnsym, ⟨hlen, hstart⟩, hseg⟩ | ⟨_, rfl⟩
      · exact ⟨ht0, hnsym, hlen, hstart, hseg⟩
      · cases hstill
    · exact (accessStep_grown haccess).kept w (by simp [hw]) k (hk.trans_le (Window.count_le s.cfg w))
  · have hstays : engineStep { s with inputs := s.inputs.tail } = .next { s with inputs := s.inputs.tail } := if_pos hidle
    obtain rfl := Host.Outcome.next.inj (hstays.symm.trans hturn)
    exact ⟨fun _ => ⟨rfl, rfl, rfl, rfl, rfl⟩, fun _ _ _ _ => rfl⟩

end Sys2Proof.Machine
end

section
/-! SUPPORT. The sequencer (45_host_commands.md R193 to R195; 10_state.md R48) and the stops it can come to (60_exceptions.md
R210, R212). -/

namespace Sys2Proof.Machine

/-- Settles O27: the cases of a turn; a stage itself changes neither the sequencer nor the handshake, the advance after it
does. -/
theorem stagesRunInOrder : Obligations.StagesRunInOrder := by
  intro s t _ hbusy h
  have hkept : t.cmderr = s.cmderr ∧ t.parerr = s.parerr ∧ t.werr = s.werr ∧ t.n = s.n ∧ t.maxlen = s.maxlen ∧
      t.irqen = s.irqen ∧ t.nl = s.nl ∧ t.ml = s.ml ∧ t.inputs = s.inputs ∧ t.rdata = s.rdata ∧ t.epoch = s.epoch := by
    rw [engineStep_frame h]
    simp
  rcases engineStep_eq_next h with ⟨hidle, _⟩ | ⟨_, h0, hn, rfl⟩ | ⟨_, h0, hn, rfl⟩ | ⟨_, run, u, hrun, hu, rfl⟩
  · rw [hbusy] at hidle
    cases hidle
  · exact ⟨fun _ _ => rfl, fun _ hmin => by omega, by simp [h0], by simp [h0], hkept⟩
  · exact ⟨fun _ hmin => by omega, fun _ _ => rfl, by simp [h0], by simp [h0], hkept⟩
  · obtain ⟨hubusy, hudone, huinsuff, hustage, _, _⟩ := (hrun.frame hu).sameEngine
    refine ⟨fun h0 => absurd h0 hrun.stage_ne_zero, fun h0 => absurd h0 hrun.stage_ne_zero, fun _ h5 => ?_, fun h6 => ?_,
      hkept⟩
    · obtain ⟨hcode, hb, hd⟩ := advance_sequencer (s := u) (by rwa [hustage])
      refine ⟨by rw [hcode, hustage], by rw [hb, hubusy, hbusy], by rw [hd, hudone], ?_⟩
      rw [← huinsuff, advance_frame]
    · rw [advance_last (hustage.trans (BitVec.eq_of_toNat_eq h6))]
      exact ⟨rfl, rfl, rfl, huinsuff⟩

/-! The stops. -/

/-- An access that is not accepted is the refusal of R61; every other goes on. -/
theorem accessStep_stop (a : Access) (s : State) :
    (∃ t, accessStep a s = .next t) ∨
      (accessStep a s = .refused .badAccess ∧ ∃ off bytes, ¬(bytes = 4 ∧ off.toNat % 4 = 0) ∧
        (a = .read off bytes ∨ ∃ w, a = .write off bytes w)) := by
  rcases a with ⟨off, bytes⟩ | ⟨off, bytes, w⟩ <;> by_cases hok : bytes = 4 ∧ off.toNat % 4 = 0
  · obtain ⟨rfl, h4⟩ := hok
    exact .inl ⟨_, accessStep_read h4 s⟩
  · exact .inr ⟨accessStep_refused (.inl rfl) hok s, off, bytes, hok, .inl rfl⟩
  · obtain ⟨rfl, h4⟩ := hok
    exact .inl (accessStep_write_next h4 w s)
  · exact .inr ⟨accessStep_refused (.inr ⟨w, rfl⟩) hok s, off, bytes, hok, .inr ⟨w, rfl⟩⟩

/-- Within capacity stage PHASE stops at an unwritten sample only. -/
theorem execPhase_stop {s : State} (hn : countOfWord s.nl ≤ s.cfg.nMax) :
    (∃ t, execPhase s = .next t) ∨ (execPhase s = .fault .unwrittenInput ∧
      ∃ k : Nat, k < countOfWord s.nl ∧ (s.written .inI k = false ∨ s.written .inQ k = false)) := by
  by_cases hall : ∀ k, k < countOfWord s.nl → s.written .inI k = true ∧ s.written .inQ k = true
  · obtain ⟨t, ht, _⟩ := execPhase_filled hn (fun k hk => (hall k hk).1) fun k hk => (hall k hk).2
    exact .inl ⟨t, ht⟩
  · have hunwritten : ∃ k : Nat, k < countOfWord s.nl ∧ (s.written .inI k = false ∨ s.written .inQ k = false) := by
      simpa [imp_iff_not_or] using hall
    exact (execPhase_next_or_fault s).imp_right fun hfault => ⟨hfault, hunwritten⟩

/-- From a legal state a turn of the engine goes on, or stops at an unwritten sample in stage PHASE. -/
theorem engineStep_stop {s : State} (hinv : s.Inv) (hready : s.Ready) :
    (∃ t, engineStep s = .next t) ∨ (engineStep s = .fault .unwrittenInput ∧ s.busy = true ∧ s.stage = 1 ∧
      ∃ k : Nat, k < countOfWord s.nl ∧ (s.written .inI k = false ∨ s.written .inQ k = false)) := by
  rcases engineStep_cases s with ⟨_, he⟩ | ⟨_, _, _, he⟩ | ⟨_, _, _, he⟩ | ⟨hbusy, run, hrun, he⟩ | ⟨_, h7, _⟩
  · exact .inl ⟨_, he⟩
  · exact .inl ⟨_, he⟩
  · exact .inl ⟨_, he⟩
  · obtain ⟨hn, hm⟩ := hinv.capacity hbusy
    have hgo : (∃ u, run s = .next u) → ∃ t, engineStep s = .next t := fun ⟨u, hu⟩ => ⟨_, by rw [he, hu, andThen_next]⟩
    rcases hrun with ⟨hc, rfl⟩ | ⟨hc, rfl⟩ | ⟨hc, rfl⟩ | ⟨hc, rfl⟩ | ⟨hc, rfl⟩ | ⟨hc, rfl⟩
    · rcases execPhase_stop hn with hnext | ⟨hfault, hunwritten⟩
      · exact .inl (hgo hnext)
      · exact .inr ⟨by rw [he, hfault, andThen_fault], hbusy, hc, hunwritten⟩
    · obtain ⟨t, ht, _⟩ := execDiff_inside hn
      exact .inl (hgo ⟨t, ht⟩)
    · obtain ⟨t, ht, _⟩ := execFilter_inside hn
      exact .inl (hgo ⟨t, ht⟩)
    · obtain ⟨t, ht, _⟩ := execAcquire_frame s
      exact .inl (hgo ⟨t, ht⟩)
    · obtain ⟨h50, h74⟩ := hready.instant (by simp [hc])
      obtain ⟨t, ht, _⟩ := execTrack_tracked (hinv.sufficient (by simp [hc])) hn h50 h74
      exact .inl (hgo ⟨t, ht⟩)
    · obtain ⟨hI, hQ⟩ := hready.input (by simp [hc])
      obtain ⟨t, ht, _⟩ := execExtract_laidOut hn hm hI hQ
      exact .inl (hgo ⟨t, ht⟩)
  · have hcode := hinv.stageCode
    simp [h7] at hcode

/-- Settles O54: a reset goes on, an access has one refusal, and a turn of the engine one fault. -/
theorem onlyDocumentedStops : Obligations.OnlyDocumentedStops := by
  intro s hinv hready
  rcases step_cases s with ⟨a, rest, hin, he⟩ | ⟨rest, _, he⟩ | ⟨_, _, he⟩ <;> rw [he]
  · rcases accessStep_stop a { s with inputs := rest } with ⟨t, ht⟩ | ⟨hrefused, off, bytes, hbad, ha⟩
    · rw [ht]
      exact ⟨nofun, nofun⟩
    · rw [hrefused]
      refine ⟨nofun, fun r hr => ?_⟩
      cases hr
      rw [hin]
      refine ⟨rfl, off, bytes, rest, hbad, ha.imp (fun ha => by rw [ha]) fun ⟨w, ha⟩ => ⟨w, by rw [ha]⟩⟩
  · exact ⟨nofun, nofun⟩
  · rcases engineStep_stop (hinv.with_inputs s.inputs.tail) (hready.with_inputs s.inputs.tail) with
      ⟨t, ht⟩ | ⟨hfault, hbusy, hstage, hunwritten⟩
    · rw [ht]
      exact ⟨nofun, nofun⟩
    · rw [hfault]
      refine ⟨fun e h => ?_, nofun⟩
      cases h
      exact ⟨rfl, hbusy, hstage, hunwritten⟩

end Sys2Proof.Machine
end

section
/-! SUPPORT. Whole analyses from the write of ANALYZE on (45_host_commands.md R191 to R195; 70_reset_and_hazards.md R234). -/

namespace Sys2Proof.Machine

/-- The first step of an analysis is its acceptance (R191). -/
theorem run_accept {s : State} (hidle : s.busy = false) (hn : countOfWord s.n ≤ s.cfg.nMax)
    (hm : countOfWord s.maxlen ≤ s.cfg.segMax) : s.withAnalyze.run 1 = .next { s with inputs := [] }.accept := by
  rw [run_last, run_zero, andThen_next, step_withAnalyze hidle hn hm]

/-- From acceptance, with too few samples, a turn completes with INSUFF (R193). -/
theorem Running.insufficient {n : Word} {s : State} (h : Running 0 n s) (hshort : countOfWord n < 359) :
    step s = .next { s with insuff := true }.complete := by
  have hfew : countOfWord s.nl < N_MIN := by rwa [h.nl]
  rw [step_empty h.inputs, engineStep, if_neg (by simp [h.busy]), if_pos h.stage, if_pos hfew]

/-- With too few samples the second step is completion with INSUFF (R193). -/
theorem run_insufficient {s : State} (hinv : s.Inv) (hidle : s.busy = false) (hshort : countOfWord s.n < 359)
    (hm : countOfWord s.maxlen ≤ s.cfg.segMax) :
    s.withAnalyze.run 2 = .next { s with
      inputs := [], nl := s.n, ml := s.maxlen, busy := false, done := true, insuff := true, t0 := 0, nsym := 0
      runLen := ⟨0, 0, 0, 0⟩, runStart := ⟨0, 0, 0, 0⟩, segLen := ⟨0, 0, 0, 0⟩ } := by
  have hmin : 359 ≤ s.cfg.nMax := s.cfg.nMax_ge
  have hstage : s.stage = 0 := hinv.idleStage hidle
  have hn : countOfWord s.n ≤ s.cfg.nMax := by omega
  have hrunning : Running 0 s.n { s with inputs := [] }.accept := ⟨rfl, hstage, rfl, rfl, hn, hm⟩
  rw [run_last, run_accept hidle hn hm, andThen_next, hrunning.insufficient hshort]
  simp only [State.complete, State.accept, zeroWords, hstage]

/-- Settles O25: acceptance, then the completion of too short an analysis. -/
theorem insufficientDataCompletes : Obligations.InsufficientDataCompletes :=
  fun _ hinv hidle hshort hm => run_insufficient hinv hidle hshort hm

/-- With enough samples the second step enters stage PHASE (R194). -/
theorem run_enter {s : State} (hinv : s.Inv) (hidle : s.busy = false) (hmin : 359 ≤ countOfWord s.n)
    (hn : countOfWord s.n ≤ s.cfg.nMax) (hm : countOfWord s.maxlen ≤ s.cfg.segMax) :
    s.withAnalyze.run 2 = .next { { s with inputs := [] }.accept with stage := 1 } := by
  have hrunning : Running 0 s.n { s with inputs := [] }.accept := ⟨rfl, hinv.idleStage hidle, rfl, rfl, hn, hm⟩
  rw [run_last, run_accept hidle hn hm, andThen_next, hrunning.enter hmin]

/-- Settles O26: with enough samples the third step runs stage PHASE, which stops at the unwritten one. -/
theorem unwrittenInputFaults : Obligations.UnwrittenInputFaults := by
  refine fun s hinv hidle hn hm => ⟨fun hmin ⟨k, hk, hunwritten⟩ => ⟨3, ?_⟩, fun hshort => ?_⟩
  · let s1 : State := { { s with inputs := [] }.accept with stage := 1 }
    have hrunning : Running 1 s.n s1 := ⟨rfl, rfl, rfl, rfl, hn, hm⟩
    have hfault : exec .phase s1 = .fault .unwrittenInput := (phaseStageComputesEverySample s1 hn).2 k hk hunwritten
    show s.withAnalyze.run 3 = (.fault .unwrittenInput : Result)
    rw [run_last, run_enter hinv hidle hmin hn hm, andThen_next, hrunning.step_eq (i := .phase) rfl, hfault, andThen_fault]
  · exact ⟨2, _, run_insufficient hinv hidle hshort hm, rfl, rfl, rfl, rfl, rfl⟩

/-- The analysis of the inputs of `s` is in stage `c`: what the host wrote, and what it can have set before, is untouched. -/
structure Analysing (s : State) (c : Nat) (t : State) : Prop where
  legal : t.Inv ∧ t.Ready
  sequencer : t.busy = true ∧ t.stage.toNat = c ∧ t.insuff = false ∧ t.inputs = []
  latched : t.nl = s.n ∧ t.ml = s.maxlen
  host : t.n = s.n ∧ t.maxlen = s.maxlen ∧ t.irqen = s.irqen ∧ t.cmderr = s.cmderr ∧ t.parerr = s.parerr ∧
    t.werr = s.werr
  cfg : t.cfg = s.cfg
  samples : ∀ w : Window, w.isInput = true → ∀ k : Nat, k < s.cfg.nMax → t.stored w k = s.stored w k

/-- Over written samples every turn of the analysis goes on, and leaves the host's side as it was. -/
theorem Analysing.turn {s t : State} {c : Nat} (h : Analysing s c t) (hn : countOfWord s.n ≤ s.cfg.nMax)
    (hwritten : ∀ k : Nat, k < countOfWord s.n → s.written .inI k = true ∧ s.written .inQ k = true) :
    ∃ u, step t = .next u ∧ engineStep t = .next u ∧ u.inputs = [] ∧ (u.Inv ∧ u.Ready) ∧ (u.nl = s.n ∧ u.ml = s.maxlen) ∧
      (u.n = s.n ∧ u.maxlen = s.maxlen ∧ u.irqen = s.irqen ∧ u.cmderr = s.cmderr ∧ u.parerr = s.parerr ∧ u.werr = s.werr) ∧
      u.cfg = s.cfg ∧ ∀ w : Window, w.isInput = true → ∀ k : Nat, k < s.cfg.nMax → u.stored w k = s.stored w k := by
  obtain ⟨⟨hinv, hready⟩, ⟨_, _, _, hinputs⟩, ⟨hnl, hml⟩, hhost, hcfg, hsamples⟩ := h
  have hstep : step t = engineStep t := step_empty hinputs
  rcases engineStep_stop hinv hready with ⟨u, hu⟩ | ⟨_, _, _, k, hk, hunwritten⟩
  · have hgrown := engineStep_grown hu
    refine ⟨u, hstep.trans hu, hu, ?_, engineStep_legal hinv hready hu, ?_, ?_, hgrown.cfg.trans hcfg, fun w hw k hk => ?_⟩
    · rw [engineStep_frame hu]
      exact hinputs
    · rw [engineStep_frame hu]
      exact ⟨hnl, hml⟩
    · rw [engineStep_frame hu]
      exact hhost
    · rw [hgrown.kept w (by simp [hw]) k (hk.trans_le s.cfg.nMax_le), hsamples w hw k hk]
  · rw [hnl] at hk
    have hI : t.written .inI k = true := by
      rw [State.written, hsamples .inI rfl k (by omega)]
      exact (hwritten k hk).1
    have hQ : t.written .inQ k = true := by
      rw [State.written, hsamples .inQ rfl k (by omega)]
      exact (hwritten k hk).2
    simp [hI, hQ] at hunwritten

/-- Turn by turn the analysis comes to its last stage (R194). -/
theorem run_analysing {s : State} (hinv : s.Inv) (hidle : s.busy = false) (hmin : 359 ≤ countOfWord s.n)
    (hn : countOfWord s.n ≤ s.cfg.nMax) (hm : countOfWord s.maxlen ≤ s.cfg.segMax)
    (hwritten : ∀ k : Nat, k < countOfWord s.n → s.written .inI k = true ∧ s.written .inQ k = true) (c : Nat) (hc : c ≤ 5) :
    ∃ t, s.withAnalyze.run (c + 2) = .next t ∧ Analysing s (c + 1) t := by
  induction c with
  | zero =>
    have haccept := accept_inv (hinv.with_inputs []) hidle hn hm
    refine ⟨_, run_enter hinv hidle hmin hn hm, ⟨?_, ready_of_stage_le_one (Nat.le_refl 1)⟩, ⟨rfl, rfl, rfl, rfl⟩,
      ⟨rfl, rfl⟩, ⟨rfl, rfl, rfl, rfl, rfl, rfl⟩, rfl, fun _ _ _ _ => rfl⟩
    exact ⟨haccept.memory, haccept.places, show (1 : BitVec 3).toNat ≤ 6 by decide, nofun, nofun, nofun, haccept.capacity,
      fun _ => hmin⟩
  | succ c ih =>
    obtain ⟨t, ht, h⟩ := ih (by omega)
    obtain ⟨u, hu, hturn, hinputs, hlegal, hlatched, hhost, hcfg, hsamples⟩ := h.turn hn hwritten
    obtain ⟨hbusy, hcode, hinsuff, _⟩ := h.sequencer
    obtain ⟨_, _, hnext, _⟩ := stagesRunInOrder t u h.legal.1 hbusy hturn
    obtain ⟨hcode', hbusy', _, hinsuff'⟩ := hnext (by omega) (by omega)
    exact ⟨u, by rw [run_last, ht, andThen_next, hu], hlegal, ⟨hbusy', by omega, by rw [hinsuff', hinsuff], hinputs⟩,
      hlatched, hhost, hcfg, hsamples⟩

/-- Settles O55: the eighth step runs stage EXTRACT, which keeps the instant of stage ACQUIRE and the capacity. -/
theorem analysisCompletes : Obligations.AnalysisCompletes := by
  intro s hinv hidle hmin hn hm hwritten
  obtain ⟨t, ht, h⟩ := run_analysing hinv hidle hmin hn hm hwritten 5 (Nat.le_refl 5)
  obtain ⟨u, hu, hturn, _, _, ⟨_, hml⟩, ⟨hn', hmaxlen, hirqen, hcmd, hpar, hwerr⟩, _, hsamples⟩ := h.turn hn hwritten
  obtain ⟨hbusy, hcode, hinsuff, _⟩ := h.sequencer
  obtain ⟨_, _, _, hlast, _⟩ := stagesRunInOrder t u h.legal.1 hbusy hturn
  obtain ⟨hstage', hbusy', hdone', hinsuff'⟩ := hlast hcode
  obtain ⟨h50, h74⟩ := h.legal.2.instant (by omega)
  have hextract := engineStep_of_decode (i := .extract) hbusy
    (fun h0 => by simp [h0] at hcode) (by rw [show t.stage = 6 from BitVec.eq_of_toNat_eq hcode]; rfl)
  obtain ⟨v, hv, hadvance⟩ := andThen_eq_next.mp (hextract.symm.trans hturn)
  obtain ⟨hcapacity, _⟩ := extractKeepsCapacity t v hv
  have ht0 : u.t0 = t.t0 := by
    cases hadvance
    rw [advance_frame, execExtract_frame hv]
  have hseg : u.segLen = v.segLen := by
    cases hadvance
    rw [advance_frame]
  rw [h.latched.2, ← hseg] at hcapacity
  refine ⟨u, ?_, hbusy', hdone', by rw [hinsuff', hinsuff], hstage', by rwa [ht0], by rwa [ht0], hcapacity, hn', hmaxlen,
    hirqen, hcmd, hpar, hwerr, fun k hk => ⟨hsamples .inI rfl k hk, hsamples .inQ rfl k hk⟩⟩
  show s.withAnalyze.run 8 = (.next u : Result)
  rw [run_last, ht, andThen_next, hu]

end Sys2Proof.Machine
end

section
/-! SUPPORT. The range of the filtered phase (41_differential_filter.md R127) and the emission of one dibit
(43_timing_tracker.md R158, R159). -/

namespace Sys2Proof.Machine

/-- A FIR sum over values of magnitude at most `bound`. -/
theorem natAbs_fir_le {g : Nat → Int} {bound : Nat} (taps : List Int) (h : ∀ j, j < taps.length → (g j).natAbs ≤ bound) :
    ((List.range taps.length).map fun j => g j * taps.getD j 0).sum.natAbs ≤ bound * (taps.map Int.natAbs).sum := by
  induction taps generalizing g with
  | nil => simp
  | cons tap taps ih =>
    have hhead : (g 0 * tap).natAbs ≤ bound * tap.natAbs := by
      rw [Int.natAbs_mul]
      exact Nat.mul_le_mul_right _ (h 0 (by simp))
    have htail := ih (g := fun j => g (j + 1)) fun j hj => h (j + 1) (by simp; omega)
    rw [List.length_cons, List.range_succ_eq_map, List.map_cons, List.map_map, List.sum_cons, List.map_cons, List.sum_cons,
      Nat.mul_add]
    exact (Int.natAbs_add_le _ _).trans (Nat.add_le_add hhead htail)

/-- The filtered value of a sample whose differences lie within half a turn (R127). -/
theorem natAbs_filterValue_le {s : State} {i : Nat} (hlow : 50 ≤ i) (hhigh : i + 50 < countOfWord s.nl)
    (hdiff : ∀ k : Nat, k < countOfWord s.nl →
      -131072 ≤ intOfWord (s.elem .diff k) ∧ intOfWord (s.elem .diff k) ≤ 131072) :
    (s.filterValue i).natAbs ≤ 131072 * (s.cfg.kernel.map Int.natAbs).sum / s.cfg.gain.natAbs := by
  have htaps : s.cfg.kernel.length = 101 := s.cfg.kernel_length
  have hsum := natAbs_fir_le (bound := 131072) (g := fun j => intOfWord (s.elem .diff (i - HALF_K + j))) s.cfg.kernel
    fun j hj => by
      have := hdiff (i - HALF_K + j) (by simp only [HALF_K]; omega)
      omega
  rw [htaps] at hsum
  rw [State.filterValue, if_pos ⟨hlow, hhigh⟩, tdiv, Int.natAbs_tdiv]
  exact Nat.div_le_div_right hsum

/-- The bound of R127 fits a signed word: it is R7's constraint on the gain. -/
theorem filter_bound_lt (c : Config) : 131072 * (c.kernel.map Int.natAbs).sum / c.gain.natAbs < 2147483648 := by
  have hbound := c.gain_bound
  rw [absSum_eq_sum] at hbound
  exact Nat.div_lt_of_lt_mul (by omega)

/-- Settles O37: stage FILTER stores values that a word holds unchanged. -/
theorem filteredPhaseFitsWord : Obligations.FilteredPhaseFitsWord := by
  intro s t hn h hdiff i hlow hhigh
  obtain ⟨u, hu, hswept⟩ := execFilter_inside hn
  obtain rfl : u = t := Host.Outcome.next.inj (hu.symm.trans h)
  have hvalue := natAbs_filterValue_le hlow hhigh hdiff
  have hfits := filter_bound_lt s.cfg
  refine ⟨?_, hfits⟩
  rwa [elem_of_stored (hswept.values i (by omega)), intOfWord_wordOfInt (by omega) (by omega)]

/-- EMIT at an instant of the data with room in the stream, as an instruction of its own. -/
theorem exec_emit {s : State} {c : Int} (m : Move) (h0 : 0 ≤ c) (h1 : c < s.cfg.nMax) (hroom : countOfWord s.nsym < 16384) :
    exec (.emit c m) s = .next (s.emitted c m) := execEmit_inside m h0 h1 hroom

theorem moveCode_eq (m : Move) : (moveCode m : Int) = match m with | .centre => 0 | .early => 1 | .late => 2 := by
  cases m <;> rfl

/-- Settles O42: the fields of the state EMIT leaves. -/
theorem emitWritesDibitWord : Obligations.EmitWritesDibitWord := by
  intro s c m h0 h1 hroom
  have hmax := s.cfg.nMax_le
  have hword := dibitWord_toNat m (s.dibAt c) h0 (by omega)
  rw [moveCode_eq] at hword
  exact ⟨s.emitted c m, exec_emit m h0 h1 hroom, rfl, sameBytesBut_setElem s .dibit _ _,
    ⟨_, stored_setElem_same s .dibit _ _, hword⟩, countOfWord_wordOfCount (by omega), rfl⟩

end Sys2Proof.Machine
end

section
/-! SUPPORT. Stage TRACK as the loop of 43_timing_tracker.md R153 over the filtered phase it starts from: its instants and its
runs, step by step. -/

namespace Sys2Proof.Machine

/-- The instant before step `n` of the loop: the instant the gate chose in the step before, plus 25 (R159). -/
def State.trackInstant (s : State) : Nat → Int
  | 0 => countOfWord s.t0
  | n + 1 => (s.selectWork (s.trackInstant n)).c + 25

/-- The instant step `n` emits (R157). -/
def State.trackChoice (s : State) (n : Nat) : Int := (s.selectWork (s.trackInstant n)).c

/-- The move by which step `n` chooses it. -/
def State.trackMove (s : State) (n : Nat) : Move := (s.selectWork (s.trackInstant n)).move

/-- The dibit step `n` emits (R158). -/
def State.trackDibit (s : State) (n : Nat) : Dibit := s.dibAt (s.trackChoice n)

/-- The runs before step `n`, in a state that takes the run updates only (R161). -/
def State.trackRuns (s : State) : Nat → State
  | 0 => { s with work := { s.work with curValid := false } }
  | n + 1 => (s.trackRuns n).updateRun (s.trackDibit n) (s.trackChoice n)

theorem trackInstant_ge {s : State} (h50 : 50 ≤ countOfWord s.t0) (n : Nat) : 50 ≤ s.trackInstant n := by
  induction n with
  | zero => exact Int.ofNat_le.mpr h50
  | succ n ih =>
    have hchoice := selectWork_c_ge s ih
    rw [State.trackInstant]
    omega

/-- An instant the loop emits lies in the data. -/
theorem trackChoice_bounds {s : State} (h50 : 50 ≤ countOfWord s.t0) (hn : countOfWord s.nl ≤ s.cfg.nMax) {n : Nat}
    (hlast : s.trackInstant n ≤ (countOfWord s.nl : Int) - 52) : 50 ≤ s.trackChoice n ∧ s.trackChoice n < 16384 := by
  have hmax := s.cfg.nMax_le
  have hge := selectWork_c_ge s (trackInstant_ge h50 n)
  obtain ⟨_, hle⟩ := selectWork_c_near s (s.trackInstant n)
  rw [State.trackChoice]
  omega

/-- The stream of `t` has entry `n` of the loop from `s` (R158), which began inside the loop's range. -/
def State.hasEntry (s t : State) (n : Nat) : Prop :=
  s.trackInstant n ≤ (countOfWord s.nl : Int) - 52 ∧
    t.stored .dibit n = some (dibitWord (s.trackChoice n) (s.trackMove n) (s.trackDibit n))

/-- What the loop of stage TRACK from `s` has come to in `u`: the instant, the runs and the entries of its steps so far. -/
structure Follows (s u : State) : Prop where
  tracked : Tracked (countOfWord s.t0) s u
  instant : u.work.t = s.trackInstant (countOfWord u.nsym)
  runs : SameRuns (s.trackRuns (countOfWord u.nsym)) u
  entries : ∀ n, n < countOfWord u.nsym → s.hasEntry u n

/-- The loop reads the filtered phase it started with. -/
theorem Tracked.sameFilter {first : Nat} {s u : State} (h : Tracked first s u) (hfirst : 50 ≤ first)
    (hn : countOfWord s.nl ≤ s.cfg.nMax) : SameFilter s u := by
  have hmax := s.cfg.nMax_le
  obtain ⟨_, _, hroom⟩ := h.bounds hfirst hn
  exact ⟨by rw [h.frame], by rw [h.frame], fun k _ hk => h.elem_filt (by omega) hroom.le⟩

theorem Follows.start {s : State} (h : countOfWord s.t0 + 28 ≤ countOfWord s.nl) :
    Follows s (s.trackStart (countOfWord s.t0)) where
  tracked := Tracked.start h _ rfl
  instant := rfl
  runs := ⟨⟨rfl, rfl⟩, rfl, nofun⟩
  entries := fun n hn => absurd hn n.not_lt_zero

theorem Follows.next {s u : State} (h : Follows s u) (h50 : 50 ≤ countOfWord s.t0) (hn : countOfWord s.nl ≤ s.cfg.nMax)
    (hlast : u.work.t ≤ (countOfWord u.nl : Int) - 52) : ∃ v, trackStep u = .next v ∧ Follows s v := by
  have hnl : u.nl = s.nl := by rw [h.tracked.frame]
  have hinside : s.trackInstant (countOfWord u.nsym) ≤ (countOfWord s.nl : Int) - 52 := by
    rw [← h.instant, ← hnl]
    exact hlast
  obtain ⟨hc, hm, hd⟩ := (h.tracked.sameFilter h50 hn).selectWork (trackInstant_ge h50 _) hinside
  obtain ⟨v, hv, htracked, _, hcount, hold, ht, hentry, hruns⟩ := h.tracked.emits h50 hn hlast
  rw [h.instant, hc] at ht hentry hruns
  rw [hm, hd] at hentry
  rw [hd] at hruns
  refine ⟨v, hv, htracked, by rw [ht, hcount]; rfl, ?_, fun n hlt => ?_⟩
  · have hemitted : SameRuns (s.trackRuns (countOfWord u.nsym))
        ({ u with work := u.selectWork (s.trackInstant (countOfWord u.nsym)) }.emitted
          (s.trackChoice (countOfWord u.nsym)) (u.selectWork (s.trackInstant (countOfWord u.nsym))).move) :=
      ⟨h.runs.recorded, h.runs.curValid, h.runs.current⟩
    rw [hcount, hruns]
    exact hemitted.updateRun _ _
  · rcases Nat.lt_succ_iff_lt_or_eq.mp (hcount ▸ hlt) with hlt | rfl
    · rw [State.hasEntry, hold n hlt]
      exact h.entries n hlt
    · exact ⟨hinside, hentry⟩

/-- Stage TRACK whole: the entries of its steps, and the runs the flush of the last one leaves (R153, R163). -/
theorem execTrack_follows {s : State} (h359 : 359 ≤ countOfWord s.nl) (hn : countOfWord s.nl ≤ s.cfg.nMax)
    (h50 : 50 ≤ countOfWord s.t0) (h74 : countOfWord s.t0 ≤ 74) :
    ∃ t u, execTrack s = .next t ∧ countOfWord t.nsym < 16384 ∧ (∀ n, n < countOfWord t.nsym → s.hasEntry t n) ∧
      (countOfWord s.nl : Int) - 52 < s.trackInstant (countOfWord t.nsym) ∧
      execRunFlush (s.trackRuns (countOfWord t.nsym)) = .next u ∧ t.runLen = u.runLen ∧ t.runStart = u.runStart := by
  let start := s.trackStart (countOfWord s.t0)
  obtain ⟨v, hv, hfollows⟩ := trackLoop_completes (P := Follows s) (fun u hu hlast => hu.next h50 hn hlast)
    (countOfWord s.nl) start (Follows.start (by omega))
  have hend := trackLoop_end (countOfWord s.nl) start v
    (show (countOfWord s.nl : Int) - 52 < countOfWord s.t0 + 24 * countOfWord s.nl by omega) hv
  have hnl : v.nl = s.nl := by rw [hfollows.tracked.frame]
  rw [hnl, hfollows.instant] at hend
  obtain ⟨u, t, hu, ht, _, hframe⟩ := hfollows.runs.execRunFlush
  refine ⟨t, u, by rw [execTrack_eq, hv, andThen_next, ht], ?_, ?_, ?_, ?_, ?_, ?_⟩ <;> rw [hframe]
  · exact (hfollows.tracked.bounds h50 hn).2.2
  · exact hfollows.entries
  · exact hend
  · exact hu

/-- Settles O45: the loop's sequences, read off the filtered phase. -/
theorem trackFollowsLoop : Obligations.TrackFollowsLoop := by
  intro s h359 hn h50 h74
  obtain ⟨t, u, ht, _, hentries, hend, hflush, hlen, hstart⟩ := execTrack_follows h359 hn h50 h74
  refine ⟨t, u, ht, s.trackInstant, s.trackChoice, s.trackMove, fun n => s.termSet (s.trackInstant n), s.trackRuns, rfl,
    rfl, fun n hlt => ?_, hend, hflush, hlen, hstart⟩
  obtain ⟨hinside, hstored⟩ := hentries n hlt
  exact ⟨hinside, termSet_isTermSet s _, selectWork_gateChooses s _, rfl, hstored, rfl⟩

end Sys2Proof.Machine
end

section
/-! SUPPORT. The longest stretch of each dibit value in the stream (43_timing_tracker.md R167), by the run that is open and
the runs closed before it (R161 to R163). -/

namespace Sys2Proof.Machine

/-! Stretches of a sequence of dibits. -/

/-- Entries `a` to `a + len - 1` lie among the first `n` and all have dibit `d`. -/
def stretchIn (ds : Nat → Dibit) (n : Nat) (d : Dibit) (a len : Nat) : Prop :=
  a + len ≤ n ∧ ∀ i : Nat, a ≤ i → i < a + len → ds i = d

/-- `len` is the length of the longest stretch of `d` among the first `n` entries, and `start` the instant of the earliest
such stretch minus 12; both are 0 where there is none. -/
structure LongestRun (ds : Nat → Dibit) (cs : Nat → Int) (n : Nat) (d : Dibit) (len : Nat) (start : Int) : Prop where
  inside : len ≤ n
  longest : ∀ a l : Nat, stretchIn ds n d a l → l ≤ len
  none : len = 0 → start = 0
  earliest : len ≠ 0 → ∃ a : Nat, stretchIn ds n d a len ∧ start = cs a - 12 ∧ ∀ a' : Nat, stretchIn ds n d a' len → a ≤ a'

namespace stretchIn

variable {ds : Nat → Dibit} {m n a l : Nat} {d : Dibit}

theorem mono (h : stretchIn ds m d a l) (hmn : m ≤ n) : stretchIn ds n d a l :=
  ⟨h.1.trans hmn, h.2⟩

/-- Before entries of other values a stretch ends. -/
theorem before (h : stretchIn ds n d a l) (hl : l ≠ 0) (hother : ∀ i, m ≤ i → i < n → ds i ≠ d) :
    stretchIn ds m d a l := by
  obtain ⟨hn, hall⟩ := h
  refine ⟨?_, hall⟩
  by_contra hbeyond
  exact hother (a + l - 1) (by omega) (by omega) (hall _ (by omega) (by omega))

/-- A stretch does not lie across the start of a run. -/
theorem split (h : stretchIn ds n d a l) (hbegin : m = 0 ∨ ds (m - 1) ≠ d) :
    stretchIn ds m d a l ∨ m ≤ a := by
  obtain ⟨_, hall⟩ := h
  by_cases hbefore : a + l ≤ m
  · exact .inl ⟨hbefore, hall⟩
  · refine .inr ?_
    by_contra hacross
    rcases hbegin with h0 | hne
    · omega
    · exact hne (hall _ (by omega) (by omega))

end stretchIn

namespace LongestRun

variable {ds : Nat → Dibit} {cs : Nat → Int} {m n len : Nat} {d : Dibit} {start : Int}

theorem empty (ds : Nat → Dibit) (cs : Nat → Int) (d : Dibit) : LongestRun ds cs 0 d 0 0 where
  inside := Nat.le_refl 0
  longest := fun _ _ h => by
    have := h.1
    omega
  none := fun _ => rfl
  earliest := fun h => absurd rfl h

/-- Entries of other values leave the longest stretch as it is. -/
theorem others (h : LongestRun ds cs m d len start) (hmn : m ≤ n) (hother : ∀ i, m ≤ i → i < n → ds i ≠ d) :
    LongestRun ds cs n d len start where
  inside := h.inside.trans hmn
  longest := fun a l hs => by
    by_cases hl : l = 0
    · omega
    · exact h.longest a l (hs.before hl hother)
  none := h.none
  earliest := fun hlen => by
    obtain ⟨a, ha, hstart, hfirst⟩ := h.earliest hlen
    exact ⟨a, ha.mono hmn, hstart, fun a' hs => hfirst a' (hs.before hlen hother)⟩

/-- A run that is strictly longer becomes the longest stretch (R162). -/
theorem longer (h : LongestRun ds cs m d len start) (hbegin : m = 0 ∨ ds (m - 1) ≠ d)
    (hrun : ∀ i, m ≤ i → i < n → ds i = d) (hlonger : len < n - m) : LongestRun ds cs n d (n - m) (cs m - 12) where
  inside := Nat.sub_le n m
  longest := fun a l hs => by
    rcases hs.split hbegin with hbefore | hafter
    · have := h.longest a l hbefore
      omega
    · have := hs.1
      omega
  none := fun h0 => by omega
  earliest := fun _ => by
    refine ⟨m, ⟨by omega, fun i h1 h2 => hrun i h1 (by omega)⟩, rfl, fun a' hs => ?_⟩
    rcases hs.split hbegin with hbefore | hafter
    · have := h.longest a' _ hbefore
      omega
    · exact hafter

/-- A run that is not longer leaves the earlier one (R162). -/
theorem notLonger (h : LongestRun ds cs m d len start) (hbegin : m = 0 ∨ ds (m - 1) ≠ d) (hmn : m ≤ n)
    (hnot : ¬len < n - m) : LongestRun ds cs n d len start where
  inside := h.inside.trans hmn
  longest := fun a l hs => by
    rcases hs.split hbegin with hbefore | hafter
    · exact h.longest a l hbefore
    · have := hs.1
      omega
  none := h.none
  earliest := fun hlen => by
    obtain ⟨a, ha, hstart, hfirst⟩ := h.earliest hlen
    refine ⟨a, ha.mono hmn, hstart, fun a' hs => ?_⟩
    rcases hs.split hbegin with hbefore | hafter
    · exact hfirst a' hbefore
    · have := ha.1
      omega

end LongestRun

/-! The run registers. -/

/-- The run registers of `r` record the longest stretches of the first `n` entries. -/
def records (ds : Nat → Dibit) (cs : Nat → Int) (n : Nat) (r : State) : Prop :=
  ∀ d, LongestRun ds cs n d (countOfWord (r.runLen.get d)) (intOfWord (r.runStart.get d))

/-- After `n` entries the open run of `r` holds those from entry `m` on, and the run registers record those before. -/
structure OpenRun (ds : Nat → Dibit) (cs : Nat → Int) (m n : Nat) (r : State) : Prop where
  valid : r.work.curValid = true
  nonempty : m < n
  len : r.work.curLen = n - m
  start : r.work.curStart = cs m - 12
  same : ∀ i, m ≤ i → i < n → ds i = r.work.curD
  begins : m = 0 ∨ ds (m - 1) ≠ r.work.curD
  recorded : records ds cs m r

/-- The close of the open run leaves all stretches recorded, where its length and instant fit a word (R162). -/
theorem OpenRun.closeRun {ds : Nat → Dibit} {cs : Nat → Int} {m n : Nat} {r : State} (h : OpenRun ds cs m n r)
    (hn : n < 16384) (hcs : 0 ≤ cs m ∧ cs m < 16384) : records ds cs n r.closeRun := by
  obtain ⟨_, hmn, hlen, hstart, hsame, hbegins, hrecorded⟩ := h
  intro d
  by_cases hd : d = r.work.curD
  · subst hd
    by_cases hlonger : countOfWord (r.runLen.get r.work.curD) < r.work.curLen
    · rw [closeRun_longer hlonger]
      simp only [PerDibit.get_set_same]
      rw [hlen] at hlonger ⊢
      rw [hstart, countOfWord_wordOfCount (by omega), intOfWord_wordOfInt (by omega) (by omega)]
      exact (hrecorded _).longer hbegins hsame hlonger
    · rw [closeRun_not_longer hlonger]
      rw [hlen] at hlonger
      exact (hrecorded _).notLonger hbegins hmn.le hlonger
  · have hothers := (hrecorded d).others hmn.le fun i h1 h2 he => hd (he.symm.trans (hsame i h1 h2))
    by_cases hlonger : countOfWord (r.runLen.get r.work.curD) < r.work.curLen
    · rw [closeRun_longer hlonger]
      simp only [PerDibit.get_set_other _ _ hd]
      exact hothers
    · rw [closeRun_not_longer hlonger]
      exact hothers

/-- The run update keeps the open run and the record of those before it (R161). -/
theorem OpenRun.updateRun {ds : Nat → Dibit} {cs : Nat → Int} {m n : Nat} {r : State} (h : OpenRun ds cs m n r)
    (hn : n < 16384) (hcs : 0 ≤ cs m ∧ cs m < 16384) : ∃ m', OpenRun ds cs m' (n + 1) (r.updateRun (ds n) (cs n)) := by
  have hclosed := h.closeRun hn hcs
  obtain ⟨hvalid, hmn, hlen, hstart, hsame, hbegins, hrecorded⟩ := h
  by_cases hd : ds n = r.work.curD
  · rw [hd, updateRun_same hvalid]
    refine ⟨m, hvalid, by omega, ?_, hstart, fun i h1 h2 => ?_, hbegins, hrecorded⟩
    · show r.work.curLen + 1 = n + 1 - m
      omega
    · rcases Nat.lt_succ_iff_lt_or_eq.mp h2 with h2 | rfl
      · exact hsame i h1 h2
      · exact hd
  · rw [updateRun_other hvalid hd]
    refine ⟨n, hvalid, n.lt_succ_self, ?_, rfl, fun i h1 h2 => ?_, .inr ?_, hclosed⟩
    · show 1 = n + 1 - n
      omega
    · obtain rfl : i = n := by omega
      rfl
    · show ds (n - 1) ≠ ds n
      rw [hsame (n - 1) (by omega) (by omega)]
      exact Ne.symm hd

/-- From cleared run registers, some run is open after each step of the loop. -/
theorem trackRuns_openRun {s : State} (hlen : s.runLen = zeroWords) (hstart : s.runStart = zeroWords) (n : Nat)
    (hn : n < 16384) (hcs : ∀ k, k ≤ n → 0 ≤ s.trackChoice k ∧ s.trackChoice k < 16384) :
    ∃ m, OpenRun s.trackDibit s.trackChoice m (n + 1) (s.trackRuns (n + 1)) := by
  induction n with
  | zero =>
    refine ⟨0, ?_⟩
    rw [State.trackRuns, updateRun_first rfl]
    refine ⟨rfl, Nat.one_pos, rfl, rfl, fun i _ hi => ?_, .inl rfl, fun d => ?_⟩
    · obtain rfl : i = 0 := by omega
      rfl
    · simp only [State.trackRuns, hlen, hstart, zeroWords_get]
      exact LongestRun.empty _ _ d
  | succ n ih =>
    obtain ⟨m, hopen⟩ := ih (by omega) fun k hk => hcs k (by omega)
    exact hopen.updateRun hn (hcs m (by have := hopen.nonempty; omega))

/-! The stream. -/

/-- An entry's dibit is in its two lowest bits (30_encoding.md R86). -/
theorem dibitOf_of_stored {s : State} {n : Nat} {c : Int} {m : Move} {d : Dibit} (h0 : 0 ≤ c) (h1 : c < 16384)
    (h : s.stored .dibit n = some (dibitWord c m d)) : s.dibitOf n = d.val := by
  have hword := dibitWord_toNat m d h0 h1
  have hd := d.isLt
  rw [State.dibitOf, elem_of_stored h]
  omega

/-- The stretches of the stream are those of its dibits. -/
theorem stretch_iff {t : State} {ds : Nat → Dibit} (h : ∀ n, n < countOfWord t.nsym → t.dibitOf n = (ds n).val) (d : Dibit)
    (a len : Nat) : t.stretch d a len ↔ stretchIn ds (countOfWord t.nsym) d a len := by
  refine and_congr_right fun hin => forall_congr' fun i => imp_congr_right fun _ => ?_
  refine forall_congr' fun hi => ?_
  rw [h i (by omega), Fin.ext_iff]

/-- Stage TRACK from cleared run registers: its last step leaves a run open, which the flush closes (R163, R167). -/
theorem execTrack_records {s : State} (h359 : 359 ≤ countOfWord s.nl) (hn : countOfWord s.nl ≤ s.cfg.nMax)
    (h50 : 50 ≤ countOfWord s.t0) (h74 : countOfWord s.t0 ≤ 74) (hlen0 : s.runLen = zeroWords)
    (hstart0 : s.runStart = zeroWords) :
    ∃ t, execTrack s = .next t ∧ (∀ n, n < countOfWord t.nsym → s.hasEntry t n) ∧
      records s.trackDibit s.trackChoice (countOfWord t.nsym) t := by
  obtain ⟨t, u, ht, hroom, hentries, hend, hflush, hlen, hstart⟩ := execTrack_follows h359 hn h50 h74
  refine ⟨t, ht, hentries, ?_⟩
  have hcs : ∀ k, k < countOfWord t.nsym → 0 ≤ s.trackChoice k ∧ s.trackChoice k < 16384 := fun k hk => by
    have := trackChoice_bounds h50 hn (hentries k hk).1
    omega
  obtain ⟨n, hcount⟩ : ∃ n, countOfWord t.nsym = n + 1 := by
    refine Nat.exists_eq_succ_of_ne_zero fun h0 => ?_
    rw [h0, State.trackInstant] at hend
    omega
  rw [hcount] at hroom hcs hflush ⊢
  obtain ⟨m, hopen⟩ := trackRuns_openRun hlen0 hstart0 n (by omega) fun k hk => hcs k (by omega)
  rw [execRunFlush_open hopen.valid] at hflush
  cases hflush
  rw [records, hlen, hstart]
  exact hopen.closeRun hroom (hcs m hopen.nonempty)

/-- Settles O46: the run registers record the longest stretches of the loop's dibits, which are those of the stream. -/
theorem trackRecordsLongestRuns : Obligations.TrackRecordsLongestRuns := by
  intro s h359 hn h50 h74 hlen0 hstart0
  obtain ⟨t, ht, hentries, hrecords⟩ := execTrack_records h359 hn h50 h74 hlen0 hstart0
  have hbounds : ∀ n, n < countOfWord t.nsym → 0 ≤ s.trackChoice n ∧ s.trackChoice n < 16384 := fun n hlt => by
    have := trackChoice_bounds h50 hn (hentries n hlt).1
    omega
  have hdibits : ∀ n, n < countOfWord t.nsym → t.dibitOf n = (s.trackDibit n).val := fun n hlt =>
    dibitOf_of_stored (hbounds n hlt).1 (hbounds n hlt).2 (hentries n hlt).2
  refine ⟨t, ht, fun d => ?_⟩
  simp only [stretch_iff hdibits]
  obtain ⟨hinside, hlongest, hnone, hearliest⟩ := hrecords d
  refine ⟨hinside, hlongest, fun h0 => BitVec.eq_of_toInt_eq (hnone (by rw [h0]; rfl)), fun hne => ?_⟩
  have hlen : countOfWord (t.runLen.get d) ≠ 0 := fun h0 => hne (BitVec.eq_of_toNat_eq h0)
  obtain ⟨a, ha, hstart, hfirst⟩ := hearliest hlen
  have hlt : a < countOfWord t.nsym := by
    have := ha.1
    omega
  have hinstant := instantOf_of_stored (hbounds a hlt).1 (hbounds a hlt).2 (hentries a hlt).2
  exact ⟨a, ha, by rw [hstart, hinstant], hfirst⟩

end Sys2Proof.Machine
end

section
/-! SUPPORT. Stages ACQUIRE and TRACK in two states that differ in memory but agree on the filtered phase over the valid
range: every register comes out the same (43_timing_tracker.md R164, 20_memory.md R69). -/

namespace Sys2Proof.Machine

/-- The two states differ in memory only. -/
def sameButMem (u u' : State) : Prop := u' = { u with mem := u'.mem }

/-- Two loops whose bodies go on side by side and keep a relation. -/
theorem Both.forRange {R : State → State → Prop} {body body' : Nat → State → Result} (count : Nat) :
    ∀ (start : Nat) (s s' : State),
      (∀ i u u', start ≤ i → i < start + count → R u u' → Both (body i u) (body' i u') R) → R s s' →
      Both (forRange body count start s) (forRange body' count start s') R := by
  induction count with
  | zero => exact fun _ s s' _ h => ⟨s, s', rfl, rfl, h⟩
  | succ count ih =>
    intro start s s' hbody h
    rw [forRange_succ, forRange_succ]
    exact (hbody start s s' (Nat.le_refl _) (by omega) h).andThen fun u u' hu =>
      ih (start + 1) u u' (fun i v v' h1 h2 hv => hbody i v v' (by omega) (by omega) hv) hu

/-- Whether the phases agree does not turn on working registers. -/
theorem SameFilter.with_work {s s' : State} (h : SameFilter s s') (wk wk' : Work) :
    SameFilter { s with work := wk } { s' with work := wk' } := ⟨h.nl, h.quadT, h.values⟩

/-! ACQUIRE. -/

/-- Both loops have found the same best so far: the working registers are the same (R152). -/
def acquireAlike (s s' u u' : State) : Prop := ∃ wk, u = { s with work := wk } ∧ u' = { s' with work := wk }

theorem SameFilter.acquireOffset {s s' u u' : State} (h : SameFilter s s') (hmin : 359 ≤ countOfWord s.nl) {i : Nat}
    (hi : i < 25) (hu : acquireAlike s s' u u') : Both (acquireOffset i u) (acquireOffset i u') (acquireAlike s s') := by
  obtain ⟨wk, rfl, rfl⟩ := hu
  have hcost : ({ s' with work := wk } : State).offsetCost i = ({ s with work := wk } : State).offsetCost i :=
    (h.with_work wk wk).offsetCost hmin hi
  exact ⟨_, _, by rw [Machine.acquireOffset, cost_offset _ hi], by rw [Machine.acquireOffset, cost_offset _ hi, hcost],
    _, rfl, rfl⟩

/-- Stage ACQUIRE leaves the same instant and working registers in both. -/
theorem SameFilter.execAcquire_alike {s s' : State} (h : SameFilter s s') (hmin : 359 ≤ countOfWord s.nl)
    (hwork : s'.work = s.work) :
    Both (Machine.execAcquire s) (Machine.execAcquire s') fun t t' => ∃ t0 wk, t = { s with t0 := t0, work := wk } ∧
      t' = { s' with t0 := t0, work := wk } := by
  have hstart : acquireAlike s s' { s with work := { s.work with bestT := none } }
      { s' with work := { s'.work with bestT := none } } := ⟨_, rfl, by rw [hwork]⟩
  have hloop := Both.forRange (body := Machine.acquireOffset) (body' := Machine.acquireOffset) 25 0 _ _
    (fun i u u' _ hi hu => h.acquireOffset hmin (by omega) hu) hstart
  refine hloop.andThen ?_
  rintro _ _ ⟨wk, rfl, rfl⟩
  exact ⟨_, _, rfl, rfl, _, wk, rfl, rfl⟩

/-! TRACK. -/

theorem SameFilter.selectWork_eq {u u' : State} (h : SameFilter u u') (hwork : u'.work = u.work) (t : Int) :
    u'.selectWork t = u.selectWork t := by
  have hearly : (if hasEarly t then u'.candidateCost t (t - 1) else u.work.cm) =
      if hasEarly t then u.candidateCost t (t - 1) else u.work.cm :=
    if_ctx_congr Iff.rfl (fun he => h.candidateCost (early_mem_candidates he)) fun _ => rfl
  simp only [State.selectWork, hwork, h.termSet, h.chosenMove, h.candidateCost (self_mem_candidates t),
    h.candidateCost (late_mem_candidates t), hearly]

theorem closeRun_with_mem (s : State) (m : Memory) :
    ({ s with mem := m } : State).closeRun = { s.closeRun with mem := m } := by
  by_cases hlonger : countOfWord (s.runLen.get s.work.curD) < s.work.curLen
  · rw [closeRun_longer hlonger, closeRun_longer (s := { s with mem := m }) hlonger]
  · rw [closeRun_not_longer hlonger, closeRun_not_longer (s := { s with mem := m }) hlonger]

/-- The run update does not look at memory (R161). -/
theorem updateRun_with_mem (s : State) (m : Memory) (d : Dibit) (c : Int) :
    ({ s with mem := m } : State).updateRun d c = { s.updateRun d c with mem := m } := by
  cases hv : s.work.curValid with
  | false => rw [updateRun_first hv, updateRun_first (s := { s with mem := m }) hv]
  | true =>
    by_cases hd : d = s.work.curD
    · subst hd
      rw [updateRun_same hv]
      exact updateRun_same (s := { s with mem := m }) hv c
    · rw [updateRun_other hv hd, updateRun_other (s := { s with mem := m }) hv hd, closeRun_with_mem]

/-- EMIT leaves the same latches and count in both, where the filtered value is the same (R158). -/
theorem sameButMem.emitted {u u' : State} (h : sameButMem u u') {c : Int} (hd : u'.dibAt c = u.dibAt c)
    (hdisc : u'.discAt c = u.discAt c) (m : Move) : sameButMem (u.emitted c m) (u'.emitted c m) := by
  unfold sameButMem State.emitted
  rw [hd, hdisc, h]
  rfl

theorem sameButMem.updateRun {u u' : State} (h : sameButMem u u') (d : Dibit) (c : Int) :
    sameButMem (u.updateRun d c) (u'.updateRun d c) := by
  have hupdate := updateRun_with_mem u u'.mem d c
  rw [← h] at hupdate
  rw [sameButMem, hupdate]

/-- A step of both loops leaves the same registers, where the loops are in step. -/
theorem InStep.sameButMem_next {first : Nat} {s s' u u' v v' : State} (h : InStep first s s' u u') (hfirst : 50 ≤ first)
    (hn : countOfWord s.nl ≤ s.cfg.nMax) (hn' : countOfWord s'.nl ≤ s'.cfg.nMax) (hfilter : SameFilter s s')
    (hsame : sameButMem u u') (hlast : u.work.t ≤ (countOfWord u.nl : Int) - 52) (hv : Machine.trackStep u = .next v)
    (hv' : Machine.trackStep u' = .next v') : sameButMem v v' := by
  have hphase := h.sameFilter hfirst hn hn' hfilter
  obtain ⟨_, h50, _⟩ := h.tracked.bounds hfirst hn
  obtain ⟨w, hw, _, _, _, _, _, _, hruns⟩ := h.tracked.emits hfirst hn hlast
  obtain ⟨w', hw', _, _, _, _, _, _, hruns'⟩ := h.tracked'.emits hfirst hn' (by rwa [h.instant, hphase.nl])
  obtain rfl : w = v := Host.Outcome.next.inj (hw.symm.trans hv)
  obtain rfl : w' = v' := Host.Outcome.next.inj (hw'.symm.trans hv')
  have hwork : u'.work = u.work := by rw [hsame]
  have hvalid : u.validAt (u.selectWork u.work.t).c := by
    obtain ⟨_, hle⟩ := selectWork_c_near u u.work.t
    exact ⟨selectWork_c_ge u h50, by omega⟩
  rw [h.instant, hphase.selectWork_eq hwork, hphase.dibAt hvalid] at hruns'
  rw [hruns, hruns']
  let w := u.selectWork u.work.t
  have hselected : sameButMem { u with work := w } { u' with work := w } := by
    rw [hsame]
    exact rfl
  exact (hselected.emitted (hphase.dibAt hvalid) (hphase.discAt hvalid) _).updateRun _ _

/-- Stage TRACK leaves the same registers and the same stream in both. -/
theorem SameFilter.execTrack_alike {s s' : State} (h : SameFilter s s') (hsame : sameButMem s s')
    (h359 : 359 ≤ countOfWord s.nl) (hn : countOfWord s.nl ≤ s.cfg.nMax) (h50 : 50 ≤ countOfWord s.t0)
    (h74 : countOfWord s.t0 ≤ 74) :
    Both (Machine.execTrack s) (Machine.execTrack s') fun t t' => sameButMem t t' ∧
      sharesElems .dibit (countOfWord t.nsym) t t' := by
  have hn' : countOfWord s'.nl ≤ s'.cfg.nMax := by
    rw [hsame]
    exact hn
  have ht0 : s'.t0 = s.t0 := by rw [hsame]
  have hruns : s'.runLen = s.runLen ∧ s'.runStart = s.runStart := by
    rw [hsame]
    exact ⟨rfl, rfl⟩
  have hstart : sameButMem (s.trackStart (countOfWord s.t0)) (s'.trackStart (countOfWord s.t0)) := by
    rw [hsame]
    exact rfl
  have hloop := Both.trackLoop
    (R := fun u u' => InStep (countOfWord s.t0) s s' u u' ∧ sameButMem u u')
    (fun u u' hu => ⟨hu.1.instant, (hu.1.sameFilter h50 hn hn' h).nl⟩)
    (fun u u' ⟨hu, hus⟩ hlast => by
      obtain ⟨v, v', hv, hv', hstep⟩ := hu.trackStep h50 hn hn' h hlast
      exact ⟨v, v', hv, hv', hstep, hu.sameButMem_next h50 hn hn' h hus hlast hv hv'⟩)
    (countOfWord s.nl) ⟨InStep.start (by omega) h.nl hruns, hstart⟩
  rw [execTrack_eq, execTrack_eq, h.nl, ht0]
  refine hloop.andThen fun u u' ⟨hu, hus⟩ => hu.runs.execRunFlush.mono fun t t' ⟨ht, ht'⟩ => ⟨?_, ?_⟩
  · rw [ht', hus, ht]
    exact rfl
  · rw [ht, ht']
    exact hu.dibits

/-- Settles O47: the two states agree on the filtered phase as far as the tracker reads it. -/
theorem trackerReadsValidRangeOnly : Obligations.TrackerReadsValidRangeOnly := by
  intro s m h359 hn h50 h74 s' hfilt
  have hfilter : SameFilter s s' := ⟨rfl, rfl, fun k h1 h2 => by
    rw [State.elem, State.elem, hfilt k h1 h2]⟩
  obtain ⟨t, t', ht, ht', _, _, hframe, hframe'⟩ := hfilter.execAcquire_alike h359 rfl
  obtain ⟨u, u', hu, hu', hsame, hdibits⟩ := hfilter.execTrack_alike rfl h359 hn h50 h74
  refine ⟨⟨t, t', ht, ht', by rw [hframe, hframe']⟩, u, u', hu, hu', hsame, fun k hk => ?_⟩
  obtain ⟨v, hv, hv'⟩ := hdibits k hk
  rw [hv, hv']

end Sys2Proof.Machine
end
